-- ==== Sys2Proof/Word.lean ====
section
/-! DEFINITION. The word types of the block (00_scope.md R8, R9): bytes, 16-bit checksums, 32-bit registers. -/

namespace Sys2Proof

/-- A byte, 8 bits, unsigned (R8 BYTE, R9). -/
abbrev Byte := BitVec 8

/-- A 16-bit value: a checksum, a length, an index (R8 CK_WIDTH). -/
abbrev Half := BitVec 16

/-- A 32-bit value: a host register as the host sees it (R8 REG_WIDTH). -/
abbrev Word := BitVec 32

end Sys2Proof
end

