-- ==== Sys2Proof/Config.lean ====
section
/-! DEFINITION. What an implementation fixes (00_scope.md R8) and the free values of the model. -/

namespace Sys2Proof

/-- The OPEN parameters of R8 that a rule's effect depends on. A model takes them as an argument (R8): `State.cfg`
holds them, no step changes them, and a statement about every state is a statement about every choice of them (log 5). -/
structure Config where
  /-- IN_MAX: how many bytes the IN buffer has (R32). -/
  inMax : Nat
  /-- RX_MAX: how many bytes RX_BUF has (R33). -/
  rxMax : Nat
  deriving DecidableEq, Repr

/-- The bounds R8 puts on the OPEN parameters. -/
abbrev Config.wf (c : Config) : Prop :=
  (1000 ≤ c.inMax ∧ c.inMax ≤ 65535) ∧ (4 ≤ c.rxMax ∧ c.rxMax ≤ 65535)

/-- CHUNK_MAX: fixed by R8. -/
def Config.chunkMax : Nat := 1000

/-- The parameter values `State.reset` starts with: those of 95_test_vectors.md (DESIGN CHOICE, unsafe, log 5). -/
def Config.vectors : Config := { inMax := 2048, rxMax := 64 }

/-- The free values: what the n-th host read returns where the spec says "unspecified" (R33, R41; 93 U2 to U4).
No body: nothing can be proved of them (log 6). -/
opaque Config.draw : Nat → Word

/-- T_RX (R8, R215): the host's intended delay of `rx_timeout`; OPEN. The model has no time (R256) and no rule's
effect depends on it (log 22). -/
opaque Config.tRx : Nat

/-- CKCODEC_BASE (20_memory.md R58): where the host's bus places the block; OPEN. No rule's effect depends on it
(log 22). -/
opaque Config.ckcodecBase : Nat

/-- O_UNKNOWN1 (30_encoding.md R77): the constant field at payload offset 2 of an `O` command; OPEN. The block never
reads it; Safety.lean's `Instr.conformant` does (log 22). -/
opaque Config.oUnknown1 : Vector Byte 8

/-- O_UNKNOWN2 (30_encoding.md R77): the constant field at payload offset 24 of an `O` command; OPEN (log 22). -/
opaque Config.oUnknown2 : Vector Byte 8

end Sys2Proof
end

