-- ==== Sys2Proof/Syntax.lean ====
section
/-! DEFINITION. The instructions: one constructor per row of spec/opcode_table.json. -/

namespace Sys2Proof

/-- Nine operation words (30_encoding.md R82), six wire command payloads (R75 to R80) and the two handshake signals
(R73). An operation's other operands are implicit (R85): IN[0:IN_LEN], OFFSET, RXQ. -/
inductive Instr where
  /-- CKS_CMD (40_checksum.md R121). -/
  | cksCmd
  /-- CKS_CRC (40_checksum.md R122). -/
  | cksCrc
  /-- ENC_CMD (41_encode.md R141). -/
  | encCmd
  /-- ENC_RAW (41_encode.md R142). -/
  | encRaw
  /-- ENC_CHUNK (41_encode.md R143). -/
  | encChunk
  /-- SIG_TX (41_encode.md R144); the operand is ARG8, the one immediate of the operation word (R85). -/
  | sigTx (arg : Byte)
  /-- RX_FRAME (42_decode.md R171). -/
  | rxFrame
  /-- VER_CMD (42_decode.md R180). -/
  | verCmd
  /-- VER_CRC (42_decode.md R181). -/
  | verCrc
  /-- Wire opcode `M` (R75): message text, sent by the pseudo-instruction `msg t` (R87). -/
  | wireM (text : List Byte)
  /-- Wire opcode `L` (R76): name, separator 0x1C and value, sent by `setvar n, v`. `none` is a payload with no
  separator: not of R76's layout (WellFormed refuses it), but the block seals it all the same (R88; log 19). -/
  | wireL (name : List Byte) (value : Option (List Byte))
  /-- Wire opcode `O` (R77): type byte, unknown field 1, timestamp, unknown field 2 and name, sent by `announce`. -/
  | wireO (kind : Byte) (unknown1 timestamp unknown2 name : List Byte)
  /-- Wire opcode `W` (R78): cumulative offset and chunk data, sent by `chunk off, d`. The length field is the
  data's length. -/
  | wireW (off : Word) (data : List Byte)
  /-- Wire opcode `C` (R79), sent by `close`. -/
  | wireC
  /-- Wire opcode `S` (R80), sent by `stop`. -/
  | wireS
  /-- The handshake byte 0x05, the source's NAK (R73), sent by `probe`. -/
  | wireSigNak
  /-- The handshake byte 0x06, ACK (R73), sent by `ack`. -/
  | wireSigAck
  deriving DecidableEq, Repr

end Sys2Proof
end

