-- ==== Sys2Proof/WellFormed.lean ====
section
/-! DEFINITION. Which instructions have the layout the spec gives them. An ill-formed one still runs: the block seals
any payload and validates none (30_encoding.md R75, R77, R88). -/

namespace Sys2Proof

/-- An ASCII digit, of which a timestamp `YYYYMMDDHHmmss` is made (R14, R77). -/
def isAsciiDigit (b : Byte) : Bool := decide (0x30 ≤ b.toNat ∧ b.toNat ≤ 0x39)

/-- Every SIG_TX word is legal whatever its ARG8 (R84). An `L` payload has a separator (R76), and its name holds no
0x1C, so that the payload says where the name ends (log 19). An `O` payload has the field lengths and contents of
R77. A `W` payload has 1 to CHUNK_MAX data bytes (R78). -/
def Instr.wellFormed : Instr → Bool
  | .cksCmd => true
  | .cksCrc => true
  | .encCmd => true
  | .encRaw => true
  | .encChunk => true
  | .sigTx _ => true
  | .rxFrame => true
  | .verCmd => true
  | .verCrc => true
  | .wireM _ => true
  | .wireL name value => value.isSome && !name.contains 0x1C
  | .wireO kind unknown1 timestamp unknown2 _ =>
    (kind == 0x43 || kind == 0x44) && unknown1.length == 8 && timestamp.length == 14 && timestamp.all isAsciiDigit
      && unknown2.length == 8
  | .wireW _ data => decide (1 ≤ data.length ∧ data.length ≤ Config.chunkMax)
  | .wireC => true
  | .wireS => true
  | .wireSigNak => true
  | .wireSigAck => true

end Sys2Proof
end

