-- ==== Sys2Proof/Decode.lean ====
section
/-! DEFINITION. Decoding operation words (30_encoding.md R81 to R85) and wire units (R73 to R80), the encoder, and the
big-endian byte packing both sides use (00_scope.md R11). -/

namespace Sys2Proof

/-! ## Byte packing -/

/-- `v[15:8]`. -/
def hiByte (v : Half) : Byte := v.extractLsb' 8 8

/-- `v[7:0]`. -/
def loByte (v : Half) : Byte := v.extractLsb' 0 8

/-- `be16(v)`: the most significant byte first (R11). -/
def be16 (v : Half) : List Byte := [hiByte v, loByte v]

/-- `be32(v)`: the most significant byte first (R11). -/
def be32 (v : Word) : List Byte :=
  [v.extractLsb' 24 8, v.extractLsb' 16 8, v.extractLsb' 8 8, v.extractLsb' 0 8]

/-- The 16-bit value whose big-endian bytes are `hi`, `lo`. -/
def ofBe16 (hi lo : Byte) : Half := hi ++ lo

/-- The 32-bit value whose big-endian bytes are given. -/
def ofBe32 (b3 b2 b1 b0 : Byte) : Word := (b3 ++ b2) ++ (b1 ++ b0)

/-! ## What is decoded -/

/-- An encoded instruction: an operation word (the host writes it to OPWORD), or a wire unit: the payload of a frame
the block seals, or a single handshake byte outside any frame. -/
inductive Code where
  | word (w : Word)
  | wire (bytes : List Byte)
  deriving DecidableEq, Repr

/-- Why a code is no instruction. -/
inductive DecodeError where
  /-- R83: an illegal or reserved operation word. -/
  | illegalWord (w : Word)
  /-- R88: a payload with no opcode at all. -/
  | emptyUnit
  /-- R88: a first byte that is no opcode, or a handshake byte that does not stand alone (R73). -/
  | unknownOpcode (b : Byte)
  /-- R77, R78: the payload ends before its fixed fields do. -/
  | truncated (b : Byte)
  /-- R78: the length field is not the number of data bytes. -/
  | badLength (field : Half) (actual : Nat)
  /-- R79, R80: `C` and `S` have no arguments. -/
  | unexpectedArguments (b : Byte)
  deriving DecidableEq, Repr

/-! ## Operation words -/

/-- OP = `w[3:0]` (R81). -/
def opField (w : Word) : BitVec 4 := w.extractLsb' 0 4

/-- RSV0 = `w[7:4]` (R81). -/
def rsv0Field (w : Word) : BitVec 4 := w.extractLsb' 4 4

/-- ARG8 = `w[15:8]` (R81, R85). -/
def arg8Field (w : Word) : Byte := w.extractLsb' 8 8

/-- RSV1 = `w[31:16]` (R81). -/
def rsv1Field (w : Word) : Half := w.extractLsb' 16 16

/-- The operation a code names (R82), with ARG8 where it has an argument; `none` for 0x0 and 0xA to 0xF (R83). -/
def instrOfCode (code : BitVec 4) (arg : Byte) : Option Instr :=
  if code = 1 then some .cksCmd
  else if code = 2 then some .cksCrc
  else if code = 3 then some .encCmd
  else if code = 4 then some .encRaw
  else if code = 5 then some .encChunk
  else if code = 6 then some (.sigTx arg)
  else if code = 7 then some .rxFrame
  else if code = 8 then some .verCmd
  else if code = 9 then some .verCrc
  else none

/-- Total over all 32-bit words (R83): a nonzero reserved field, an unassigned code, or a nonzero ARG8 outside SIG_TX
is illegal. -/
def decodeWord (w : Word) : Except DecodeError Instr :=
  if rsv0Field w ≠ 0 ∨ rsv1Field w ≠ 0 ∨ (opField w ≠ 6 ∧ arg8Field w ≠ 0) then .error (.illegalWord w)
  else match instrOfCode (opField w) (arg8Field w) with
    | some i => .ok i
    | none => .error (.illegalWord w)

/-! ## Wire units -/

/-- Cut a list at its first 0x1C (R76, R74). -/
def splitSeparator : List Byte → List Byte × Option (List Byte)
  | [] => ([], none)
  | b :: rest =>
    if b = 0x1C then ([], some rest)
    else ((b :: (splitSeparator rest).1), (splitSeparator rest).2)

/-- The fields of an `O` payload after its opcode (R77). -/
def decodeO : List Byte → Except DecodeError Instr
  | [] => .error (.truncated 0x4F)
  | kind :: rest =>
    if rest.length < 30 then .error (.truncated 0x4F)
    else .ok (.wireO kind (rest.take 8) ((rest.drop 8).take 14) ((rest.drop 22).take 8) (rest.drop 30))

/-- The fields of a `W` payload after its opcode (R78). -/
def decodeW : List Byte → Except DecodeError Instr
  | l1 :: l0 :: o3 :: o2 :: o1 :: o0 :: data =>
    if (ofBe16 l1 l0).toNat = data.length then .ok (.wireW (ofBe32 o3 o2 o1 o0) data)
    else .error (.badLength (ofBe16 l1 l0) data.length)
  | _ => .error (.truncated 0x57)

/-- An instruction with no arguments: nothing may follow its byte. -/
def decodeBare (i : Instr) (e : DecodeError) (rest : List Byte) : Except DecodeError Instr :=
  if rest = [] then .ok i else .error e

/-- A wire unit by its first byte (R73 to R80; R88 for what has no row). -/
def decodeWire : List Byte → Except DecodeError Instr
  | [] => .error .emptyUnit
  | b :: rest =>
    if b = 0x4D then .ok (.wireM rest)
    else if b = 0x4C then .ok (.wireL (splitSeparator rest).1 (splitSeparator rest).2)
    else if b = 0x4F then decodeO rest
    else if b = 0x57 then decodeW rest
    else if b = 0x43 then decodeBare .wireC (.unexpectedArguments 0x43) rest
    else if b = 0x53 then decodeBare .wireS (.unexpectedArguments 0x53) rest
    else if b = 0x05 then decodeBare .wireSigNak (.unknownOpcode 0x05) rest
    else if b = 0x06 then decodeBare .wireSigAck (.unknownOpcode 0x06) rest
    else .error (.unknownOpcode b)

/-- The decoder: total on every code. -/
def decode : Code → Except DecodeError Instr
  | .word w => decodeWord w
  | .wire bytes => decodeWire bytes

/-! ## The encoder -/

/-- The part of an `L` payload from the separator on (R76). -/
def encodeValue : Option (List Byte) → List Byte
  | none => []
  | some value => 0x1C :: value

/-- The payload of a `W` command for data `d` at offset `off`: `57 ++ be16(m) ++ be32(off) ++ d` (R78). -/
def chunkPayload (off : Word) (d : List Byte) : List Byte :=
  0x57 :: (be16 (BitVec.ofNat 16 d.length) ++ be32 off ++ d)

/-- The operation word or wire unit of an instruction (R73 to R82). -/
def encode : Instr → Code
  | .cksCmd => .word 0x00000001
  | .cksCrc => .word 0x00000002
  | .encCmd => .word 0x00000003
  | .encRaw => .word 0x00000004
  | .encChunk => .word 0x00000005
  | .sigTx arg => .word ((arg.setWidth 32 <<< 8) ||| 0x6)
  | .rxFrame => .word 0x00000007
  | .verCmd => .word 0x00000008
  | .verCrc => .word 0x00000009
  | .wireM text => .wire (0x4D :: text)
  | .wireL name value => .wire (0x4C :: (name ++ encodeValue value))
  | .wireO kind unknown1 timestamp unknown2 name =>
    .wire (0x4F :: kind :: (unknown1 ++ timestamp ++ unknown2 ++ name))
  | .wireW off data => .wire (chunkPayload off data)
  | .wireC => .wire [0x43]
  | .wireS => .wire [0x53]
  | .wireSigNak => .wire [0x05]
  | .wireSigAck => .wire [0x06]

/-! ## The table's numbering -/

/-- How many zero bytes follow a wire row's one byte to make the shortest unit of that row: the 31 further fixed bytes
of an `O` payload (R77), the 6 of a `W` payload (R78), none elsewhere (log 21). -/
def wireOperandBytes (b : Byte) : Nat :=
  if b = 0x4F then 31 else if b = 0x57 then 6 else 0

/-- The code a table row's bits stand for: 32 bits are an operation word, 8 bits the first byte of a wire unit whose
fixed operand bytes are zero (log 21). -/
def codeOfTable (nbits w : Nat) : Option Code :=
  if nbits = 32 then some (.word (BitVec.ofNat 32 w))
  else if nbits = 8 then
    some (.wire (BitVec.ofNat 8 w :: List.replicate (wireOperandBytes (BitVec.ofNat 8 w)) 0))
  else none

/-- The instruction the decoder reads from a table row's bits. -/
def decodeTableWord (nbits w : Nat) : Option Instr :=
  match codeOfTable nbits w with
  | none => none
  | some c =>
    match decode c with
    | .ok i => some i
    | .error _ => none

end Sys2Proof
end

