-- ==== Sys2Proof/Machine/State.lean ====
section
/-! DEFINITION. The state of the block and its environment (10_state.md), the reasons a step can stop, and reset
(70_reset_and_hazards.md R241). -/

namespace Sys2Proof.Machine

/-- The fields of STATUS (10_state.md R24). Bits 7 and 31:12 read 0 and are not stored (log 29). -/
structure Status where
  /-- Bit 0: an operation is in flight. -/
  busy : Bool
  /-- Bit 1: the last accepted operation has ended. -/
  done : Bool
  /-- Bits 3:2: RX_FRAME outcome, 0 NONE, 1 SIGNAL, 2 FRAME. -/
  kind : BitVec 2
  /-- Bit 4: the last operation compared a computed checksum with a received one. -/
  ckValid : Bool
  /-- Bit 5: they were equal. -/
  ckOk : Bool
  /-- Bit 6: a host write was dropped because BUSY = 1; sticky. -/
  herr : Bool
  /-- Bits 11:8: error code of the last operation (60_exceptions.md R211). -/
  err : BitVec 4
  deriving DecidableEq, Repr

/-- A byte buffer: (index, byte) pairs, indices strictly rising, one for each byte that has been written (R32, R33).
An unlisted index reads as nothing. -/
abbrev Memory := List Host.Cell

/-- Where in its pseudocode the operation in flight has come to, beside IDX (log 1, log 2). -/
inductive Phase where
  /-- Before its first line. -/
  | start
  /-- ENC_CHUNK: the next byte to emit is byte `j` of the chunk payload's 7-byte header (R143). -/
  | header (j : Nat)
  /-- In the loop over IN; IDX is the next byte. -/
  | body
  /-- Before the seal's most significant byte. -/
  | sealHi
  /-- Before the seal's least significant byte. -/
  | sealLo
  deriving DecidableEq, Repr

/-- One line of the HOST's program (30_encoding.md R86, R87). The lines `cks.cmd` ... `sig.tx` are `wr 0 w`. -/
inductive HostLine where
  /-- `wr REG, imm32`. -/
  | wr (reg : Nat) (value : Word)
  /-- `rd REG`. -/
  | rd (reg : Nat)
  /-- `wrb IN[i], imm8`. -/
  | wrb (index : Nat) (value : Byte)
  /-- `rdb IN[i]`. -/
  | rdbIn (index : Nat)
  /-- `rdb RXB[i]`. -/
  | rdbRx (index : Nat)
  /-- `poll`: read STATUS until DONE reads 1. -/
  | poll
  /-- Pseudo-instruction `load s`. -/
  | load (bytes : List Byte)
  /-- Pseudo-instruction `send.cmd p`. -/
  | sendCmd (payload : List Byte)
  /-- Pseudo-instruction `send.raw s`. -/
  | sendRaw (bytes : List Byte)
  /-- Pseudo-instruction `recvf`. -/
  | recvf
  /-- The pseudo-instruction that sends this wire unit: `msg`, `setvar`, `announce`, `chunk`, `close`, `stop`, `probe`
  or `ack`, as the unit's first byte says (R73 to R80; log 19). -/
  | wire (bytes : List Byte)
  deriving DecidableEq, Repr

/-- Who moves next (00_scope.md R7). -/
inductive Turn where
  /-- The ENGINE takes one step of the operation in flight. -/
  | engine
  /-- The HOST runs its next line. -/
  | host
  /-- The CHANNEL appends a received byte to RXQ. -/
  | channel (b : Byte)
  /-- The TIMER delivers `rx_timeout` (60_exceptions.md R215). -/
  | timer
  /-- The reset input is asserted (70_reset_and_hazards.md R240). -/
  | reset
  deriving DecidableEq, Repr

/-- Everything the spec gives the block and its environment. -/
structure State where
  /-- IN_MAX and RX_MAX (00_scope.md R8); no step changes it (log 5). -/
  cfg : Config
  /-- OPWORD, register 0 (R23). -/
  opword : Word
  /-- STATUS, register 1 (R24). -/
  status : Status
  /-- RESULT, register 2 (R25): the 16 bits it uses. -/
  result : Half
  /-- RECV, register 3 (R26). -/
  recv : Half
  /-- OFFSET, register 4 (R27). -/
  offset : Word
  /-- IN_LEN, register 5 (R28). -/
  inLen : Half
  /-- RX_LEN, register 6 (R29). -/
  rxLen : Half
  /-- PLEN, register 7 (R30). -/
  plen : Half
  /-- SIGNAL, register 8 (R31). -/
  signal : Byte
  /-- The IN buffer (R32); an unlisted byte is unwritten. -/
  inBuf : Memory
  /-- RX_BUF (R33); an unlisted byte is unspecified. -/
  rxBuf : Memory
  /-- ACC_CMD (R35). -/
  accCmd : Half
  /-- ACC_CRC (R36). -/
  accCrc : Half
  /-- RX_INF (R37): the reader is inside a frame. -/
  rxInf : Bool
  /-- OPCUR (R38): the code of the operation in flight. -/
  opcur : Option (BitVec 4)
  /-- IDX (R38): the next byte of IN to be processed. -/
  idx : Half
  /-- The model's own: the place in the pseudocode of the operation in flight (log 2). -/
  phase : Phase
  /-- RXQ (R39): received bytes, oldest first. -/
  rxq : List Byte
  /-- TXS (R39): emitted bytes, oldest first. -/
  txs : List Byte
  /-- The model's own: the HOST's lines not yet run, in program order (log 4). -/
  hostProg : List HostLine
  /-- The model's own: who moves next, oldest first (log 3). -/
  agenda : List Turn
  /-- The model's own: what the HOST's last read returned (log 8). -/
  readData : Word
  /-- The model's own: how many host reads there have been; free values are drawn at it (log 6). -/
  draws : Nat
  deriving DecidableEq, Repr

/-- Why the machine stops. -/
inductive Fault where
  /-- Raised by every operation that reads IN, when it reads a byte the host has not written since reset
  (10_state.md R32: "If an operation reads an unwritten byte, the model faults"). Safe: the chip reads some value. -/
  | unwrittenIn (index : Nat)
  deriving DecidableEq, Repr

/-- Why an instruction has no meaning. -/
inductive Refusal where
  /-- Raised by an arm of `exec` whose instruction has no meaning yet. Safe. No arm is left so. -/
  | notModelled (mnemonic : String)
  deriving DecidableEq, Repr

/-- STATUS = 0x00000000. -/
def Status.zero : Status :=
  { busy := false, done := false, kind := 0, ckValid := false, ckOk := false, herr := false, err := 0 }

/-- The state after reset (R241). The parameters are log 5's, the environment's fields log 17's. -/
def State.reset : State :=
  { cfg := Config.vectors, opword := 0, status := Status.zero, result := 0, recv := 0, offset := 0, inLen := 0,
    rxLen := 0, plen := 0, signal := 0, inBuf := [], rxBuf := [], accCmd := 0, accCrc := 0, rxInf := false,
    opcur := none, idx := 0, phase := .start, rxq := [], txs := [], hostProg := [], agenda := [], readData := 0,
    draws := 0 }

end Sys2Proof.Machine
end

