-- ==== Sys2Proof/Machine/Flags.lean ====
section
/-! DEFINITION. The fields of STATUS (10_state.md R24, R40): the word the host reads, and every way the block writes
them. -/

namespace Sys2Proof.Machine

/-- STATUS.ERR codes (60_exceptions.md R211); 8 to 15 are reserved and never produced. -/
inductive ErrCode where
  | none
  | illegal
  | badLen
  | badArg
  | rxOverflow
  | rxTimeout
  | badFrame
  | ckMismatch
  deriving DecidableEq, Repr

/-- The code's number (R211). -/
def ErrCode.bits : ErrCode → BitVec 4
  | .none => 0
  | .illegal => 1
  | .badLen => 2
  | .badArg => 3
  | .rxOverflow => 4
  | .rxTimeout => 5
  | .badFrame => 6
  | .ckMismatch => 7

/-- KIND = SIGNAL (R24). -/
def kindSignal : BitVec 2 := 1

/-- KIND = FRAME (R24). -/
def kindFrame : BitVec 2 := 2

/-- One bit as a one-bit field. -/
def bit (b : Bool) : BitVec 1 := BitVec.ofBool b

/-- STATUS as the host reads it (R24): bit 7 and bits 31:12 read 0. -/
def Status.word (st : Status) : Word :=
  (0 : BitVec 20) ++ (st.err ++ ((0 : BitVec 1) ++ (bit st.herr ++ (bit st.ckOk ++ (bit st.ckValid ++
    (st.kind ++ (bit st.done ++ bit st.busy)))))))

/-- `finish`: BUSY <- 0, DONE <- 1, no other field (00_scope.md R13, R24). -/
def Status.finish (st : Status) : Status := { st with busy := false, done := true }

/-- What accepting a word clears (R210): DONE, KIND, CK_VALID, CK_OK and ERR, never HERR. BUSY is 0 there. -/
def Status.cleared (st : Status) : Status :=
  { st with busy := false, done := false, kind := 0, ckValid := false, ckOk := false, err := 0 }

/-- ERR <- code. -/
def Status.withErr (st : Status) (e : ErrCode) : Status := { st with err := e.bits }

/-- KIND <- k. -/
def Status.withKind (st : Status) (k : BitVec 2) : Status := { st with kind := k }

/-- BUSY <- 1. -/
def Status.started (st : Status) : Status := { st with busy := true }

/-- HERR <- 1: a host write was dropped (R251). -/
def Status.dropped (st : Status) : Status := { st with herr := true }

/-- HERR <- 0: the host wrote STATUS with bit 6 = 1 (R24). -/
def Status.herrCleared (st : Status) : Status := { st with herr := false }

/-- The flags of a comparison of the computed checksum `c` with the received `r` (R177, R180, R181): CK_VALID <- 1,
and CK_OK <- 1 if they are equal, else CK_OK <- 0 and ERR <- CK_MISMATCH. -/
def Status.compared (st : Status) (c r : Half) : Status :=
  if c = r then { st with ckValid := true, ckOk := true }
  else { st with ckValid := true, ckOk := false, err := ErrCode.ckMismatch.bits }

end Sys2Proof.Machine
end

