-- ==== Sys2Proof/Machine/Ops.lean ====
section
/-! DEFINITION. The shared operations over buffers, registers and the channel (00_scope.md R13), accepting an operation
word (60_exceptions.md R210), and ending one with an error (`raise Err`), which is all this block has of an exception:
there is no trap entry and no return (R216, R218). -/

namespace Sys2Proof.Machine

/-! ## Buffers -/

/-- The byte at an index, if one has been written there. -/
def Memory.read (m : Memory) (i : Nat) : Option Byte :=
  match m with
  | [] => none
  | c :: rest => if c.1 = i then some c.2 else Memory.read rest i

/-- Write a byte, keeping the indices strictly rising. -/
def Memory.write (m : Memory) (i : Nat) (b : Byte) : Memory :=
  match m with
  | [] => [(i, b)]
  | c :: rest =>
    if i < c.1 then (i, b) :: c :: rest
    else if c.1 = i then (i, b) :: rest
    else c :: Memory.write rest i b

/-- The canonical form: indices strictly rising. No entry equals what an unlisted index reads as, since an unlisted
index reads as nothing. -/
abbrev Memory.wf (m : Memory) : Prop := (m.map Prod.fst).Pairwise (· < ·)

/-- The `k` bytes from index `i` on, or the first of those indices at which nothing has been written. -/
def Memory.span (m : Memory) (i : Nat) : Nat → Except Nat (List Byte)
  | 0 => .ok []
  | k + 1 =>
    match Memory.read m i with
    | none => .error i
    | some b =>
      match Memory.span m (i + 1) k with
      | .error e => .error e
      | .ok s => .ok (b :: s)

/-! ## Channel -/

/-- `emit(b)`: append to the CHANNEL's transmit stream (R13). -/
def State.emit (s : State) (b : Byte) : State := { s with txs := s.txs ++ [b] }

/-! ## Ending an operation -/

/-- `finish` (R13): BUSY <- 0, DONE <- 1. OPCUR and IDX exist only while BUSY = 1 (10_state.md R38; log 14). -/
def State.finish (s : State) : State :=
  { s with status := s.status.finish, opcur := none, idx := 0, phase := .start }

/-- `raise Err(code)` (R13): ERR <- code, then `finish`. Nothing else is recorded (R211, R216). -/
def State.raise (s : State) (e : ErrCode) : State := { s with status := s.status.withErr e }.finish

/-- The end of a checksum or encoding operation: RESULT <- zext(v), then `finish`. -/
def State.finishResult (s : State) (v : Half) : State := { s with result := v }.finish

/-- The end of a verification (R177, R180, R181) with computed checksum `c`, received checksum `r` and payload length
`p`: RESULT, RECV, PLEN, the comparison's flags, then `finish`. A mismatch is reported and nothing is rejected (R179). -/
def State.verdict (s : State) (c r p : Half) : State :=
  { s with result := c, recv := r, plen := p, status := s.status.compared c r }.finish

/-- The end of a verification with the Command Checksum (R177, R180): ACC_CMD was set to 0x0000 before the first covered
byte (10_state.md R35), took every covered byte within this one step (R256), and so holds `c` (log 30). -/
abbrev State.verdictCmd (s : State) (c r p : Half) : State := { s with accCmd := c }.verdict c r p

/-- The end of a verification with CRC-16/BUYPASS (R181): the same of ACC_CRC (10_state.md R36; log 30). -/
abbrev State.verdictCrc (s : State) (c r p : Half) : State := { s with accCrc := c }.verdict c r p

/-! ## Accepting an operation word -/

/-- What accepting RX_FRAME does at once (42_decode.md R170): RX_INF <- 0, RX_LEN <- 0, and every RX_BUF byte
unspecified until it is written again (log 15). -/
def State.rxStart (s : State) : State := { s with rxInf := false, rxLen := 0, rxBuf := [] }

/-- Put operation `code` in flight: OPCUR, IDX <- 0, BUSY <- 1 (R210). -/
def State.launch (s : State) (code : BitVec 4) : State :=
  { s with status := s.status.started, opcur := some code, idx := 0, phase := .start }

/-- The ELSE branch of R210, taken when BUSY = 0: OPWORD <- w and the flags cleared, then an illegal word ends at
once with ERR = ILLEGAL (R83), and a legal one is in flight. -/
def State.startOp (s : State) (w : Word) : State :=
  let s1 : State := { s with opword := w, status := s.status.cleared }
  match decodeWord w with
  | .error _ => s1.raise .illegal
  | .ok .rxFrame => s1.rxStart.launch (opField w)
  | .ok _ => s1.launch (opField w)

/-- A host write was dropped because BUSY = 1: HERR <- 1 (70_reset_and_hazards.md R251). -/
def State.dropWrite (s : State) : State := { s with status := s.status.dropped }

/-- A host write of `w` to OPWORD (R210). -/
def State.accept (s : State) (w : Word) : State := if s.status.busy then s.dropWrite else s.startOp w

/-- The operation in flight: named by OPCUR, with ARG8 from OPWORD (R38, R144); none while BUSY = 0. -/
def State.inFlight (s : State) : Option Instr :=
  if s.status.busy then
    match s.opcur with
    | none => none
    | some code => instrOfCode code (arg8Field s.opword)
  else none

/-! ## The HOST's program and the agenda -/

/-- The turns still to come. -/
def State.setAgenda (s : State) (turns : List Turn) : State := { s with agenda := turns }

/-- The lines of the HOST's program still to run. -/
def State.setProg (s : State) (lines : List HostLine) : State := { s with hostProg := lines }

/-- Put lines in front of the HOST's program. -/
def State.pushLines (s : State) (lines : List HostLine) : State := { s with hostProg := lines ++ s.hostProg }

/-- The free value of this host read (log 6). -/
def State.draw (s : State) : Word := Config.draw s.draws

/-- A host read returns `v`: no state of the block changes (20_memory.md R56). -/
def State.returnRead (s : State) (v : Word) : State := { s with readData := v, draws := s.draws + 1 }

end Sys2Proof.Machine
end

