-- ==== Sys2Proof/Machine/Operands.lean ====
section
/-! DEFINITION. The operands of the operations (30_encoding.md R85), all implicit but ARG8: the bytes IN[0:IN_LEN], the
chunk header made of IN_LEN and OFFSET, RX_BUF; and the host lines the pseudo-instructions of R87 are made of. -/

namespace Sys2Proof.Machine

/-! ## IN -/

/-- `n`, the number IN_LEN holds (R28). -/
def State.len (s : State) : Nat := s.inLen.toNat

/-- The check every operation that reads IN makes first (60_exceptions.md R213): IN_LEN > IN_MAX. -/
def State.tooLong (s : State) : Bool := decide (s.cfg.inMax < s.len)

/-- `MemRead(IN, i, 1)`; `none` where the host has written nothing (R32). -/
def State.readIn (s : State) (i : Nat) : Option Byte := Memory.read s.inBuf i

/-- `IN[i : i + k]`. -/
def State.spanIn (s : State) (i k : Nat) : Except Nat (List Byte) := Memory.span s.inBuf i k

/-- IDX is still below IN_LEN: there is a byte of IN to process. -/
def State.more (s : State) : Bool := decide (s.idx.toNat < s.len)

/-! ## Chunk header -/

/-- `[0x57] ++ be16(m) ++ be32(off)` (R78, R143). -/
def chunkHeader (m : Half) (off : Word) : List Byte := 0x57 :: (be16 m ++ be32 off)

/-- `q[j]` for j in 0..6, from IN_LEN and OFFSET (R143). -/
def State.headerByte (s : State) (j : Nat) : Byte := (chunkHeader s.inLen s.offset).getD j 0

/-! ## RX_BUF -/

/-- `MemRead(RXB, i, 1)` by the ENGINE. A byte RX_FRAME has not stored is unspecified: a free value (R33; log 24). -/
def State.rxByte (s : State) (i : Nat) : Byte := (Memory.read s.rxBuf i).getD (s.draw.setWidth 8)

/-- `RX_BUF[i : i + k]`. -/
def State.rxSpan (s : State) (i k : Nat) : List Byte := (List.range k).map (fun j => s.rxByte (i + j))

/-! ## Host lines -/

/-- The `wrb` lines that load bytes from index `i` on. -/
def wrbLines (i : Nat) : List Byte → List HostLine
  | [] => []
  | b :: rest => .wrb i b :: wrbLines (i + 1) rest

/-- `load s` (R87): the bytes, then IN_LEN. -/
def loadLines (bytes : List Byte) : List HostLine :=
  wrbLines 0 bytes ++ [.wr 5 (BitVec.ofNat 32 bytes.length)]

/-- `send.cmd p` (R87): `load p`; `enc.cmd`; `poll`. -/
def sendCmdLines (p : List Byte) : List HostLine := loadLines p ++ [.wr 0 0x00000003, .poll]

/-- `send.raw s` (R87): `load s`; `enc.raw`; `poll`. -/
def sendRawLines (bytes : List Byte) : List HostLine := loadLines bytes ++ [.wr 0 0x00000004, .poll]

/-- `chunk off, d` (R87): `wr OFFSET, off`; `load d`; `enc.chunk`; `poll`. -/
def chunkLines (off : Word) (d : List Byte) : List HostLine :=
  .wr 4 off :: (loadLines d ++ [.wr 0 0x00000005, .poll])

/-- `sig.tx a`; `poll` (R86, R87): `probe` with 0x05 and `ack` with 0x06. -/
def sigTxLines (a : Byte) : List HostLine := [.wr 0 ((a.setWidth 32 <<< 8) ||| 0x6), .poll]

/-- `recvf` (R87): `rx.frame`; `poll`. -/
def recvfLines : List HostLine := [.wr 0 0x00000007, .poll]

end Sys2Proof.Machine
end

