-- ==== Sys2Proof/Machine/ChecksumOps.lean ====
section
/-! DEFINITION. CKS_CMD and CKS_CRC (40_checksum.md R121, R122): one ENGINE step of each. -/

namespace Sys2Proof.Machine

/-- CKS_CMD (R121). First the length check and ACC_CMD <- 0x0000, then one step per byte, then RESULT and `finish`
(log 1). -/
def execCksCmd (s : State) : Host.Outcome State Fault Refusal :=
  match s.phase with
  | .start =>
    if s.tooLong then .next (s.raise .badLen) else .next { s with accCmd := 0, phase := .body }
  | .body =>
    if s.more then
      match s.readIn s.idx.toNat with
      | none => .fault (.unwrittenIn s.idx.toNat)
      | some b => .next { s with accCmd := cmdStep s.accCmd b, idx := s.idx + 1 }
    else .next (s.finishResult s.accCmd)
  | .header _ => .next s
  | .sealHi => .next s
  | .sealLo => .next s

/-- CKS_CRC (R122). First the length check and ACC_CRC <- 0x0000, then one step per byte, then RESULT and `finish`
(log 1). -/
def execCksCrc (s : State) : Host.Outcome State Fault Refusal :=
  match s.phase with
  | .start =>
    if s.tooLong then .next (s.raise .badLen) else .next { s with accCrc := 0, phase := .body }
  | .body =>
    if s.more then
      match s.readIn s.idx.toNat with
      | none => .fault (.unwrittenIn s.idx.toNat)
      | some b => .next { s with accCrc := crcStep s.accCrc b, idx := s.idx + 1 }
    else .next (s.finishResult s.accCrc)
  | .header _ => .next s
  | .sealHi => .next s
  | .sealLo => .next s

end Sys2Proof.Machine
end

