-- ==== Sys2Proof/Machine/EncodeOps.lean ====
section
/-! DEFINITION. ENC_CMD, ENC_RAW, ENC_CHUNK and SIG_TX (41_encode.md R140 to R145): one ENGINE step of each. Every
check comes before the first emitted byte, one step emits one byte, and `finish` comes with the last (R140; log 1). No
payload byte is escaped, stuffed or refused (R145). -/

namespace Sys2Proof.Machine

/-- ENC_CMD (R141): 02, the payload, 03, the seal over payload ++ [03], most significant byte first. -/
def execEncCmd (s : State) : Host.Outcome State Fault Refusal :=
  match s.phase with
  | .start =>
    if s.tooLong then .next (s.raise .badLen)
    else .next { s.emit 0x02 with accCmd := 0, phase := .body }
  | .body =>
    if s.more then
      match s.readIn s.idx.toNat with
      | none => .fault (.unwrittenIn s.idx.toNat)
      | some b => .next { s.emit b with accCmd := cmdStep s.accCmd b, idx := s.idx + 1 }
    else .next { s.emit 0x03 with accCmd := cmdStep s.accCmd 0x03, phase := .sealHi }
  | .sealHi => .next { s.emit (hiByte s.accCmd) with phase := .sealLo }
  | .sealLo => .next ((s.emit (loByte s.accCmd)).finishResult s.accCmd)
  | .header _ => .next s

/-- ENC_RAW (R142): 02 and the bytes of IN, no footer; RESULT unchanged. -/
def execEncRaw (s : State) : Host.Outcome State Fault Refusal :=
  match s.phase with
  | .start =>
    if s.tooLong then .next (s.raise .badLen)
    else if s.len = 0 then .next (s.emit 0x02).finish
    else .next { s.emit 0x02 with phase := .body }
  | .body =>
    match s.readIn s.idx.toNat with
    | none => .fault (.unwrittenIn s.idx.toNat)
    | some b =>
      if s.idx.toNat + 1 < s.len then .next { s.emit b with idx := s.idx + 1 } else .next (s.emit b).finish
  | .header _ => .next s
  | .sealHi => .next s
  | .sealLo => .next s

/-- ENC_CHUNK (R143): 02, the `W` payload made of IN_LEN, OFFSET and IN, and its CRC, most significant byte first.
The payload is read whole before the first byte is emitted, as its rule builds it (log 13). -/
def execEncChunk (s : State) : Host.Outcome State Fault Refusal :=
  match s.phase with
  | .start =>
    if s.tooLong then .next (s.raise .badLen)
    else if s.len = 0 ∨ Config.chunkMax < s.len then .next (s.raise .badLen)
    else
      match s.spanIn 0 s.len with
      | .error i => .fault (.unwrittenIn i)
      | .ok _ => .next { s.emit 0x02 with accCrc := 0, phase := .header 0 }
  | .header j =>
    .next { s.emit (s.headerByte j) with
      accCrc := crcStep s.accCrc (s.headerByte j), phase := if j < 6 then .header (j + 1) else .body }
  | .body =>
    if s.more then
      match s.readIn s.idx.toNat with
      | none => .fault (.unwrittenIn s.idx.toNat)
      | some b => .next { s.emit b with accCrc := crcStep s.accCrc b, idx := s.idx + 1 }
    else .next { s.emit (hiByte s.accCrc) with phase := .sealLo }
  | .sealLo => .next ((s.emit (loByte s.accCrc)).finishResult s.accCrc)
  | .sealHi => .next s

/-- SIG_TX (R144): the byte alone, no marker and no checksum; BAD_ARG for anything but 0x05 and 0x06. -/
def execSigTx (a : Byte) (s : State) : Host.Outcome State Fault Refusal :=
  if a ≠ 0x05 ∧ a ≠ 0x06 then .next (s.raise .badArg) else .next (s.emit a).finish

end Sys2Proof.Machine
end

