-- ==== Sys2Proof/Machine/ReaderOps.lean ====
section
/-! DEFINITION. RX_FRAME, the Frame Reader (42_decode.md R170 to R179, R183). Its start is `State.rxStart` in Ops.lean,
done when its word is accepted (R170). -/

namespace Sys2Proof.Machine

/-- A byte outside a frame (R172): a signal ends the operation, 0x02 opens a frame, anything else is discarded. -/
def rxOutside (b : Byte) (s : State) : State :=
  if b = 0x06 ∨ b = 0x05 then { s with signal := b, status := s.status.withKind kindSignal }.finish
  else if b = 0x02 then { s with rxInf := true, rxBuf := Memory.write s.rxBuf 0 0x02, rxLen := 1 }
  else s

/-- `verify_rx(n)` (R177): a received frame is checked with the Command Checksum. -/
def verifyRx (n : Half) (s : State) : State :=
  s.verdictCmd (cmdChecksum (s.rxSpan 1 (n.toNat - 3)))
    (ofBe16 (s.rxByte (n.toNat - 2)) (s.rxByte (n.toNat - 1))) (n - 4)

/-- `MemWrite(RXB, n, 1, b)` and RX_LEN <- n + 1 (R171). -/
def rxAppend (b : Byte) (s : State) : State :=
  { s with rxBuf := Memory.write s.rxBuf s.rxLen.toNat b, rxLen := s.rxLen + 1 }

/-- After an append: complete when there are at least 4 bytes and the third from last is 0x03 (R173), which is tested
before the overflow (R175, R213). -/
def rxSettle (s : State) : State :=
  if 4 ≤ s.rxLen.toNat ∧ s.rxByte (s.rxLen.toNat - 3) = 0x03 then
    verifyRx s.rxLen { s with status := s.status.withKind kindFrame }
  else if s.rxLen.toNat = s.cfg.rxMax then s.raise .rxOverflow
  else s

/-- Step RX_BYTE with the byte taken (R171). -/
def rxTake (b : Byte) (s : State) : State := if s.rxInf then rxSettle (rxAppend b s) else rxOutside b s

/-- RX_FRAME (R171): one byte per step, oldest first (R178). With no byte in RXQ step RX_BYTE is not enabled and the
operation waits: BUSY stays 1 (R176, R255). Step RX_TIMEOUT is `State.timeout`. -/
def execRxFrame (s : State) : Host.Outcome State Fault Refusal :=
  match s.rxq with
  | [] => .next s
  | b :: rest => .next (rxTake b { s with rxq := rest })

/-- `rx_timeout` is delivered (60_exceptions.md R215): step RX_TIMEOUT while RX_FRAME is in flight (R171, R176), no
effect at any other time, and never latched (log 27). -/
def State.timeout (s : State) : State := if s.inFlight = some .rxFrame then s.raise .rxTimeout else s

end Sys2Proof.Machine
end

