-- ==== Sys2Proof/Machine/VerifyOps.lean ====
section
/-! DEFINITION. VER_CMD and VER_CRC (42_decode.md R180, R181). A verification is one ENGINE step
(70_reset_and_hazards.md R256). -/

namespace Sys2Proof.Machine

/-- Read a frame of `n` bytes in IN for its verification: bytes 1 to n-3 are what its checksum covers, the last two are
the received checksum. `verdict` says how the verification of these ends. -/
def verifyIn (s : State) (n : Nat) (verdict : List Byte → Half → State) : Host.Outcome State Fault Refusal :=
  match s.spanIn 1 (n - 3) with
  | .error i => .fault (.unwrittenIn i)
  | .ok covered =>
    match s.readIn (n - 2) with
    | none => .fault (.unwrittenIn (n - 2))
    | some hi =>
      match s.readIn (n - 1) with
      | none => .fault (.unwrittenIn (n - 1))
      | some lo => .next (verdict covered (ofBe16 hi lo))

/-- VER_CMD (R180): a command frame, checked with the Command Checksum over payload ++ [03]. The shape is tested in
the order the rule lists it (R213), reading no byte a failed test makes needless (log 12). -/
def execVerCmd (s : State) : Host.Outcome State Fault Refusal :=
  if s.tooLong then .next (s.raise .badLen)
  else if s.len < 4 then .next (s.raise .badFrame)
  else
    match s.readIn 0 with
    | none => .fault (.unwrittenIn 0)
    | some first =>
      if first ≠ 0x02 then .next (s.raise .badFrame)
      else
        match s.readIn (s.len - 3) with
        | none => .fault (.unwrittenIn (s.len - 3))
        | some marker =>
          if marker ≠ 0x03 then .next (s.raise .badFrame)
          else verifyIn s s.len (fun covered r => s.verdictCmd (cmdChecksum covered) r (s.inLen - 4))

/-- VER_CRC (R181): a chunk-write frame, checked with CRC-16/BUYPASS over the payload alone. -/
def execVerCrc (s : State) : Host.Outcome State Fault Refusal :=
  if s.tooLong then .next (s.raise .badLen)
  else if s.len < 3 then .next (s.raise .badFrame)
  else
    match s.readIn 0 with
    | none => .fault (.unwrittenIn 0)
    | some first =>
      if first ≠ 0x02 then .next (s.raise .badFrame)
      else verifyIn s s.len (fun covered r => s.verdictCrc (crc16 covered) r (s.inLen - 3))

end Sys2Proof.Machine
end

