-- ==== Sys2Proof/Machine/WireOps.lean ====
section
/-! DEFINITION. The wire rows (30_encoding.md R73 to R80): each is the pseudo-instruction of R87 that sends it, whose
exact expansion becomes the next lines of the HOST's program (log 4, log 19). -/

namespace Sys2Proof.Machine

/-- `msg t` = `send.cmd "M" ++ t` (R75, R87). -/
def execWireM (text : List Byte) (s : State) : Host.Outcome State Fault Refusal :=
  .next (s.pushLines (sendCmdLines (0x4D :: text)))

/-- `setvar n, v` = `send.cmd "L" ++ n ++ [1C] ++ v` (R76, R87). -/
def execWireL (name : List Byte) (value : Option (List Byte)) (s : State) : Host.Outcome State Fault Refusal :=
  .next (s.pushLines (sendCmdLines (0x4C :: (name ++ encodeValue value))))

/-- `announce ty, u1, ts, u2, nm` = `send.cmd "O" ++ ty ++ u1 ++ ts ++ u2 ++ nm` (R77, R87). -/
def execWireO (kind : Byte) (unknown1 timestamp unknown2 name : List Byte) (s : State) :
    Host.Outcome State Fault Refusal :=
  .next (s.pushLines (sendCmdLines (0x4F :: kind :: (unknown1 ++ timestamp ++ unknown2 ++ name))))

/-- `chunk off, d` (R78, R87): sealed as a chunk-write frame, never as a command frame. -/
def execWireW (off : Word) (data : List Byte) (s : State) : Host.Outcome State Fault Refusal :=
  .next (s.pushLines (chunkLines off data))

/-- `close` = `send.cmd "C"` (R79, R87). -/
def execWireC (s : State) : Host.Outcome State Fault Refusal := .next (s.pushLines (sendCmdLines [0x43]))

/-- `stop` = `send.cmd "S"` (R80, R87). -/
def execWireS (s : State) : Host.Outcome State Fault Refusal := .next (s.pushLines (sendCmdLines [0x53]))

/-- `probe` = `sig.tx 0x05`; `poll` (R73, R87). -/
def execWireSigNak (s : State) : Host.Outcome State Fault Refusal := .next (s.pushLines (sigTxLines 0x05))

/-- `ack` = `sig.tx 0x06`; `poll` (R73, R87). -/
def execWireSigAck (s : State) : Host.Outcome State Fault Refusal := .next (s.pushLines (sigTxLines 0x06))

end Sys2Proof.Machine
end

