-- ==== Sys2Proof/Machine/Dispatch.lean ====
section
/-! DEFINITION. What an instruction does: for an operation word, ONE ENGINE step of the operation in flight; for a wire
row, the HOST's pseudo-instruction that sends it. -/

namespace Sys2Proof.Machine

def exec (i : Instr) (s : State) : Host.Outcome State Fault Refusal :=
  match i with
  | .cksCmd => Sys2Proof.Machine.execCksCmd s
  | .cksCrc => Sys2Proof.Machine.execCksCrc s
  | .encCmd => Sys2Proof.Machine.execEncCmd s
  | .encRaw => Sys2Proof.Machine.execEncRaw s
  | .encChunk => Sys2Proof.Machine.execEncChunk s
  | .sigTx arg => Sys2Proof.Machine.execSigTx arg s
  | .rxFrame => Sys2Proof.Machine.execRxFrame s
  | .verCmd => Sys2Proof.Machine.execVerCmd s
  | .verCrc => Sys2Proof.Machine.execVerCrc s
  | .wireM text => Sys2Proof.Machine.execWireM text s
  | .wireL name value => Sys2Proof.Machine.execWireL name value s
  | .wireO kind unknown1 timestamp unknown2 name => Sys2Proof.Machine.execWireO kind unknown1 timestamp unknown2 name s
  | .wireW off data => Sys2Proof.Machine.execWireW off data s
  | .wireC => Sys2Proof.Machine.execWireC s
  | .wireS => Sys2Proof.Machine.execWireS s
  | .wireSigNak => Sys2Proof.Machine.execWireSigNak s
  | .wireSigAck => Sys2Proof.Machine.execWireSigAck s

end Sys2Proof.Machine
end

