-- ==== Sys2Proof/Machine/HostPort.lean ====
section
/-! DEFINITION. The HOST's accesses (10_state.md R22 to R33, R41; 20_memory.md R56, R57; 70_reset_and_hazards.md R251).
Registers are whole 32-bit values selected by number; buffers are accessed a byte at a time (R52, R54). -/

namespace Sys2Proof.Machine

/-! ## Writes -/

/-- A write that is dropped, with HERR set, while BUSY = 1 (R251). -/
def State.unlessBusy (s : State) (written : State) : State := if s.status.busy then s.dropWrite else written

/-- `wr REG, v` (R22): OPWORD is accepted (R210); STATUS clears HERR when bit 6 is 1, BUSY or not (R24, R251); OFFSET
and IN_LEN are written unless BUSY; writes to read-only and reserved registers are ignored. -/
def State.writeReg (s : State) (reg : Nat) (v : Word) : State :=
  if reg = 0 then s.accept v
  else if reg = 1 then (if v.getLsbD 6 then { s with status := s.status.herrCleared } else s)
  else if reg = 4 then s.unlessBusy { s with offset := v }
  else if reg = 5 then s.unlessBusy { s with inLen := v.setWidth 16 }
  else s

/-- `wrb IN[i], b` (R32, R57): ignored at i >= IN_MAX (log 10), dropped with HERR set while BUSY. -/
def State.writeIn (s : State) (i : Nat) (b : Byte) : State :=
  if s.cfg.inMax ≤ i then s else s.unlessBusy { s with inBuf := Memory.write s.inBuf i b }

/-! ## Reads -/

/-- A result register of 16 bits as the host reads it: while BUSY its value is unspecified (R41), and bits 31:16 read
0 always (R22; log 7). -/
def State.resultView (s : State) (v : Half) : Word :=
  if s.status.busy then (s.draw.setWidth 16).setWidth 32 else v.setWidth 32

/-- SIGNAL as the host reads it: 8 bits (R31, R41; log 7). -/
def State.signalView (s : State) : Word :=
  if s.status.busy then (s.draw.setWidth 8).setWidth 32 else s.signal.setWidth 32

/-- The value `rd REG` returns (R22); reserved registers read 0. -/
def State.regValue (s : State) (reg : Nat) : Word :=
  if reg = 0 then s.opword
  else if reg = 1 then s.status.word
  else if reg = 2 then s.resultView s.result
  else if reg = 3 then s.resultView s.recv
  else if reg = 4 then s.offset
  else if reg = 5 then s.inLen.setWidth 32
  else if reg = 6 then s.resultView s.rxLen
  else if reg = 7 then s.resultView s.plen
  else if reg = 8 then s.signalView
  else 0

/-- The byte `rdb IN[i]` returns (R32, R41, R57): 0 at i >= IN_MAX, a free value where nothing was written (93 U4). -/
def State.inValue (s : State) (i : Nat) : Byte :=
  if s.cfg.inMax ≤ i then 0 else (Memory.read s.inBuf i).getD (s.draw.setWidth 8)

/-- The byte `rdb RXB[i]` returns (R33, R41, R57): 0 at i >= RX_MAX (log 11), unspecified while BUSY and at
i >= RX_LEN. -/
def State.rxValue (s : State) (i : Nat) : Byte :=
  if s.cfg.rxMax ≤ i then 0
  else if s.status.busy ∨ s.rxLen.toNat ≤ i then s.draw.setWidth 8
  else (Memory.read s.rxBuf i).getD (s.draw.setWidth 8)

/-- `rd REG`. -/
def State.readReg (s : State) (reg : Nat) : State := s.returnRead (s.regValue reg)

/-- `rdb IN[i]`. -/
def State.readInByte (s : State) (i : Nat) : State := s.returnRead ((s.inValue i).setWidth 32)

/-- `rdb RXB[i]`. -/
def State.readRxByte (s : State) (i : Nat) : State := s.returnRead ((s.rxValue i).setWidth 32)

/-- One `rd STATUS` of `poll` (R86): the line stays until bit 1, DONE, reads 1. -/
def State.poll (s : State) : State :=
  if s.status.done then s.readReg 1 else (s.readReg 1).pushLines [.poll]

/-! ## Reset input -/

/-- Reset (70_reset_and_hazards.md R240, R241), in one step: every register, the hidden state and both buffers; not
the CHANNEL (log 16), and not the environment's other fields. -/
def State.assertReset (s : State) : State :=
  { State.reset with
    cfg := s.cfg, rxq := s.rxq, txs := s.txs, hostProg := s.hostProg, agenda := s.agenda, readData := s.readData,
    draws := s.draws }

/-- The CHANNEL appends a byte to RXQ (R39). -/
def State.arrive (s : State) (b : Byte) : State := { s with rxq := s.rxq ++ [b] }

end Sys2Proof.Machine
end

