-- ==== Sys2Proof/Machine/Agents.lean ====
section
/-! DEFINITION. The turns of the agents (00_scope.md R7), and how a table row's word is placed where its agent fetches
it. -/

namespace Sys2Proof.Machine

/-- The ENGINE's turn: one step of the operation in flight; none while BUSY = 0 (60_exceptions.md R225). -/
def engineTurn (s : State) : Host.Outcome State Fault Refusal :=
  match s.inFlight with
  | none => .next s
  | some i => exec i s

/-- An ENGINE step is enabled: an operation is in flight, and RX_FRAME has a byte to take (R171). -/
def State.engineReady (s : State) : Bool :=
  match s.inFlight with
  | none => false
  | some .rxFrame => !s.rxq.isEmpty
  | some _ => true

/-- Run one line of the HOST's program, already taken off it (30_encoding.md R86, R87). A wire unit that is no row's
is sealed all the same, as `send.cmd` does (R88; log 20). -/
def runLine (line : HostLine) (s : State) : Host.Outcome State Fault Refusal :=
  match line with
  | .wr reg v => .next (s.writeReg reg v)
  | .rd reg => .next (s.readReg reg)
  | .wrb i b => .next (s.writeIn i b)
  | .rdbIn i => .next (s.readInByte i)
  | .rdbRx i => .next (s.readRxByte i)
  | .poll => .next s.poll
  | .load bytes => .next (s.pushLines (loadLines bytes))
  | .sendCmd p => .next (s.pushLines (sendCmdLines p))
  | .sendRaw bytes => .next (s.pushLines (sendRawLines bytes))
  | .recvf => .next (s.pushLines recvfLines)
  | .wire unit =>
    match decodeWire unit with
    | .ok i => exec i s
    | .error _ => .next (s.pushLines (sendCmdLines unit))

/-- The HOST's turn: its next line, if it has one. -/
def hostTurn (s : State) : Host.Outcome State Fault Refusal :=
  match s.hostProg with
  | [] => .next s
  | line :: rest => runLine line (s.setProg rest)

/-- The turn of one agent. -/
def takeTurn (t : Turn) (s : State) : Host.Outcome State Fault Refusal :=
  match t with
  | .engine => engineTurn s
  | .host => hostTurn s
  | .channel b => .next (s.arrive b)
  | .timer => .next s.timeout
  | .reset => .next s.assertReset

/-- The turn the agenda names; when it names none, the ENGINE's if a step of it is enabled, else the HOST's (log 3). -/
def nextTurn (s : State) : Host.Outcome State Fault Refusal :=
  match s.agenda with
  | t :: rest => takeTurn t (s.setAgenda rest)
  | [] => if s.engineReady then engineTurn s else hostTurn s

/-- Place a code where its agent fetches it next: an operation word is accepted as R210 accepts it, and the ENGINE
moves next; a wire unit is the HOST's next line, and the HOST moves next (log 18). -/
def State.place (s : State) (c : Code) : State :=
  match c with
  | .word w => (s.startOp w).setAgenda (.engine :: s.agenda)
  | .wire bytes => (s.pushLines [.wire bytes]).setAgenda (.host :: s.agenda)

end Sys2Proof.Machine
end

