-- ==== Sys2Proof/Machine/Step.lean ====
section
/-! DEFINITION. One step of the machine. -/

namespace Sys2Proof.Machine

/-- One step: one turn of one agent (00_scope.md R7). -/
def step (s : State) : Host.Outcome State Fault Refusal := nextTurn s

/-- `s` with a table row's word placed so that the very next step runs that instruction (log 18). Bits that stand for
no code change nothing. -/
def State.withFetchWord (s : State) (nbits w : Nat) : State :=
  match codeOfTable nbits w with
  | none => s
  | some c => s.place c

end Sys2Proof.Machine
end

