-- ==== Sys2Proof/Safety.lean ====
section
/-! DEFINITION. The terms claims use: running an operation, the invariant of the machine, what a host has to prepare
(70_reset_and_hazards.md R243), and which wire commands follow the source's protocol (30_encoding.md R75 to R77). -/

namespace Sys2Proof.Machine

/-! ## Running an operation -/

/-- `k` ENGINE steps of instruction `i`, one after the other, stopping at the first fault or refusal. -/
def execTimes : Nat → Instr → State → Host.Outcome State Fault Refusal
  | 0, _, s => .next s
  | k + 1, i, s =>
    match exec i s with
    | .next t => execTimes k i t
    | .fault f => .fault f
    | .refused r => .refused r

/-- `k` turns of the ENGINE and of nobody else. Once the operation has ended, further turns change nothing. -/
def engineTimes : Nat → State → Host.Outcome State Fault Refusal
  | 0, s => .next s
  | k + 1, s =>
    match engineTurn s with
    | .next t => engineTimes k t
    | .fault f => .fault f
    | .refused r => .refused r

/-! ## The wire formats -/

/-- A command frame for payload `p` (30_encoding.md R71). -/
def cmdFrame (p : List Byte) : List Byte := 0x02 :: (p ++ [0x03] ++ be16 (cmdChecksum (p ++ [0x03])))

/-- A chunk-write frame for chunk payload `q` (30_encoding.md R72). -/
def chunkFrame (q : List Byte) : List Byte := 0x02 :: (q ++ be16 (crc16 q))

/-- A buffer that lists these bytes at indices 0, 1, 2, ... -/
def Memory.ofBytes (bytes : List Byte) : Memory := (List.range bytes.length).zip bytes

/-! ## What a host prepares -/

/-- R243 (a): the IN bytes an operation reads are `bytes`. -/
abbrev State.loaded (s : State) (bytes : List Byte) : Prop := s.spanIn 0 s.len = .ok bytes

/-- Every IN byte below IN_LEN has been written. -/
def State.prepared (s : State) : Prop := ∃ bytes, s.loaded bytes

/-- No operation is in flight, and nobody but ENGINE and HOST will move. -/
abbrev State.idle (s : State) : Prop := s.status.busy = false ∧ s.agenda = []

/-- An operation has just been put in flight: its first line has not run. -/
abbrev State.fresh (s : State) : Prop := s.phase = .start ∧ s.idx = 0

/-- RX_FRAME has just been put in flight (42_decode.md R170). -/
abbrev State.rxFresh (s : State) : Prop := s.rxInf = false ∧ s.rxLen = 0 ∧ s.rxBuf = []

/-! ## The invariant -/

/-- STATUS (10_state.md R24; 93 U8): BUSY and DONE never together, KIND never 3, ERR never 8 to 15, CK_OK only with
CK_VALID, CK_MISMATCH only with CK_VALID and without CK_OK, and the four fields of R40 cleared while BUSY. -/
abbrev StatusOk (st : Status) : Prop :=
  ¬(st.busy = true ∧ st.done = true) ∧ st.kind ≠ 3 ∧ st.err.toNat < 8 ∧ (st.ckOk = true → st.ckValid = true) ∧
  (st.err = ErrCode.ckMismatch.bits → st.ckValid = true ∧ st.ckOk = false) ∧
  (st.busy = true → st.kind = 0 ∧ st.ckValid = false ∧ st.ckOk = false ∧ st.err = 0)

/-- OPCUR names the operation of OPWORD while BUSY = 1, and OPCUR, IDX and the phase are at rest while BUSY = 0
(10_state.md R38). -/
abbrev FlightOk (s : State) : Prop :=
  if s.status.busy then s.opcur = some (opField s.opword) ∧ (decodeWord s.opword).isOk = true
  else s.opcur = none ∧ s.idx = 0 ∧ s.phase = .start

/-- The phases an operation's rule has. -/
def phaseFits : Instr → Phase → Bool
  | .cksCmd, p => p = .start ∨ p = .body
  | .cksCrc, p => p = .start ∨ p = .body
  | .encCmd, p => p = .start ∨ p = .body ∨ p = .sealHi ∨ p = .sealLo
  | .encRaw, p => p = .start ∨ p = .body
  | .encChunk, .header j => j ≤ 6
  | .encChunk, p => p = .start ∨ p = .body ∨ p = .sealLo
  | .sigTx _, p => p = .start
  | .rxFrame, p => p = .start
  | .verCmd, p => p = .start
  | .verCrc, p => p = .start
  | .wireM _, _ => false
  | .wireL _ _, _ => false
  | .wireO _ _ _ _ _, _ => false
  | .wireW _ _, _ => false
  | .wireC, _ => false
  | .wireS, _ => false
  | .wireSigNak, _ => false
  | .wireSigAck, _ => false

/-- How far operation `i` has come: its phase is one of its rule's, IDX is at most IN_LEN, it is 0 before the loop over
IN and IN_LEN after it, the length check has passed once the first line has run, and ENC_RAW and ENC_CHUNK have a byte
to send in their loops. -/
abbrev ProgressOf (i : Instr) (s : State) : Prop :=
  phaseFits i s.phase = true ∧ s.idx.toNat ≤ s.len ∧
  (s.phase ≠ .start → s.len ≤ s.cfg.inMax) ∧
  ((s.phase ≠ .body ∧ s.phase ≠ .sealHi ∧ s.phase ≠ .sealLo) → s.idx = 0) ∧
  ((s.phase = .sealHi ∨ s.phase = .sealLo) → s.idx.toNat = s.len) ∧
  (i = .encRaw → s.phase = .body → s.idx.toNat < s.len) ∧
  (i = .encChunk → s.phase ≠ .start → 1 ≤ s.len ∧ s.len ≤ Config.chunkMax)

/-- The operation in flight, if there is one, has come that far. -/
abbrev ProgressOk (s : State) : Prop :=
  match s.inFlight with
  | none => True
  | some i => ProgressOf i s

/-- IN is canonical and lists no index at or above IN_MAX (10_state.md R32, R57). -/
abbrev InBufOk (s : State) : Prop := Memory.wf s.inBuf ∧ ∀ c ∈ s.inBuf, c.1 < s.cfg.inMax

/-- RX_BUF lists exactly the indices below RX_LEN, which is at most RX_MAX, byte 0 is 0x02 (10_state.md R33), and a
reader in flight is inside a frame exactly when it has stored a byte, with room for another (R37, R175). -/
abbrev ReaderOk (s : State) : Prop :=
  s.rxBuf.map Prod.fst = List.range s.rxLen.toNat ∧ s.rxLen.toNat ≤ s.cfg.rxMax ∧
  (0 < s.rxLen.toNat → Memory.read s.rxBuf 0 = some 0x02) ∧
  (s.inFlight = some .rxFrame →
    (s.rxInf = true → 1 ≤ s.rxLen.toNat ∧ s.rxLen.toNat < s.cfg.rxMax) ∧ (s.rxInf = false → s.rxLen = 0))

/-- SIGNAL is its reset value or a handshake byte (10_state.md R31). -/
abbrev SignalOk (s : State) : Prop := s.signal = 0 ∨ s.signal = 0x05 ∨ s.signal = 0x06

/-- The invariant of the machine: every step keeps it. -/
structure State.Inv (s : State) : Prop where
  cfg : s.cfg.wf
  status : StatusOk s.status
  flight : FlightOk s
  progress : ProgressOk s
  inBuf : InBufOk s
  reader : ReaderOk s
  signal : SignalOk s

/-! ## Host duties -/

/-- The line-control characters an `M` text begins with (R75). -/
def lineControls : List Byte := [0x2D, 0x0D, 0x0C, 0x08]

end Sys2Proof.Machine

namespace Sys2Proof

open Machine

/-- A wire command follows the source's protocol: the duties R75 and R77 leave to the host (the block validates
none), and R253's duty to a receiver that uses the §4.2 reader: no 0x03 in a command payload. -/
def Instr.conformant (i : Instr) : Prop :=
  i.wellFormed = true ∧
  match i with
  | .cksCmd => True
  | .cksCrc => True
  | .encCmd => True
  | .encRaw => True
  | .encChunk => True
  | .sigTx _ => True
  | .rxFrame => True
  | .verCmd => True
  | .verCrc => True
  | .wireM text => (∃ c ∈ lineControls, text.head? = some c) ∧ ¬ (0x03 : Byte) ∈ text
  | .wireL name value => ¬ (0x03 : Byte) ∈ name ++ encodeValue value
  | .wireO _ unknown1 _ unknown2 name =>
    unknown1 = Config.oUnknown1.toList ∧ unknown2 = Config.oUnknown2.toList ∧
      ¬ (0x03 : Byte) ∈ unknown1 ++ unknown2 ++ name
  | .wireW _ _ => True
  | .wireC => True
  | .wireS => True
  | .wireSigNak => True
  | .wireSigAck => True

end Sys2Proof
end

