-- ==== Sys2Proof/Certificates/Slice0/Obligations.lean ====
section
/-! DEFINITION. The statements about the model, from the numbered rules of spec/. Each docstring names the rule. -/

open Sys2Proof Sys2Proof.Machine

/-! ## Encoding -/

/-- 30_encoding.md R82: a word selects the operation of a row exactly when `(w & mask) == match`. -/
def Obligations.OperationSelectedByMatchAndMask : Prop :=
  ∀ w : Word,
    (decodeWord w = .ok .cksCmd ↔ w &&& 0xFFFFFFFF = 0x00000001) ∧
    (decodeWord w = .ok .cksCrc ↔ w &&& 0xFFFFFFFF = 0x00000002) ∧
    (decodeWord w = .ok .encCmd ↔ w &&& 0xFFFFFFFF = 0x00000003) ∧
    (decodeWord w = .ok .encRaw ↔ w &&& 0xFFFFFFFF = 0x00000004) ∧
    (decodeWord w = .ok .encChunk ↔ w &&& 0xFFFFFFFF = 0x00000005) ∧
    ((∃ a, decodeWord w = .ok (.sigTx a)) ↔ w &&& 0xFFFF00FF = 0x00000006) ∧
    (decodeWord w = .ok .rxFrame ↔ w &&& 0xFFFFFFFF = 0x00000007) ∧
    (decodeWord w = .ok .verCmd ↔ w &&& 0xFFFFFFFF = 0x00000008) ∧
    (decodeWord w = .ok .verCrc ↔ w &&& 0xFFFFFFFF = 0x00000009)

/-- 30_encoding.md R83: which words are illegal, and that one accepted while BUSY = 0 ends at once with ERR = ILLEGAL
and DONE = 1, changing nothing but OPWORD and STATUS. -/
def Obligations.IllegalWordEndsAtOnce : Prop :=
  (∀ w : Word, (∃ e, decodeWord w = .error e) ↔
    (opField w = 0 ∨ 0xA ≤ (opField w).toNat) ∨ (rsv0Field w ≠ 0 ∨ rsv1Field w ≠ 0) ∨
      (opField w ≠ 6 ∧ arg8Field w ≠ 0)) ∧
  (∃ e, decodeWord 0x00000000 = .error e) ∧
  ∀ (s : State) (w : Word), s.status.busy = false → FlightOk s → (∃ e, decodeWord w = .error e) →
    s.writeReg 0 w =
      { s with
        opword := w,
        status := { s.status with done := true, kind := 0, ckValid := false, ckOk := false, err := 1 } }

/-- 30_encoding.md R85, 00_scope.md R11: no bit of an encoding is dropped. Decoding the encoding of a well-formed
instruction gives it back, with every operand. -/
def Obligations.DecodeOfEncodeIsIdentity : Prop :=
  ∀ i : Instr, i.wellFormed = true → decode (encode i) = .ok i

/-- Each code has one meaning: what decodes to an instruction is that instruction's encoding, bit for bit, so no
reserved word and no malformed payload falls through to a neighbour. -/
def Obligations.EncodeOfDecodeIsIdentity : Prop :=
  ∀ (c : Code) (i : Instr), decode c = .ok i → encode i = c

/-- Words and payloads written out from the encodings of 30_encoding.md R73 to R82 decode to what they stand for. -/
def Obligations.WrittenOutWordsDecode : Prop :=
  decodeTableWord 32 0x00000001 = some .cksCmd ∧
  decodeTableWord 32 0x00000003 = some .encCmd ∧
  decodeTableWord 32 0x00000506 = some (.sigTx 0x05) ∧
  decodeTableWord 32 0x00000007 = some .rxFrame ∧
  decodeTableWord 32 0x00000009 = some .verCrc ∧
  decodeTableWord 32 0x00000103 = none ∧
  decodeTableWord 8 0x4D = some (.wireM []) ∧
  decodeTableWord 8 0x05 = some .wireSigNak ∧
  decodeWire [0x4C, 0x6E, 0x61, 0x1C, 0x76] = .ok (.wireL [0x6E, 0x61] (some [0x76])) ∧
  decodeWire [0x57, 0x00, 0x02, 0x01, 0x02, 0x03, 0x04, 0x41, 0x42] = .ok (.wireW 0x01020304 [0x41, 0x42])

/-- 30_encoding.md R77 and R78: where the fields of `O` and `W` payloads lie. -/
def Obligations.PayloadFieldsLieAtTheirOffsets : Prop :=
  (∀ kind u1 ts u2 name, (Instr.wireO kind u1 ts u2 name).wellFormed = true →
    ∃ p, encode (.wireO kind u1 ts u2 name) = .wire p ∧ p.length = 32 + name.length ∧
      p[0]? = some 0x4F ∧ p[1]? = some kind ∧ (kind = 0x43 ∨ kind = 0x44) ∧
      (p.drop 2).take 8 = u1 ∧ (p.drop 10).take 14 = ts ∧ (p.drop 24).take 8 = u2 ∧ p.drop 32 = name) ∧
  (∀ (off : Word) (d : List Byte), (Instr.wireW off d).wellFormed = true →
    ∃ q, encode (.wireW off d) = .wire q ∧ q.length = d.length + 7 ∧ q[0]? = some 0x57 ∧
      (q.drop 1).take 2 = be16 (BitVec.ofNat 16 d.length) ∧ (BitVec.ofNat 16 d.length).toNat = d.length ∧
      (q.drop 3).take 4 = be32 off ∧ q.drop 7 = d)

/-! ## The step -/

/-- 00_scope.md R7, 10_state.md R38: an ENGINE turn runs the decoded operation in flight, whether the agenda names the
ENGINE or is empty. -/
def Obligations.EngineTurnRunsOperationInFlight : Prop :=
  ∀ (s : State) (i : Instr), s.status.busy = true → s.opcur = some (opField s.opword) → decodeWord s.opword = .ok i →
    (∀ rest, s.agenda = .engine :: rest → step s = exec i { s with agenda := rest }) ∧
    (s.agenda = [] → (i = .rxFrame → s.rxq ≠ []) → step s = exec i s)

/-- 30_encoding.md R86, R87, R88: a HOST turn takes the next line off the program and runs it. A wire unit is exec of the
instruction it decodes to, and a unit that is no row's is sealed as `send.cmd` seals it (log 19, log 20); `load`,
`send.cmd`, `send.raw` and `recvf` become their exact expansions (log 4); `poll` reads STATUS and stays until DONE reads
1; `wr` and `wrb` are one write. -/
def Obligations.HostTurnRunsDecodedWireUnit : Prop :=
  (∀ (s : State) (unit : List Byte) (lines : List HostLine) (rest : List Turn),
    s.hostProg = .wire unit :: lines → s.agenda = .host :: rest →
    (∀ i, decodeWire unit = .ok i → step s = exec i { s with hostProg := lines, agenda := rest }) ∧
    (∀ e, decodeWire unit = .error e →
      step s = .next { s with hostProg := sendCmdLines unit ++ lines, agenda := rest })) ∧
  (∀ (s : State) (bytes : List Byte) (lines load : List HostLine) (rest : List Turn), s.agenda = .host :: rest →
    load = bytes.zipIdx.map (fun c => HostLine.wrb c.2 c.1) ++ [.wr 5 (BitVec.ofNat 32 bytes.length)] →
    (s.hostProg = .load bytes :: lines → step s = .next { s with hostProg := load ++ lines, agenda := rest }) ∧
    (s.hostProg = .sendCmd bytes :: lines →
      step s = .next { s with hostProg := load ++ [.wr 0 0x00000003, .poll] ++ lines, agenda := rest }) ∧
    (s.hostProg = .sendRaw bytes :: lines →
      step s = .next { s with hostProg := load ++ [.wr 0 0x00000004, .poll] ++ lines, agenda := rest })) ∧
  (∀ (s : State) (lines : List HostLine) (rest : List Turn), s.agenda = .host :: rest →
    (s.hostProg = .recvf :: lines →
      step s = .next { s with hostProg := [.wr 0 0x00000007, .poll] ++ lines, agenda := rest }) ∧
    (s.hostProg = .poll :: lines → ∃ t, step s = .next t ∧
      t = { s with
        hostProg := if s.status.done then lines else .poll :: lines, agenda := rest, readData := s.regValue 1,
        draws := t.draws }) ∧
    (∀ reg v, s.hostProg = .wr reg v :: lines →
      step s = .next ({ s with hostProg := lines, agenda := rest }.writeReg reg v)) ∧
    (∀ i b, s.hostProg = .wrb i b :: lines →
      step s = .next ({ s with hostProg := lines, agenda := rest }.writeIn i b)))

/-- The model's choice (log 18): a table row's word placed by `withFetchWord` is what the very next step runs, on a
state that differs from `s` at most by R210's acceptance of the word. -/
def Obligations.PlacedWordRunsNext : Prop :=
  ∀ (s : State) (nbits w : Nat) (i : Instr), decodeTableWord nbits w = some i →
    ∃ s', (s' = s ∨ s' = s.startOp (BitVec.ofNat 32 w)) ∧ step (s.withFetchWord nbits w) = exec i s'

/-- 10_state.md R39: the CHANNEL may append a byte to RXQ at any step, and changes nothing else. -/
def Obligations.ChannelAppendsAtAnyStep : Prop :=
  ∀ (s : State) (b : Byte) (rest : List Turn), s.agenda = .channel b :: rest →
    step s = .next { s with agenda := rest, rxq := s.rxq ++ [b] }

/-- 60_exceptions.md R215: `rx_timeout` ends RX_FRAME when it is in flight, with ERR = RX_TIMEOUT and the partial frame
kept, and has no effect at any other time. -/
def Obligations.TimeoutEndsTheReaderOnly : Prop :=
  ∀ (s : State) (rest : List Turn), s.agenda = .timer :: rest →
    (s.inFlight = some .rxFrame →
      step s = .next
        { s with
          agenda := rest, status := { s.status with busy := false, done := true, err := 5 },
          opcur := none, idx := 0, phase := .start }) ∧
    (s.inFlight ≠ some .rxFrame → step s = .next { s with agenda := rest })

/-- 70_reset_and_hazards.md R240, R241: reset, from any state and in one step. The CHANNEL's streams, the OPEN
parameters and the environment's fields stay. -/
def Obligations.ResetInputClearsTheBlock : Prop :=
  ∀ (s : State) (rest : List Turn), s.agenda = .reset :: rest →
    step s = .next
      { cfg := s.cfg, opword := 0,
        status := { busy := false, done := false, kind := 0, ckValid := false, ckOk := false, herr := false, err := 0 },
        result := 0, recv := 0, offset := 0, inLen := 0, rxLen := 0, plen := 0, signal := 0, inBuf := [], rxBuf := [],
        accCmd := 0, accCrc := 0, rxInf := false, opcur := none, idx := 0, phase := .start, rxq := s.rxq, txs := s.txs,
        hostProg := s.hostProg, agenda := rest, readData := s.readData, draws := s.draws }

/-- 60_exceptions.md R225: with BUSY = 0 the block takes no ENGINE step and its state is kept indefinitely. -/
def Obligations.IdleBlockKeepsItsState : Prop :=
  ∀ (s : State), s.status.busy = false → ∀ k, engineTimes k s = .next s

/-- 70_reset_and_hazards.md R255: with no byte in RXQ and neither a byte, a timeout nor a reset to come, RX_FRAME stays
BUSY for ever, whatever the HOST does. -/
def Obligations.ReaderWithoutBytesStaysBusy : Prop :=
  ∀ (s : State), s.inFlight = some .rxFrame → s.rxq = [] → (∀ t ∈ s.agenda, t = .engine ∨ t = .host) →
    ∀ k, ∃ t, Host.Core.run Sys2Proof.core k s = .next t ∧ t.status.busy = true ∧ t.inFlight = some .rxFrame

/-- 60_exceptions.md R214: a byte and the timeout both enabled, and either may be taken. Timeout first: the operation has
ended and the byte stays in RXQ. Byte first, what the byte does (R171) and then: the timeout has no effect where the byte
ended the operation (a signal, a complete frame, an overflow), and ends it where the byte ended nothing. OPCUR, IDX and
the phase of an ended operation are log 14's. -/
def Obligations.ByteAndTimeoutInEitherOrder : Prop :=
  ∀ (s : State) (b : Byte) (bytes : List Byte) (rest : List Turn), s.inFlight = some .rxFrame → s.rxq = b :: bytes →
    (s.agenda = .timer :: .engine :: rest →
      Host.Core.run Sys2Proof.core 2 s = .next
        { s with
          agenda := rest, status := { s.status with busy := false, done := true, err := 5 }, opcur := none, idx := 0,
          phase := .start }) ∧
    (s.agenda = .engine :: .timer :: rest →
      ∃ u, exec .rxFrame { s with agenda := .timer :: rest } = .next u ∧ u.rxq = bytes ∧
        (u.status.busy = false → Host.Core.run Sys2Proof.core 2 s = .next { u with agenda := rest }) ∧
        (u.status.busy = true → Host.Core.run Sys2Proof.core 2 s = .next
          { u with
            agenda := rest, status := { u.status with busy := false, done := true, err := 5 }, opcur := none, idx := 0,
            phase := .start }) ∧
        (s.rxInf = false → b = 0x05 ∨ b = 0x06 →
          u.status.busy = false ∧ u.status.done = true ∧ u.status.kind = 1 ∧ u.signal = b ∧
            u.status.err = s.status.err) ∧
        (s.rxInf = false → b ≠ 0x05 → b ≠ 0x06 → u.status.busy = true) ∧
        (s.rxInf = true → s.cfg.wf → s.rxLen.toNat < s.cfg.rxMax →
          (3 ≤ s.rxLen.toNat ∧ s.rxByte (s.rxLen.toNat - 2) = 0x03 →
            u.status.busy = false ∧ u.status.done = true ∧ u.status.kind = 2 ∧ u.status.ckValid = true ∧
              u.status.err = if u.status.ckOk then s.status.err else 7) ∧
          (¬(3 ≤ s.rxLen.toNat ∧ s.rxByte (s.rxLen.toNat - 2) = 0x03) →
            (s.rxLen.toNat + 1 = s.cfg.rxMax → u.status.busy = false ∧ u.status.done = true ∧ u.status.err = 4) ∧
            (s.rxLen.toNat + 1 < s.cfg.rxMax → u.status.busy = true))))

/-! ## Accepting an operation word -/

/-- 60_exceptions.md R210 (with 42_decode.md R170 for RX_FRAME's start): a host write to OPWORD. -/
def Obligations.AcceptanceOfAnOperationWord : Prop :=
  ∀ (s : State) (w : Word),
    (s.status.busy = true → s.writeReg 0 w = { s with status := { s.status with herr := true } }) ∧
    (s.status.busy = false →
      (∀ e, FlightOk s → decodeWord w = .error e →
        s.writeReg 0 w =
          { s with
            opword := w,
            status :=
              { busy := false, done := true, kind := 0, ckValid := false, ckOk := false, herr := s.status.herr, err := 1 } }) ∧
      (∀ i, decodeWord w = .ok i → i ≠ .rxFrame →
        s.writeReg 0 w =
          { s with
            opword := w, opcur := some (opField w), idx := 0, phase := .start,
            status :=
              { busy := true, done := false, kind := 0, ckValid := false, ckOk := false, herr := s.status.herr, err := 0 } }) ∧
      (decodeWord w = .ok .rxFrame →
        s.writeReg 0 w =
          { s with
            opword := w, opcur := some (opField w), idx := 0, phase := .start, rxInf := false, rxLen := 0, rxBuf := [],
            status :=
              { busy := true, done := false, kind := 0, ckValid := false, ckOk := false, herr := s.status.herr, err := 0 } }))

/-- 42_decode.md R170: an accepted RX_FRAME starts fresh, and nothing carries over from an earlier one: two blocks that
differ only in what an earlier reader left are the same after the acceptance. -/
def Obligations.ReaderStartsFresh : Prop :=
  ∀ (s : State) (inf : Bool) (len : Half) (buf : Memory), s.status.busy = false →
    { s with rxInf := inf, rxLen := len, rxBuf := buf }.writeReg 0 0x00000007 = s.writeReg 0 0x00000007 ∧
    (s.writeReg 0 0x00000007).inFlight = some .rxFrame ∧ (s.writeReg 0 0x00000007).rxFresh

/-! ## Host accesses -/

/-- 70_reset_and_hazards.md R251: while BUSY, a write to OPWORD, OFFSET, IN_LEN or a byte of IN is dropped and sets
HERR; a write to STATUS is not; HERR stays until the host writes STATUS with bit 6 = 1, or reset. -/
def Obligations.BusyWritesAreDropped : Prop :=
  (∀ (s : State) (v : Word) (i : Nat) (b : Byte), s.status.busy = true →
    s.writeReg 0 v = { s with status := { s.status with herr := true } } ∧
    s.writeReg 4 v = { s with status := { s.status with herr := true } } ∧
    s.writeReg 5 v = { s with status := { s.status with herr := true } } ∧
    (i < s.cfg.inMax → s.writeIn i b = { s with status := { s.status with herr := true } }) ∧
    (∀ reg, reg = 2 ∨ reg = 3 ∨ 6 ≤ reg → s.writeReg reg v = s) ∧
    (v.getLsbD 6 = true → s.writeReg 1 v = { s with status := { s.status with herr := false } })) ∧
  (∀ s t : State, step s = .next t → s.status.herr = true → t.status.herr = false →
    s.agenda.head? = some .reset ∨
      ((s.agenda.head? = some .host ∨ s.agenda = []) ∧
        ∃ v : Word, s.hostProg.head? = some (.wr 1 v) ∧ v.getLsbD 6 = true))

/-- 10_state.md R22: the register map: what each register reads when no operation is in flight and at reset, what is
reserved, and what a write ignores. -/
def Obligations.RegisterMap : Prop :=
  (∀ s : State,
    s.regValue 0 = s.opword ∧ s.regValue 4 = s.offset ∧ s.regValue 5 = s.inLen.setWidth 32 ∧
    (s.status.busy = false →
      s.regValue 2 = s.result.setWidth 32 ∧ s.regValue 3 = s.recv.setWidth 32 ∧ s.regValue 6 = s.rxLen.setWidth 32 ∧
      s.regValue 7 = s.plen.setWidth 32 ∧ s.regValue 8 = s.signal.setWidth 32)) ∧
  (∀ (s : State) (reg : Nat), 9 ≤ reg → s.regValue reg = 0) ∧
  (∀ s : State, (s.regValue 1).toNat < 2 ^ 12 ∧ (s.regValue 2).toNat < 2 ^ 16 ∧ (s.regValue 3).toNat < 2 ^ 16 ∧
    (s.regValue 5).toNat < 2 ^ 16 ∧ (s.regValue 6).toNat < 2 ^ 16 ∧ (s.regValue 7).toNat < 2 ^ 16 ∧
    (s.regValue 8).toNat < 2 ^ 8) ∧
  (∀ (s : State) (reg : Nat) (v : Word), reg = 2 ∨ reg = 3 ∨ 6 ≤ reg → s.writeReg reg v = s) ∧
  (∀ (s : State) (v : Word), s.status.busy = false →
    s.writeReg 4 v = { s with offset := v } ∧ s.writeReg 5 v = { s with inLen := v.setWidth 16 }) ∧
  (∀ reg, State.reset.regValue reg = 0)

/-- 10_state.md R24: the places of the STATUS fields, and that a write to STATUS changes only HERR. -/
def Obligations.StatusFieldsLieAtTheirBits : Prop :=
  ∀ s : State,
    (s.regValue 1).getLsbD 0 = s.status.busy ∧ (s.regValue 1).getLsbD 1 = s.status.done ∧
    (s.regValue 1).extractLsb' 2 2 = s.status.kind ∧ (s.regValue 1).getLsbD 4 = s.status.ckValid ∧
    (s.regValue 1).getLsbD 5 = s.status.ckOk ∧ (s.regValue 1).getLsbD 6 = s.status.herr ∧
    (s.regValue 1).getLsbD 7 = false ∧ (s.regValue 1).extractLsb' 8 4 = s.status.err ∧
    (s.regValue 1).extractLsb' 12 20 = 0 ∧
    ∀ v : Word, s.writeReg 1 v =
      { s with status := { s.status with herr := s.status.herr && !v.getLsbD 6 } }

/-- 20_memory.md R56, 30_encoding.md R86: a host read answers the value its register, IN byte or RX_BUF byte reads as,
zero-extended, and changes no state of the block and none of the channel, only what the host has read (log 8) and the
model's own draw counter (log 6). -/
def Obligations.HostReadsHaveNoSideEffects : Prop :=
  ∀ (s : State) (line : HostLine) (v : Word) (lines : List HostLine) (rest : List Turn),
    ((∃ n, line = .rd n ∧ v = s.regValue n) ∨ (∃ n, line = .rdbIn n ∧ v = (s.inValue n).setWidth 32) ∨
      (∃ n, line = .rdbRx n ∧ v = (s.rxValue n).setWidth 32)) →
    s.hostProg = line :: lines → s.agenda = .host :: rest →
    ∃ t, step s = .next t ∧
      t = { s with hostProg := lines, agenda := rest, readData := v, draws := t.draws }

/-- 10_state.md R41, R33, 93 U2 to U4: while BUSY, STATUS, OPWORD, OFFSET, IN_LEN and IN read their current values, and
what RESULT, RECV, RX_LEN, PLEN, SIGNAL and RX_BUF read says nothing of what they hold: it is the draw, the free value of
log 6, cut to the register's width (log 7). So is, at any time, a byte of RX_BUF from RX_LEN on and an IN byte nothing
has written. -/
def Obligations.BusyResultReadsAreFree : Prop :=
  (∀ s s' : State, s.status.busy = true → s'.status = s.status → s'.cfg = s.cfg → s'.draws = s.draws →
    (∀ reg, reg = 2 ∨ reg = 3 ∨ reg = 6 ∨ reg = 7 ∨ reg = 8 → s'.regValue reg = s.regValue reg) ∧
    (∀ i, s'.rxValue i = s.rxValue i)) ∧
  (∀ s : State, s.status.busy = true →
    (∀ reg, reg = 2 ∨ reg = 3 ∨ reg = 6 ∨ reg = 7 →
      s.regValue reg = ((Config.draw s.draws).setWidth 16 : Half).setWidth 32) ∧
    s.regValue 8 = ((Config.draw s.draws).setWidth 8 : Byte).setWidth 32 ∧
    (∀ i, i < s.cfg.rxMax → s.rxValue i = (Config.draw s.draws).setWidth 8) ∧
    s.regValue 0 = s.opword ∧ s.regValue 1 = s.status.word ∧ s.regValue 4 = s.offset ∧
    s.regValue 5 = s.inLen.setWidth 32 ∧
    (∀ i b, i < s.cfg.inMax → Memory.read s.inBuf i = some b → s.inValue i = b)) ∧
  (∀ (s : State) (i : Nat),
    (s.rxLen.toNat ≤ i → i < s.cfg.rxMax → s.rxValue i = (Config.draw s.draws).setWidth 8) ∧
    (i < s.cfg.inMax → Memory.read s.inBuf i = none → s.inValue i = (Config.draw s.draws).setWidth 8))

/-- 20_memory.md R57: buffer indices out of range. Host writes are ignored and host reads return 0. -/
def Obligations.OutOfRangeBufferIndices : Prop :=
  ∀ (s : State) (i : Nat) (b : Byte),
    (s.cfg.inMax ≤ i → s.writeIn i b = s ∧ s.inValue i = 0) ∧ (s.cfg.rxMax ≤ i → s.rxValue i = 0)

/-- 10_state.md R32: a byte the host writes to IN reads back, every other byte is unchanged, and nothing but IN is. -/
def Obligations.WrittenInByteReadsBack : Prop :=
  ∀ (s : State) (i : Nat) (b : Byte), s.status.busy = false → i < s.cfg.inMax →
    (∀ j, Memory.read (s.writeIn i b).inBuf j = if j = i then some b else Memory.read s.inBuf j) ∧
    (s.writeIn i b).inValue i = b ∧ { s.writeIn i b with inBuf := s.inBuf } = s ∧
    (Memory.wf s.inBuf → Memory.wf (s.writeIn i b).inBuf)

/-- 20_memory.md R60 (b): an operation in flight sees the values present at acceptance. No turn of the HOST, the CHANNEL
or the TIMER changes them while another operation than RX_FRAME is in flight, nor anything else of the block but HERR. -/
def Obligations.OperationInFlightIsUndisturbed : Prop :=
  ∀ (s t : State) (turn : Turn) (rest : List Turn) (i : Instr), s.inFlight = some i → i ≠ .rxFrame →
    s.agenda = turn :: rest → turn ≠ .engine → turn ≠ .reset → step s = .next t →
    t.inFlight = some i ∧
    ∃ herr rxq hostProg readData draws,
      t = { s with
        status := { s.status with herr := herr }, agenda := rest, rxq := rxq, hostProg := hostProg,
        readData := readData, draws := draws }

/-! ## Checksums -/

/-- 40_checksum.md R113: bit i of fold(x) is the exclusive or of bits i through 7 of x; and what the masks of R111
keep: bit 0 of the first shift, all of the second, the low byte of the accumulator. -/
def Obligations.FoldBitIsXorOfHigherBits : Prop :=
  (∀ (x : Byte) (i : Nat), i < 8 →
    (fold x).getLsbD i = ((List.range (8 - i)).map (fun j => x.getLsbD (i + j))).foldl Bool.xor false) ∧
  (∀ (x : Byte) (y : Word), y = (fold x).setWidth 32 →
    (y <<< 15) &&& 0xFFFF = (y &&& 1) <<< 15 ∧ (y <<< 2) &&& 0xFFFF = y <<< 2 ∧ (y <<< 2).toNat ≤ 0x3FC ∧
    y &&& 0xFFFF = y ∧ y.toNat ≤ 0xFF) ∧
  ∀ acc : Half, ((acc.setWidth 32 : Word) <<< 8) &&& 0xFFFF = ((acc.extractLsb' 0 8).setWidth 32 : Word) <<< 8

/-- 40_checksum.md R117: every entry of CRC_TABLE is recovered from the Command Checksum, and its closed form. -/
def Obligations.CrcTableIsRecovered : Prop :=
  crcTable.length = 256 ∧
  ∀ i : Byte, crcStep 0 i = crcEntry i ∧ crcEntry i = cmdStep 0 i ∧ crcEntry i = cmdChecksum [i] ∧
    crcEntry i = (((fold i).setWidth 16 &&& 1) <<< 15) ^^^ ((fold i).setWidth 16 <<< 2) ^^^ (fold i).setWidth 16

/-- 40_checksum.md R118: the two step functions are equal for every accumulator and byte, hence the two checksums for
every byte sequence. -/
def Obligations.TheTwoChecksumsAreOneFunction : Prop :=
  (∀ (acc : Half) (b : Byte), cmdStep acc b = crcStep acc b) ∧ ∀ s : List Byte, cmdChecksum s = crc16 s

/-- 40_checksum.md R119: zero residue, also of both kinds of frame; leading zeros; linearity; the check value. -/
def Obligations.ChecksumLaws : Prop :=
  (∀ s, cmdChecksum (s ++ be16 (cmdChecksum s)) = 0 ∧ crc16 (s ++ be16 (crc16 s)) = 0) ∧
  (∀ p, cmdChecksum ((cmdFrame p).drop 1) = 0 ∧ crc16 ((chunkFrame p).drop 1) = 0) ∧
  (cmdStep 0 0 = 0 ∧ ∀ s, cmdChecksum (0x00 :: s) = cmdChecksum s ∧ crc16 (0x00 :: s) = crc16 s) ∧
  (∀ a b : List Byte, a.length = b.length →
    cmdChecksum (List.zipWith (· ^^^ ·) a b) = cmdChecksum a ^^^ cmdChecksum b ∧
    crc16 (List.zipWith (· ^^^ ·) a b) = crc16 a ^^^ crc16 b) ∧
  (cmdChecksum [0x31, 0x32, 0x33, 0x34, 0x35, 0x36, 0x37, 0x38, 0x39] = 0xFEE8 ∧
    crc16 [0x31, 0x32, 0x33, 0x34, 0x35, 0x36, 0x37, 0x38, 0x39] = 0xFEE8)

/-! ## The checksum operations -/

/-- 40_checksum.md R121: CKS_CMD, whole: RESULT is the Command Checksum of IN[0:IN_LEN] and nothing else changes but
DONE and the hidden state; BAD_LEN leaves RESULT unchanged and reads no byte. -/
def Obligations.CksCmdComputesCommandChecksum : Prop :=
  ∀ s : State, s.fresh →
    (s.cfg.inMax < s.len → exec .cksCmd s = .next
      { s with
        status := { s.status with busy := false, done := true, err := 2 }, opcur := none, idx := 0, phase := .start }) ∧
    (s.len ≤ s.cfg.inMax → ∀ bytes, s.loaded bytes → execTimes (s.len + 2) .cksCmd s = .next
      { s with
        result := cmdChecksum bytes, accCmd := cmdChecksum bytes,
        status := { s.status with busy := false, done := true }, opcur := none, idx := 0, phase := .start })

/-- 40_checksum.md R122: CKS_CRC, whole. -/
def Obligations.CksCrcComputesCrc : Prop :=
  ∀ s : State, s.fresh →
    (s.cfg.inMax < s.len → exec .cksCrc s = .next
      { s with
        status := { s.status with busy := false, done := true, err := 2 }, opcur := none, idx := 0, phase := .start }) ∧
    (s.len ≤ s.cfg.inMax → ∀ bytes, s.loaded bytes → execTimes (s.len + 2) .cksCrc s = .next
      { s with
        result := crc16 bytes, accCrc := crc16 bytes,
        status := { s.status with busy := false, done := true }, opcur := none, idx := 0, phase := .start })

/-- 40_checksum.md R121, R122, 70_reset_and_hazards.md R256: each step of CKS_CMD and CKS_CRC: the first line, one
step per byte, the last lines (log 1). -/
def Obligations.ChecksumOperationsStepByStep : Prop :=
  ∀ s : State,
    (s.phase = .start → s.len ≤ s.cfg.inMax →
      exec .cksCmd s = .next { s with accCmd := 0, phase := .body } ∧
      exec .cksCrc s = .next { s with accCrc := 0, phase := .body }) ∧
    (∀ b, s.phase = .body → s.idx.toNat < s.len → s.readIn s.idx.toNat = some b →
      exec .cksCmd s = .next { s with accCmd := cmdStep s.accCmd b, idx := s.idx + 1 } ∧
      exec .cksCrc s = .next { s with accCrc := crcStep s.accCrc b, idx := s.idx + 1 }) ∧
    (s.phase = .body → s.len ≤ s.idx.toNat →
      exec .cksCmd s = .next
        { s with
          result := s.accCmd, status := { s.status with busy := false, done := true }, opcur := none, idx := 0,
          phase := .start } ∧
      exec .cksCrc s = .next
        { s with
          result := s.accCrc, status := { s.status with busy := false, done := true }, opcur := none, idx := 0,
          phase := .start })

/-- 10_state.md R32: an operation that reads an unwritten IN byte faults, at the first such byte it reads (log 9, log 13;
the order of a verification's reads and what a failed test makes needless: log 12; the steps: log 1). -/
def Obligations.UnwrittenInputFaults : Prop :=
  ∀ (s : State) (e : Nat), s.fresh → s.len ≤ s.cfg.inMax → s.spanIn 0 s.len = .error e →
    execTimes (s.len + 2) .cksCmd s = .fault (.unwrittenIn e) ∧
    execTimes (s.len + 2) .cksCrc s = .fault (.unwrittenIn e) ∧
    execTimes (s.len + 4) .encCmd s = .fault (.unwrittenIn e) ∧
    execTimes (s.len + 1) .encRaw s = .fault (.unwrittenIn e) ∧
    (s.len ≤ Config.chunkMax → exec .encChunk s = .fault (.unwrittenIn e)) ∧
    (4 ≤ s.len →
      (s.readIn 0 = none → exec .verCmd s = .fault (.unwrittenIn 0)) ∧
      (s.readIn 0 = some 0x02 → s.readIn (s.len - 3) = none → exec .verCmd s = .fault (.unwrittenIn (s.len - 3))) ∧
      (s.readIn 0 = some 0x02 → s.readIn (s.len - 3) = some 0x03 → exec .verCmd s = .fault (.unwrittenIn e))) ∧
    (3 ≤ s.len →
      (s.readIn 0 = none → exec .verCrc s = .fault (.unwrittenIn 0)) ∧
      (s.readIn 0 = some 0x02 → exec .verCrc s = .fault (.unwrittenIn e))) ∧
    (∀ i, (i = .verCmd ∧ (s.len < 4 ∨
          (∃ b, s.readIn 0 = some b ∧ b ≠ 0x02) ∨
          (s.readIn 0 = some 0x02 ∧ ∃ b, s.readIn (s.len - 3) = some b ∧ b ≠ 0x03))) ∨
        (i = .verCrc ∧ (s.len < 3 ∨ ∃ b, s.readIn 0 = some b ∧ b ≠ 0x02)) →
      exec i s = .next
        { s with
          status := { s.status with busy := false, done := true, err := 6 }, opcur := none, idx := 0, phase := .start })

/-! ## The encoders -/

/-- 41_encode.md R141: ENC_CMD, whole: the command frame of IN[0:IN_LEN] is emitted and RESULT is its seal. -/
def Obligations.EncCmdEmitsTheCommandFrame : Prop :=
  ∀ s : State, s.fresh →
    (s.cfg.inMax < s.len → exec .encCmd s = .next
      { s with
        status := { s.status with busy := false, done := true, err := 2 }, opcur := none, idx := 0, phase := .start }) ∧
    (s.len ≤ s.cfg.inMax → ∀ p, s.loaded p → execTimes (s.len + 4) .encCmd s = .next
      { s with
        txs := s.txs ++ [0x02] ++ p ++ [0x03] ++ be16 (cmdChecksum (p ++ [0x03])),
        result := cmdChecksum (p ++ [0x03]), accCmd := cmdChecksum (p ++ [0x03]),
        status := { s.status with busy := false, done := true }, opcur := none, idx := 0, phase := .start })

/-- 41_encode.md R142: ENC_RAW, whole: 0x02 and the bytes of IN, RESULT unchanged. -/
def Obligations.EncRawEmitsThePresealedBytes : Prop :=
  ∀ s : State, s.fresh →
    (s.cfg.inMax < s.len → exec .encRaw s = .next
      { s with
        status := { s.status with busy := false, done := true, err := 2 }, opcur := none, idx := 0, phase := .start }) ∧
    (s.len ≤ s.cfg.inMax → ∀ bytes, s.loaded bytes → execTimes (s.len + 1) .encRaw s = .next
      { s with
        txs := s.txs ++ [0x02] ++ bytes,
        status := { s.status with busy := false, done := true }, opcur := none, idx := 0, phase := .start })

/-- 41_encode.md R143: ENC_CHUNK, whole: the chunk-write frame of the data in IN at OFFSET; OFFSET is unchanged;
BAD_LEN for IN_LEN > IN_MAX, IN_LEN = 0 and IN_LEN > CHUNK_MAX. -/
def Obligations.EncChunkEmitsTheChunkFrame : Prop :=
  ∀ s : State, s.fresh →
    (s.cfg.inMax < s.len ∨ s.len = 0 ∨ 1000 < s.len → exec .encChunk s = .next
      { s with
        status := { s.status with busy := false, done := true, err := 2 }, opcur := none, idx := 0, phase := .start }) ∧
    (s.len ≤ s.cfg.inMax → 1 ≤ s.len → s.len ≤ 1000 → ∀ d, s.loaded d → ∀ q,
      q = [0x57] ++ be16 s.inLen ++ be32 s.offset ++ d →
      execTimes (s.len + 10) .encChunk s = .next
        { s with
          txs := s.txs ++ [0x02] ++ q ++ be16 (crc16 q), result := crc16 q, accCrc := crc16 q,
          status := { s.status with busy := false, done := true }, opcur := none, idx := 0, phase := .start })

/-- 41_encode.md R144: SIG_TX, whole. -/
def Obligations.SigTxEmitsOneSignalByte : Prop :=
  ∀ (s : State) (a : Byte),
    (a = 0x05 ∨ a = 0x06 → exec (.sigTx a) s = .next
      { s with
        txs := s.txs ++ [a], status := { s.status with busy := false, done := true }, opcur := none, idx := 0,
        phase := .start }) ∧
    (a ≠ 0x05 → a ≠ 0x06 → exec (.sigTx a) s = .next
      { s with
        status := { s.status with busy := false, done := true, err := 3 }, opcur := none, idx := 0, phase := .start })

/-- 41_encode.md R140: one step of an encoder emits exactly one byte, or it is a failed check, which comes before the
first byte and emits nothing; and no encoder reads RXQ or changes RX_BUF, RX_LEN, PLEN, SIGNAL, RECV or KIND. -/
def Obligations.EncodersEmitOneBytePerStep : Prop :=
  ∀ (s t : State) (i : Instr), (i = .encCmd ∨ i = .encRaw ∨ i = .encChunk ∨ ∃ a, i = .sigTx a) →
    phaseFits i s.phase = true → exec i s = .next t →
    ((∃ b, t.txs = s.txs ++ [b]) ∨
      (s.phase = .start ∧ t.txs = s.txs ∧ t.status.done = true ∧ (t.status.err = 2 ∨ t.status.err = 3))) ∧
    t.rxq = s.rxq ∧ t.rxBuf = s.rxBuf ∧ t.rxLen = s.rxLen ∧ t.plen = s.plen ∧ t.signal = s.signal ∧
    t.recv = s.recv ∧ t.status.kind = s.status.kind

/-- 41_encode.md R140 to R143, 70_reset_and_hazards.md R256: each step of ENC_CMD, ENC_RAW and ENC_CHUNK, with the byte
it emits and all it leaves unchanged; `finish` comes with the last byte (log 1). -/
def Obligations.EncodersStepByStep : Prop :=
  ∀ s : State,
    (s.phase = .start → s.len ≤ s.cfg.inMax →
      exec .encCmd s = .next { s with txs := s.txs ++ [0x02], accCmd := 0, phase := .body } ∧
      exec .encRaw s = .next
        (if s.len = 0 then
          { s with
            txs := s.txs ++ [0x02], status := { s.status with busy := false, done := true }, opcur := none, idx := 0,
            phase := .start }
        else { s with txs := s.txs ++ [0x02], phase := .body }) ∧
      (s.prepared → 1 ≤ s.len → s.len ≤ 1000 →
        exec .encChunk s = .next { s with txs := s.txs ++ [0x02], accCrc := 0, phase := .header 0 })) ∧
    (∀ j b, s.phase = .header j → ([0x57] ++ be16 s.inLen ++ be32 s.offset)[j]? = some b →
      exec .encChunk s = .next
        { s with
          txs := s.txs ++ [b], accCrc := crcStep s.accCrc b,
          phase := if j = 6 then .body else .header (j + 1) }) ∧
    (∀ b, s.phase = .body → s.idx.toNat < s.len → s.readIn s.idx.toNat = some b →
      exec .encCmd s = .next { s with txs := s.txs ++ [b], accCmd := cmdStep s.accCmd b, idx := s.idx + 1 } ∧
      exec .encRaw s = .next
        (if s.idx.toNat + 1 = s.len then
          { s with
            txs := s.txs ++ [b], status := { s.status with busy := false, done := true }, opcur := none, idx := 0,
            phase := .start }
        else { s with txs := s.txs ++ [b], idx := s.idx + 1 }) ∧
      exec .encChunk s = .next { s with txs := s.txs ++ [b], accCrc := crcStep s.accCrc b, idx := s.idx + 1 }) ∧
    (s.phase = .body → s.len ≤ s.idx.toNat →
      exec .encCmd s = .next { s with txs := s.txs ++ [0x03], accCmd := cmdStep s.accCmd 0x03, phase := .sealHi } ∧
      exec .encChunk s = .next { s with txs := s.txs ++ [hiByte s.accCrc], phase := .sealLo }) ∧
    (s.phase = .sealHi → exec .encCmd s = .next { s with txs := s.txs ++ [hiByte s.accCmd], phase := .sealLo }) ∧
    (s.phase = .sealLo →
      exec .encCmd s = .next
        { s with
          txs := s.txs ++ [loByte s.accCmd], result := s.accCmd,
          status := { s.status with busy := false, done := true }, opcur := none, idx := 0, phase := .start } ∧
      exec .encChunk s = .next
        { s with
          txs := s.txs ++ [loByte s.accCrc], result := s.accCrc,
          status := { s.status with busy := false, done := true }, opcur := none, idx := 0, phase := .start })

/-- 41_encode.md R142: ENC_RAW of a sealed chunk payload emits exactly what ENC_CHUNK emits. -/
def Obligations.EncRawOfSealedChunkEqualsEncChunk : Prop :=
  ∀ (s1 s2 : State) (d : List Byte), s1.fresh → s2.fresh → s1.loaded d → 1 ≤ d.length → d.length ≤ 1000 →
    s1.len ≤ s1.cfg.inMax → s2.len ≤ s2.cfg.inMax →
    s2.loaded (chunkPayload s1.offset d ++ be16 (crc16 (chunkPayload s1.offset d))) →
    ∃ t1 t2 bytes, execTimes (d.length + 10) .encChunk s1 = .next t1 ∧ execTimes (d.length + 10) .encRaw s2 = .next t2 ∧
      t1.txs = s1.txs ++ bytes ∧ t2.txs = s2.txs ++ bytes

/-- 41_encode.md R146: the round trip. VER_CMD passes every frame ENC_CMD emits and gives its payload back; RX_FRAME
fed the frame returns it exactly if and only if the payload has no 0x03 and the frame fits RX_BUF. -/
def Obligations.RoundTripOfCommandFrames : Prop :=
  (∀ (s : State) (p : List Byte), s.fresh → s.loaded p → s.len ≤ s.cfg.inMax →
    ∃ t, execTimes (s.len + 4) .encCmd s = .next t ∧ t.txs = s.txs ++ cmdFrame p) ∧
  (∀ (s : State) (p : List Byte), s.cfg.wf → p.length + 4 ≤ s.cfg.inMax → s.loaded (cmdFrame p) → s.status.err = 0 →
    ∃ t, exec .verCmd s = .next t ∧ t.status.err = 0 ∧ t.status.ckValid = true ∧ t.status.ckOk = true ∧
      t.plen.toNat = p.length ∧ t.spanIn 1 p.length = .ok p) ∧
  (∀ (s : State) (p : List Byte), s.cfg.wf → s.inFlight = some .rxFrame → s.rxFresh → s.rxq = cmdFrame p →
    s.status.kind = 0 →
    ∃ t, engineTimes (cmdFrame p).length s = .next t ∧
      ((t.status.kind = 2 ∧ t.rxSpan 0 t.rxLen.toNat = cmdFrame p) ↔
        (¬ (0x03 : Byte) ∈ p ∧ (cmdFrame p).length ≤ s.cfg.rxMax)))

/-! ## The verifiers -/

/-- 42_decode.md R180: VER_CMD, whole. ACC_CMD holds the checksum it accumulated (10_state.md R35; log 30), and OPCUR, IDX
and the phase are at rest (log 14, log 2). -/
def Obligations.VerCmdChecksACommandFrame : Prop :=
  decodeWord 0x00000008 = .ok .verCmd ∧ ∀ s : State,
    (s.cfg.inMax < s.len → exec .verCmd s = .next
      { s with
        status := { s.status with busy := false, done := true, err := 2 }, opcur := none, idx := 0, phase := .start }) ∧
    (s.len ≤ s.cfg.inMax → ∀ F, s.loaded F →
      (¬(4 ≤ F.length ∧ F[0]? = some 0x02 ∧ F[F.length - 3]? = some 0x03) → exec .verCmd s = .next
        { s with
          status := { s.status with busy := false, done := true, err := 6 }, opcur := none, idx := 0, phase := .start }) ∧
      (∀ hi lo c r, 4 ≤ F.length → F[0]? = some 0x02 → F[F.length - 3]? = some 0x03 →
        F[F.length - 2]? = some hi → F[F.length - 1]? = some lo →
        c = cmdChecksum ((F.drop 1).take (F.length - 3)) → r = ofBe16 hi lo →
        exec .verCmd s = .next
          { s with
            result := c, accCmd := c, recv := r, plen := BitVec.ofNat 16 (F.length - 4), opcur := none, idx := 0, phase := .start,
            status :=
              { s.status with
                busy := false, done := true, ckValid := true, ckOk := decide (c = r),
                err := if c = r then s.status.err else 7 } }))

/-- 42_decode.md R181: VER_CRC, whole. ACC_CRC holds the checksum it accumulated (10_state.md R36; log 30), and OPCUR, IDX
and the phase are at rest (log 14, log 2). -/
def Obligations.VerCrcChecksAChunkFrame : Prop :=
  decodeWord 0x00000009 = .ok .verCrc ∧ ∀ s : State,
    (s.cfg.inMax < s.len → exec .verCrc s = .next
      { s with
        status := { s.status with busy := false, done := true, err := 2 }, opcur := none, idx := 0, phase := .start }) ∧
    (s.len ≤ s.cfg.inMax → ∀ G, s.loaded G →
      (¬(3 ≤ G.length ∧ G[0]? = some 0x02) → exec .verCrc s = .next
        { s with
          status := { s.status with busy := false, done := true, err := 6 }, opcur := none, idx := 0, phase := .start }) ∧
      (∀ hi lo c r, 3 ≤ G.length → G[0]? = some 0x02 →
        G[G.length - 2]? = some hi → G[G.length - 1]? = some lo →
        c = crc16 ((G.drop 1).take (G.length - 3)) → r = ofBe16 hi lo →
        exec .verCrc s = .next
          { s with
            result := c, accCrc := c, recv := r, plen := BitVec.ofNat 16 (G.length - 3), opcur := none, idx := 0, phase := .start,
            status :=
              { s.status with
                busy := false, done := true, ckValid := true, ckOk := decide (c = r),
                err := if c = r then s.status.err else 7 } }))

/-! ## The reader -/

/-- 42_decode.md R172: a byte outside a frame: a signal ends the operation at once, 0x02 opens a frame, any other byte
is consumed and discarded. OPCUR, IDX and the phase of the ended operation are at rest (log 14, log 2). -/
def Obligations.ReaderOutsideAFrame : Prop :=
  ∀ (s : State) (b : Byte) (rest : List Byte), s.rxq = b :: rest → s.rxInf = false →
    (b = 0x05 ∨ b = 0x06 → exec .rxFrame s = .next
      { s with
        rxq := rest, signal := b, status := { s.status with busy := false, done := true, kind := 1 }, opcur := none,
        idx := 0, phase := .start }) ∧
    (b = 0x02 → exec .rxFrame s = .next
      { s with rxq := rest, rxInf := true, rxLen := 1, rxBuf := Memory.write s.rxBuf 0 0x02 }) ∧
    (b ≠ 0x05 → b ≠ 0x06 → b ≠ 0x02 → exec .rxFrame s = .next { s with rxq := rest })

/-- 42_decode.md R173: a byte inside a frame is appended whatever its value, never restarts the frame and never ends it
as a signal; the frame is complete as soon as it has at least 4 bytes and the third from last is 0x03. RX_INF stays 1
after the end too (log 26). A byte that neither completes nor fills the frame changes RXQ, RX_LEN and RX_BUF and nothing
else. -/
def Obligations.ReaderInsideAFrame : Prop :=
  ∀ (s : State) (b : Byte) (rest : List Byte), s.cfg.wf → s.rxq = b :: rest → s.rxInf = true →
    s.rxLen.toNat < s.cfg.rxMax →
    (s.status.kind = 0 → ∃ t, exec .rxFrame s = .next t ∧ t.rxq = rest ∧ t.rxInf = true ∧ t.signal = s.signal ∧
      t.rxLen.toNat = s.rxLen.toNat + 1 ∧
      (∀ j, Memory.read t.rxBuf j = if j = s.rxLen.toNat then some b else Memory.read s.rxBuf j) ∧
      (t.status.kind = 2 ↔ 4 ≤ t.rxLen.toNat ∧ t.rxByte (t.rxLen.toNat - 3) = 0x03) ∧
      (t.status.kind = 2 ∨ t.status.kind = 0) ∧ (t.status.kind = 2 → t.status.done = true)) ∧
    (¬(3 ≤ s.rxLen.toNat ∧ s.rxByte (s.rxLen.toNat - 2) = 0x03) → s.rxLen.toNat + 1 < s.cfg.rxMax →
      exec .rxFrame s = .next
        { s with rxq := rest, rxLen := s.rxLen + 1, rxBuf := Memory.write s.rxBuf s.rxLen.toNat b })

/-- 42_decode.md R174, with R177, R178 and R179: the completion law. After any noise, a frame opened by 0x02 completes
two bytes after its first 0x03; it is verified with the Command Checksum, returned whether or not the checksum matches,
and every later byte stays in RXQ. RX_INF stays 1 (log 26), ACC_CMD holds the checksum (log 30), and OPCUR, IDX and the
phase are at rest (log 14, log 2). -/
def Obligations.ReaderCompletionLaw : Prop :=
  ∀ (s : State) (noise pre rest : List Byte) (hi lo : Byte) (c r : Half),
    s.cfg.wf → s.inFlight = some .rxFrame → s.rxFresh →
    (∀ x ∈ noise, x ≠ 0x02 ∧ x ≠ 0x05 ∧ x ≠ 0x06) → ¬ (0x03 : Byte) ∈ pre → pre.length + 4 ≤ s.cfg.rxMax →
    s.rxq = noise ++ [0x02] ++ pre ++ [0x03, hi, lo] ++ rest →
    c = cmdChecksum (pre ++ [0x03]) → r = ofBe16 hi lo →
    ∀ k, noise.length + pre.length + 4 ≤ k → engineTimes k s = .next
      { s with
        rxq := rest, rxInf := true, rxLen := BitVec.ofNat 16 (pre.length + 4),
        rxBuf := Memory.ofBytes ([0x02] ++ pre ++ [0x03, hi, lo]),
        result := c, accCmd := c, recv := r, plen := BitVec.ofNat 16 pre.length, opcur := none, idx := 0, phase := .start,
        status :=
          { s.status with
            busy := false, done := true, kind := 2, ckValid := true, ckOk := decide (c = r),
            err := if c = r then s.status.err else 7 } }

/-- 42_decode.md R175: an incomplete frame that reaches RX_MAX bytes ends RX_FRAME with RX_OVERFLOW and keeps its bytes;
no further byte is taken. A frame of exactly RX_MAX bytes that completes on its last byte is a FRAME. -/
def Obligations.ReaderOverflow : Prop :=
  (∀ (s : State) (noise body rest : List Byte),
    s.cfg.wf → s.inFlight = some .rxFrame → s.rxFresh →
    (∀ x ∈ noise, x ≠ 0x02 ∧ x ≠ 0x05 ∧ x ≠ 0x06) → body.length + 1 = s.cfg.rxMax →
    ¬ (0x03 : Byte) ∈ body.take (s.cfg.rxMax - 3) → s.rxq = noise ++ [0x02] ++ body ++ rest →
    ∀ k, noise.length + s.cfg.rxMax ≤ k → engineTimes k s = .next
      { s with
        rxq := rest, rxInf := true, rxLen := BitVec.ofNat 16 s.cfg.rxMax, rxBuf := Memory.ofBytes ([0x02] ++ body),
        opcur := none, idx := 0, phase := .start, status := { s.status with busy := false, done := true, err := 4 } }) ∧
  (∀ (s : State) (pre : List Byte) (hi lo : Byte), s.cfg.wf → s.inFlight = some .rxFrame → s.rxFresh →
    ¬ (0x03 : Byte) ∈ pre → pre.length + 4 = s.cfg.rxMax → s.rxq = [0x02] ++ pre ++ [0x03, hi, lo] →
    s.status.err = 0 →
    ∃ t, engineTimes s.cfg.rxMax s = .next t ∧ t.status.kind = 2 ∧ t.rxLen.toNat = s.cfg.rxMax ∧ t.status.err ≠ 4)

/-- 42_decode.md R183: the outcome of RX_FRAME depends on the bytes taken, never on how arrivals were grouped. Two runs
in which the CHANNEL delivers the same bytes in any two interleavings with ENGINE turns, and both of which end the
operation, end in the same state. -/
def Obligations.ReaderIsArrivalIndependent : Prop :=
  ∀ (s t1 t2 : State) (a1 a2 : List Turn), s.inFlight = some .rxFrame →
    (∀ x ∈ a1, x = .engine ∨ ∃ b, x = .channel b) → (∀ x ∈ a2, x = .engine ∨ ∃ b, x = .channel b) →
    a1.filter (· ≠ .engine) = a2.filter (· ≠ .engine) →
    Host.Core.run Sys2Proof.core a1.length { s with agenda := a1 } = .next t1 →
    Host.Core.run Sys2Proof.core a2.length { s with agenda := a2 } = .next t2 →
    t1.status.busy = false → t2.status.busy = false → t1 = t2

/-- 42_decode.md R182: where the payload of a verified frame is; and that the host reads it there: with BUSY = 0 a
stored byte of RX_BUF below RX_LEN reads as itself (10_state.md R33), as a written byte of IN does (R32). -/
def Obligations.PayloadLocation : Prop :=
  (∀ (s : State) (i : Nat) (b : Byte),
    (s.status.busy = false → i < s.rxLen.toNat → i < s.cfg.rxMax → Memory.read s.rxBuf i = some b →
      s.rxValue i = b) ∧
    (i < s.cfg.inMax → Memory.read s.inBuf i = some b → s.inValue i = b)) ∧
  (∀ (s : State) (p : List Byte) (hi lo : Byte), s.cfg.wf → s.len ≤ s.cfg.inMax →
    s.loaded ([0x02] ++ p ++ [0x03, hi, lo]) →
    ∃ t, exec .verCmd s = .next t ∧ t.status.ckValid = true ∧ t.plen.toNat = p.length ∧
      t.spanIn 1 t.plen.toNat = .ok p ∧ t.readIn (t.plen.toNat + 1) = some 0x03) ∧
  (∀ (s : State) (p : List Byte) (hi lo : Byte), s.cfg.wf → s.len ≤ s.cfg.inMax →
    s.loaded ([0x02] ++ p ++ [hi, lo]) →
    ∃ t, exec .verCrc s = .next t ∧ t.status.ckValid = true ∧ t.plen.toNat = p.length ∧
      t.spanIn 1 t.plen.toNat = .ok p) ∧
  (∀ (s : State) (p : List Byte) (hi lo : Byte), s.cfg.wf → s.inFlight = some .rxFrame → s.rxFresh →
    ¬ (0x03 : Byte) ∈ p → p.length + 4 ≤ s.cfg.rxMax → s.rxq = [0x02] ++ p ++ [0x03, hi, lo] →
    ∃ t, engineTimes (p.length + 4) s = .next t ∧ t.status.ckValid = true ∧ t.plen.toNat = p.length ∧
      t.rxSpan 1 t.plen.toNat = p ∧ t.rxByte (t.plen.toNat + 1) = 0x03 ∧
      ∀ j, j < p.length + 4 → some (t.rxValue j) = ([0x02] ++ p ++ [0x03, hi, lo])[j]?)

/-! ## The wire rows -/

/-- 30_encoding.md R75 to R77, R79, R80, R87: each command row is `send.cmd` of its payload (log 19): exec puts its exact
expansion in front of the HOST's program and changes nothing else; and from an idle block, running it in the default
order (log 3, steps log 1) emits the command frame of the payload, leaves RESULT its seal and IN the payload, and comes
back to the next line with DONE. IN_LEN keeps 16 bits of the payload's length (10_state.md R28; log 28): `n` is what it
holds, and a length above IN_MAX ends with BAD_LEN and emits nothing. -/
def Obligations.WireCommandSendsItsCommandFrame : Prop :=
  ∀ (s : State) (i : Instr) (p : List Byte), encode i = .wire p →
    ((∃ text, i = .wireM text) ∨ (∃ name value, i = .wireL name value) ∨
      (∃ kind u1 ts u2 name, i = .wireO kind u1 ts u2 name) ∨ i = .wireC ∨ i = .wireS) →
    exec i s = .next { s with hostProg := sendCmdLines p ++ s.hostProg } ∧
    ∀ n, n = p.length % 2 ^ 16 → s.cfg.wf → s.idle →
    (n ≤ s.cfg.inMax → ∃ t,
      Host.Core.run Sys2Proof.core (p.length + n + 7) { s with hostProg := sendCmdLines p ++ s.hostProg } = .next t ∧
      t.txs = s.txs ++ cmdFrame (p.take n) ∧ t.result = cmdChecksum (p.take n ++ [0x03]) ∧ t.inLen.toNat = n ∧
      t.opword = 0x00000003 ∧
      t.status =
        { busy := false, done := true, kind := 0, ckValid := false, ckOk := false, herr := s.status.herr, err := 0 } ∧
      (∀ j, Memory.read t.inBuf j = if j < p.length ∧ j < s.cfg.inMax then p[j]? else Memory.read s.inBuf j) ∧
      t.hostProg = s.hostProg ∧ t.rxq = s.rxq ∧ t.offset = s.offset ∧ t.recv = s.recv ∧ t.rxLen = s.rxLen ∧
      t.plen = s.plen ∧ t.signal = s.signal ∧ t.rxBuf = s.rxBuf) ∧
    (s.cfg.inMax < n → ∃ t,
      Host.Core.run Sys2Proof.core (p.length + 4) { s with hostProg := sendCmdLines p ++ s.hostProg } = .next t ∧
      t.txs = s.txs ∧ t.result = s.result ∧ t.inLen.toNat = n ∧
      t.opword = 0x00000003 ∧
      t.status =
        { busy := false, done := true, kind := 0, ckValid := false, ckOk := false, herr := s.status.herr, err := 2 } ∧
      (∀ j, Memory.read t.inBuf j = if j < p.length ∧ j < s.cfg.inMax then p[j]? else Memory.read s.inBuf j) ∧
      t.hostProg = s.hostProg ∧ t.rxq = s.rxq ∧ t.offset = s.offset ∧ t.recv = s.recv ∧ t.rxLen = s.rxLen ∧
      t.plen = s.plen ∧ t.signal = s.signal ∧ t.rxBuf = s.rxBuf)

/-- 30_encoding.md R78, R87: `W` is `chunk off, d` (log 19): sealed as a chunk-write frame, never as a command frame; run
from an idle block in the default order (log 3, steps log 1). IN_LEN keeps 16 bits of the data's length (10_state.md R28;
log 28): `m` is what it holds, and 0 or more than 1000 ends with BAD_LEN and emits nothing. -/
def Obligations.WireChunkSendsItsChunkFrame : Prop :=
  ∀ (s : State) (off : Word) (d : List Byte),
    exec (.wireW off d) s = .next { s with hostProg := chunkLines off d ++ s.hostProg } ∧
    ∀ m, m = d.length % 2 ^ 16 → s.cfg.wf → s.idle →
    (1 ≤ m → m ≤ 1000 → ∃ t,
      Host.Core.run Sys2Proof.core (d.length + m + 14) { s with hostProg := chunkLines off d ++ s.hostProg } = .next t ∧
      t.txs = s.txs ++ chunkFrame (chunkPayload off (d.take m)) ∧ t.result = crc16 (chunkPayload off (d.take m)) ∧
      t.inLen.toNat = m ∧
      t.opword = 0x00000005 ∧
      t.status =
        { busy := false, done := true, kind := 0, ckValid := false, ckOk := false, herr := s.status.herr, err := 0 } ∧
      (∀ j, Memory.read t.inBuf j = if j < d.length ∧ j < s.cfg.inMax then d[j]? else Memory.read s.inBuf j) ∧
      t.hostProg = s.hostProg ∧ t.rxq = s.rxq ∧ t.offset = off ∧ t.recv = s.recv ∧ t.rxLen = s.rxLen ∧
      t.plen = s.plen ∧ t.signal = s.signal ∧ t.rxBuf = s.rxBuf) ∧
    (m = 0 ∨ 1000 < m → ∃ t,
      Host.Core.run Sys2Proof.core (d.length + 5) { s with hostProg := chunkLines off d ++ s.hostProg } = .next t ∧
      t.txs = s.txs ∧ t.result = s.result ∧ t.inLen.toNat = m ∧
      t.opword = 0x00000005 ∧
      t.status =
        { busy := false, done := true, kind := 0, ckValid := false, ckOk := false, herr := s.status.herr, err := 2 } ∧
      (∀ j, Memory.read t.inBuf j = if j < d.length ∧ j < s.cfg.inMax then d[j]? else Memory.read s.inBuf j) ∧
      t.hostProg = s.hostProg ∧ t.rxq = s.rxq ∧ t.offset = off ∧ t.recv = s.recv ∧ t.rxLen = s.rxLen ∧
      t.plen = s.plen ∧ t.signal = s.signal ∧ t.rxBuf = s.rxBuf)

/-- 30_encoding.md R73, R87: the handshake rows are `probe` and `ack`: one bare byte on the wire, no checksum. -/
def Obligations.WireSignalSendsItsByte : Prop :=
  ∀ (s : State) (i : Instr) (a : Byte), (i = .wireSigNak ∧ a = 0x05) ∨ (i = .wireSigAck ∧ a = 0x06) →
    exec i s = .next { s with hostProg := sigTxLines a ++ s.hostProg } ∧
    (s.idle → ∃ t,
      Host.Core.run Sys2Proof.core 3 { s with hostProg := sigTxLines a ++ s.hostProg } = .next t ∧
      t.txs = s.txs ++ [a] ∧ t.result = s.result ∧ t.hostProg = s.hostProg ∧ t.rxq = s.rxq ∧ t.inBuf = s.inBuf ∧
      t.inLen = s.inLen ∧
      t.status =
        { busy := false, done := true, kind := 0, ckValid := false, ckOk := false, herr := s.status.herr, err := 0 })

/-- 70_reset_and_hazards.md R253, 30_encoding.md R75 to R80: a command that keeps the host's duties is received by the
§4.2 reader exactly, whenever its frame fits RX_BUF. -/
def Obligations.ConformantCommandIsReceivedExactly : Prop :=
  ∀ (s : State) (i : Instr) (p rest : List Byte), i.conformant → encode i = .wire p →
    (∀ off d, i ≠ .wireW off d) → i ≠ .wireSigNak → i ≠ .wireSigAck →
    s.cfg.wf → s.inFlight = some .rxFrame → s.rxFresh → s.rxq = cmdFrame p ++ rest →
    (cmdFrame p).length ≤ s.cfg.rxMax →
    ∃ t, engineTimes (cmdFrame p).length s = .next t ∧ t.status.kind = 2 ∧ t.status.ckOk = true ∧
      t.rxSpan 0 t.rxLen.toNat = cmdFrame p ∧ t.rxSpan 1 t.plen.toNat = p ∧ t.rxq = rest

/-! ## The whole machine -/

/-- 10_state.md R42, R35, R36: what each operation leaves unchanged, step by step, the accumulators included, and that a
step that fails with an error other than CK_MISMATCH writes none of RESULT, RECV, PLEN and SIGNAL. -/
def Obligations.OperationsWriteOnlyTheirItems : Prop :=
  ∀ (s t : State) (i : Instr), exec i s = .next t → (∃ w, encode i = .word w) →
    (t.cfg = s.cfg ∧ t.opword = s.opword ∧ t.offset = s.offset ∧ t.inLen = s.inLen ∧ t.inBuf = s.inBuf ∧
      t.hostProg = s.hostProg ∧ t.agenda = s.agenda ∧ t.readData = s.readData ∧ t.draws = s.draws ∧
      t.status.herr = s.status.herr) ∧
    (i ≠ .rxFrame → t.rxLen = s.rxLen ∧ t.signal = s.signal ∧ t.rxBuf = s.rxBuf ∧ t.rxInf = s.rxInf ∧ t.rxq = s.rxq ∧
      t.status.kind = s.status.kind) ∧
    (i ≠ .rxFrame → i ≠ .verCmd → i ≠ .verCrc → t.recv = s.recv ∧ t.plen = s.plen ∧
      t.status.ckValid = s.status.ckValid ∧ t.status.ckOk = s.status.ckOk) ∧
    (i = .encRaw ∨ (∃ a, i = .sigTx a) → t.result = s.result) ∧
    (i ≠ .encCmd → i ≠ .encRaw → i ≠ .encChunk → (∀ a, i ≠ .sigTx a) → t.txs = s.txs) ∧
    (i = .rxFrame → t.status.kind ≠ 2 →
      t.result = s.result ∧ t.recv = s.recv ∧ t.plen = s.plen ∧ t.status.ckValid = s.status.ckValid ∧
        t.status.ckOk = s.status.ckOk ∧ t.accCmd = s.accCmd) ∧
    (i ≠ .cksCmd → i ≠ .encCmd → i ≠ .verCmd → i ≠ .rxFrame → t.accCmd = s.accCmd) ∧
    (i ≠ .cksCrc → i ≠ .encChunk → i ≠ .verCrc → t.accCrc = s.accCrc) ∧
    (s.status.err = 0 → t.status.err ≠ 0 → t.status.err ≠ 7 →
      t.result = s.result ∧ t.recv = s.recv ∧ t.plen = s.plen ∧ t.signal = s.signal ∧ t.txs = s.txs)

/-- 60_exceptions.md R211: an operation whose check raises BAD_LEN, BAD_ARG or BAD_FRAME has emitted nothing, consumed
nothing and written no result register: the check is its first step, and that step changes only STATUS and the
hidden in-flight state. -/
def Obligations.FailedCheckHasNoEffect : Prop :=
  ∀ (s t : State) (i : Instr), s.inFlight = some i → phaseFits i s.phase = true → exec i s = .next t →
    s.status.err = 0 → (t.status.err = 2 ∨ t.status.err = 3 ∨ t.status.err = 6) →
    s.phase = .start ∧
    t = { s with
      status := { s.status with busy := false, done := true, err := t.status.err }, opcur := none, idx := 0,
      phase := .start }

/-- 10_state.md R39: a step appends at most one byte to TXS, and RXQ changes only by the CHANNEL's append or by the one
byte RX_FRAME takes from its front. -/
def Obligations.ChannelStreamsAreFifos : Prop :=
  ∀ s t : State, step s = .next t →
    (∃ l : List Byte, l.length ≤ 1 ∧ t.txs = s.txs ++ l) ∧
    (t.rxq = s.rxq ∨ (∃ b, s.agenda.head? = some (.channel b) ∧ t.rxq = s.rxq ++ [b]) ∨
      (s.inFlight = some .rxFrame ∧ ∃ b, s.rxq = b :: t.rxq))

/-- 10_state.md R32, 93 U1: from a state of the invariant the machine stops only where an operation in flight reads an
IN byte below IN_LEN that was never written, and it never refuses. -/
def Obligations.OnlyUnwrittenInputStopsTheMachine : Prop :=
  ∀ s : State, s.Inv →
    (∀ r, step s ≠ .refused r) ∧
    (∀ f, step s = .fault f → ∃ i, f = .unwrittenIn i ∧ i < s.len ∧ s.readIn i = none ∧
      ∃ op, s.inFlight = some op ∧ op ≠ .rxFrame ∧ ∀ a, op ≠ .sigTx a) ∧
    (s.prepared → ∃ t, step s = .next t)

/-- 00_scope.md R7, 70_reset_and_hazards.md R256, R255: every operation but RX_FRAME ends within IN_LEN + 10 ENGINE
steps, with DONE = 1 and BUSY = 0, once its IN bytes have been written. -/
def Obligations.OperationsEndInBoundedSteps : Prop :=
  ∀ (s : State) (i : Instr), s.Inv → s.prepared → s.inFlight = some i → i ≠ .rxFrame →
    ∃ k t, k ≤ s.len + 10 ∧ execTimes k i s = .next t ∧ t.status.done = true ∧ t.status.busy = false

/-- The invariant of the machine (Safety.lean): the STATUS fields' rules (10_state.md R24, R40, 93 U8), OPCUR and IDX
(R38), the canonical buffers within their bounds (R32, R33, R57), the reader (R37), SIGNAL (R31). Every step from every
state of the invariant keeps it. -/
def Obligations.EveryStepKeepsTheMachineInvariant : Prop :=
  ∀ s t : State, s.Inv → step s = .next t → t.Inv

/-- 70_reset_and_hazards.md R241: the reset state meets the invariant (its parameters are the model's choice, log 5). -/
def Obligations.ResetMeetsTheMachineInvariant : Prop :=
  State.reset.Inv
end

