-- ==== Sys2Proof/Laws/State.lean ====
section
/-! SUPPORT. One lemma per field of State for each shared update, true by rfl, so that no proof unfolds a record
update. -/

namespace Sys2Proof.Machine

variable (s : State)

/-! `State.emit` changes TXS alone (00_scope.md R13). -/

@[simp] theorem State.emit_cfg (b : Byte) : (s.emit b).cfg = s.cfg := rfl
@[simp] theorem State.emit_opword (b : Byte) : (s.emit b).opword = s.opword := rfl
@[simp] theorem State.emit_status (b : Byte) : (s.emit b).status = s.status := rfl
@[simp] theorem State.emit_result (b : Byte) : (s.emit b).result = s.result := rfl
@[simp] theorem State.emit_recv (b : Byte) : (s.emit b).recv = s.recv := rfl
@[simp] theorem State.emit_offset (b : Byte) : (s.emit b).offset = s.offset := rfl
@[simp] theorem State.emit_inLen (b : Byte) : (s.emit b).inLen = s.inLen := rfl
@[simp] theorem State.emit_rxLen (b : Byte) : (s.emit b).rxLen = s.rxLen := rfl
@[simp] theorem State.emit_plen (b : Byte) : (s.emit b).plen = s.plen := rfl
@[simp] theorem State.emit_signal (b : Byte) : (s.emit b).signal = s.signal := rfl
@[simp] theorem State.emit_inBuf (b : Byte) : (s.emit b).inBuf = s.inBuf := rfl
@[simp] theorem State.emit_rxBuf (b : Byte) : (s.emit b).rxBuf = s.rxBuf := rfl
@[simp] theorem State.emit_accCmd (b : Byte) : (s.emit b).accCmd = s.accCmd := rfl
@[simp] theorem State.emit_accCrc (b : Byte) : (s.emit b).accCrc = s.accCrc := rfl
@[simp] theorem State.emit_rxInf (b : Byte) : (s.emit b).rxInf = s.rxInf := rfl
@[simp] theorem State.emit_opcur (b : Byte) : (s.emit b).opcur = s.opcur := rfl
@[simp] theorem State.emit_idx (b : Byte) : (s.emit b).idx = s.idx := rfl
@[simp] theorem State.emit_phase (b : Byte) : (s.emit b).phase = s.phase := rfl
@[simp] theorem State.emit_rxq (b : Byte) : (s.emit b).rxq = s.rxq := rfl
@[simp] theorem State.emit_txs (b : Byte) : (s.emit b).txs = s.txs ++ [b] := rfl
@[simp] theorem State.emit_hostProg (b : Byte) : (s.emit b).hostProg = s.hostProg := rfl
@[simp] theorem State.emit_agenda (b : Byte) : (s.emit b).agenda = s.agenda := rfl
@[simp] theorem State.emit_readData (b : Byte) : (s.emit b).readData = s.readData := rfl
@[simp] theorem State.emit_draws (b : Byte) : (s.emit b).draws = s.draws := rfl

/-! `State.finish` (00_scope.md R13; log 14). -/

@[simp] theorem State.finish_cfg : s.finish.cfg = s.cfg := rfl
@[simp] theorem State.finish_opword : s.finish.opword = s.opword := rfl
@[simp] theorem State.finish_status : s.finish.status = s.status.finish := rfl
@[simp] theorem State.finish_result : s.finish.result = s.result := rfl
@[simp] theorem State.finish_recv : s.finish.recv = s.recv := rfl
@[simp] theorem State.finish_offset : s.finish.offset = s.offset := rfl
@[simp] theorem State.finish_inLen : s.finish.inLen = s.inLen := rfl
@[simp] theorem State.finish_rxLen : s.finish.rxLen = s.rxLen := rfl
@[simp] theorem State.finish_plen : s.finish.plen = s.plen := rfl
@[simp] theorem State.finish_signal : s.finish.signal = s.signal := rfl
@[simp] theorem State.finish_inBuf : s.finish.inBuf = s.inBuf := rfl
@[simp] theorem State.finish_rxBuf : s.finish.rxBuf = s.rxBuf := rfl
@[simp] theorem State.finish_accCmd : s.finish.accCmd = s.accCmd := rfl
@[simp] theorem State.finish_accCrc : s.finish.accCrc = s.accCrc := rfl
@[simp] theorem State.finish_rxInf : s.finish.rxInf = s.rxInf := rfl
@[simp] theorem State.finish_opcur : s.finish.opcur = none := rfl
@[simp] theorem State.finish_idx : s.finish.idx = 0 := rfl
@[simp] theorem State.finish_phase : s.finish.phase = .start := rfl
@[simp] theorem State.finish_rxq : s.finish.rxq = s.rxq := rfl
@[simp] theorem State.finish_txs : s.finish.txs = s.txs := rfl
@[simp] theorem State.finish_hostProg : s.finish.hostProg = s.hostProg := rfl
@[simp] theorem State.finish_agenda : s.finish.agenda = s.agenda := rfl
@[simp] theorem State.finish_readData : s.finish.readData = s.readData := rfl
@[simp] theorem State.finish_draws : s.finish.draws = s.draws := rfl

/-! `State.raise` (00_scope.md R13; 60_exceptions.md R211). -/

@[simp] theorem State.raise_cfg (e : ErrCode) : (s.raise e).cfg = s.cfg := rfl
@[simp] theorem State.raise_opword (e : ErrCode) : (s.raise e).opword = s.opword := rfl
@[simp] theorem State.raise_status (e : ErrCode) : (s.raise e).status = (s.status.withErr e).finish := rfl
@[simp] theorem State.raise_result (e : ErrCode) : (s.raise e).result = s.result := rfl
@[simp] theorem State.raise_recv (e : ErrCode) : (s.raise e).recv = s.recv := rfl
@[simp] theorem State.raise_offset (e : ErrCode) : (s.raise e).offset = s.offset := rfl
@[simp] theorem State.raise_inLen (e : ErrCode) : (s.raise e).inLen = s.inLen := rfl
@[simp] theorem State.raise_rxLen (e : ErrCode) : (s.raise e).rxLen = s.rxLen := rfl
@[simp] theorem State.raise_plen (e : ErrCode) : (s.raise e).plen = s.plen := rfl
@[simp] theorem State.raise_signal (e : ErrCode) : (s.raise e).signal = s.signal := rfl
@[simp] theorem State.raise_inBuf (e : ErrCode) : (s.raise e).inBuf = s.inBuf := rfl
@[simp] theorem State.raise_rxBuf (e : ErrCode) : (s.raise e).rxBuf = s.rxBuf := rfl
@[simp] theorem State.raise_accCmd (e : ErrCode) : (s.raise e).accCmd = s.accCmd := rfl
@[simp] theorem State.raise_accCrc (e : ErrCode) : (s.raise e).accCrc = s.accCrc := rfl
@[simp] theorem State.raise_rxInf (e : ErrCode) : (s.raise e).rxInf = s.rxInf := rfl
@[simp] theorem State.raise_opcur (e : ErrCode) : (s.raise e).opcur = none := rfl
@[simp] theorem State.raise_idx (e : ErrCode) : (s.raise e).idx = 0 := rfl
@[simp] theorem State.raise_phase (e : ErrCode) : (s.raise e).phase = .start := rfl
@[simp] theorem State.raise_rxq (e : ErrCode) : (s.raise e).rxq = s.rxq := rfl
@[simp] theorem State.raise_txs (e : ErrCode) : (s.raise e).txs = s.txs := rfl
@[simp] theorem State.raise_hostProg (e : ErrCode) : (s.raise e).hostProg = s.hostProg := rfl
@[simp] theorem State.raise_agenda (e : ErrCode) : (s.raise e).agenda = s.agenda := rfl
@[simp] theorem State.raise_readData (e : ErrCode) : (s.raise e).readData = s.readData := rfl
@[simp] theorem State.raise_draws (e : ErrCode) : (s.raise e).draws = s.draws := rfl

/-! `State.finishResult`. -/

@[simp] theorem State.finishResult_cfg (v : Half) : (s.finishResult v).cfg = s.cfg := rfl
@[simp] theorem State.finishResult_opword (v : Half) : (s.finishResult v).opword = s.opword := rfl
@[simp] theorem State.finishResult_status (v : Half) : (s.finishResult v).status = s.status.finish := rfl
@[simp] theorem State.finishResult_result (v : Half) : (s.finishResult v).result = v := rfl
@[simp] theorem State.finishResult_recv (v : Half) : (s.finishResult v).recv = s.recv := rfl
@[simp] theorem State.finishResult_offset (v : Half) : (s.finishResult v).offset = s.offset := rfl
@[simp] theorem State.finishResult_inLen (v : Half) : (s.finishResult v).inLen = s.inLen := rfl
@[simp] theorem State.finishResult_rxLen (v : Half) : (s.finishResult v).rxLen = s.rxLen := rfl
@[simp] theorem State.finishResult_plen (v : Half) : (s.finishResult v).plen = s.plen := rfl
@[simp] theorem State.finishResult_signal (v : Half) : (s.finishResult v).signal = s.signal := rfl
@[simp] theorem State.finishResult_inBuf (v : Half) : (s.finishResult v).inBuf = s.inBuf := rfl
@[simp] theorem State.finishResult_rxBuf (v : Half) : (s.finishResult v).rxBuf = s.rxBuf := rfl
@[simp] theorem State.finishResult_accCmd (v : Half) : (s.finishResult v).accCmd = s.accCmd := rfl
@[simp] theorem State.finishResult_accCrc (v : Half) : (s.finishResult v).accCrc = s.accCrc := rfl
@[simp] theorem State.finishResult_rxInf (v : Half) : (s.finishResult v).rxInf = s.rxInf := rfl
@[simp] theorem State.finishResult_opcur (v : Half) : (s.finishResult v).opcur = none := rfl
@[simp] theorem State.finishResult_idx (v : Half) : (s.finishResult v).idx = 0 := rfl
@[simp] theorem State.finishResult_phase (v : Half) : (s.finishResult v).phase = .start := rfl
@[simp] theorem State.finishResult_rxq (v : Half) : (s.finishResult v).rxq = s.rxq := rfl
@[simp] theorem State.finishResult_txs (v : Half) : (s.finishResult v).txs = s.txs := rfl
@[simp] theorem State.finishResult_hostProg (v : Half) : (s.finishResult v).hostProg = s.hostProg := rfl
@[simp] theorem State.finishResult_agenda (v : Half) : (s.finishResult v).agenda = s.agenda := rfl
@[simp] theorem State.finishResult_readData (v : Half) : (s.finishResult v).readData = s.readData := rfl
@[simp] theorem State.finishResult_draws (v : Half) : (s.finishResult v).draws = s.draws := rfl

/-! `State.verdict` (42_decode.md R177). -/

@[simp] theorem State.verdict_cfg (c r p : Half) : (s.verdict c r p).cfg = s.cfg := rfl
@[simp] theorem State.verdict_opword (c r p : Half) : (s.verdict c r p).opword = s.opword := rfl
@[simp] theorem State.verdict_status (c r p : Half) : (s.verdict c r p).status = (s.status.compared c r).finish := rfl
@[simp] theorem State.verdict_result (c r p : Half) : (s.verdict c r p).result = c := rfl
@[simp] theorem State.verdict_recv (c r p : Half) : (s.verdict c r p).recv = r := rfl
@[simp] theorem State.verdict_offset (c r p : Half) : (s.verdict c r p).offset = s.offset := rfl
@[simp] theorem State.verdict_inLen (c r p : Half) : (s.verdict c r p).inLen = s.inLen := rfl
@[simp] theorem State.verdict_rxLen (c r p : Half) : (s.verdict c r p).rxLen = s.rxLen := rfl
@[simp] theorem State.verdict_plen (c r p : Half) : (s.verdict c r p).plen = p := rfl
@[simp] theorem State.verdict_signal (c r p : Half) : (s.verdict c r p).signal = s.signal := rfl
@[simp] theorem State.verdict_inBuf (c r p : Half) : (s.verdict c r p).inBuf = s.inBuf := rfl
@[simp] theorem State.verdict_rxBuf (c r p : Half) : (s.verdict c r p).rxBuf = s.rxBuf := rfl
@[simp] theorem State.verdict_accCmd (c r p : Half) : (s.verdict c r p).accCmd = s.accCmd := rfl
@[simp] theorem State.verdict_accCrc (c r p : Half) : (s.verdict c r p).accCrc = s.accCrc := rfl
@[simp] theorem State.verdict_rxInf (c r p : Half) : (s.verdict c r p).rxInf = s.rxInf := rfl
@[simp] theorem State.verdict_opcur (c r p : Half) : (s.verdict c r p).opcur = none := rfl
@[simp] theorem State.verdict_idx (c r p : Half) : (s.verdict c r p).idx = 0 := rfl
@[simp] theorem State.verdict_phase (c r p : Half) : (s.verdict c r p).phase = .start := rfl
@[simp] theorem State.verdict_rxq (c r p : Half) : (s.verdict c r p).rxq = s.rxq := rfl
@[simp] theorem State.verdict_txs (c r p : Half) : (s.verdict c r p).txs = s.txs := rfl
@[simp] theorem State.verdict_hostProg (c r p : Half) : (s.verdict c r p).hostProg = s.hostProg := rfl
@[simp] theorem State.verdict_agenda (c r p : Half) : (s.verdict c r p).agenda = s.agenda := rfl
@[simp] theorem State.verdict_readData (c r p : Half) : (s.verdict c r p).readData = s.readData := rfl
@[simp] theorem State.verdict_draws (c r p : Half) : (s.verdict c r p).draws = s.draws := rfl

/-! `State.rxStart` (42_decode.md R170). -/

@[simp] theorem State.rxStart_cfg : s.rxStart.cfg = s.cfg := rfl
@[simp] theorem State.rxStart_opword : s.rxStart.opword = s.opword := rfl
@[simp] theorem State.rxStart_status : s.rxStart.status = s.status := rfl
@[simp] theorem State.rxStart_result : s.rxStart.result = s.result := rfl
@[simp] theorem State.rxStart_recv : s.rxStart.recv = s.recv := rfl
@[simp] theorem State.rxStart_offset : s.rxStart.offset = s.offset := rfl
@[simp] theorem State.rxStart_inLen : s.rxStart.inLen = s.inLen := rfl
@[simp] theorem State.rxStart_rxLen : s.rxStart.rxLen = 0 := rfl
@[simp] theorem State.rxStart_plen : s.rxStart.plen = s.plen := rfl
@[simp] theorem State.rxStart_signal : s.rxStart.signal = s.signal := rfl
@[simp] theorem State.rxStart_inBuf : s.rxStart.inBuf = s.inBuf := rfl
@[simp] theorem State.rxStart_rxBuf : s.rxStart.rxBuf = [] := rfl
@[simp] theorem State.rxStart_accCmd : s.rxStart.accCmd = s.accCmd := rfl
@[simp] theorem State.rxStart_accCrc : s.rxStart.accCrc = s.accCrc := rfl
@[simp] theorem State.rxStart_rxInf : s.rxStart.rxInf = false := rfl
@[simp] theorem State.rxStart_opcur : s.rxStart.opcur = s.opcur := rfl
@[simp] theorem State.rxStart_idx : s.rxStart.idx = s.idx := rfl
@[simp] theorem State.rxStart_phase : s.rxStart.phase = s.phase := rfl
@[simp] theorem State.rxStart_rxq : s.rxStart.rxq = s.rxq := rfl
@[simp] theorem State.rxStart_txs : s.rxStart.txs = s.txs := rfl
@[simp] theorem State.rxStart_hostProg : s.rxStart.hostProg = s.hostProg := rfl
@[simp] theorem State.rxStart_agenda : s.rxStart.agenda = s.agenda := rfl
@[simp] theorem State.rxStart_readData : s.rxStart.readData = s.readData := rfl
@[simp] theorem State.rxStart_draws : s.rxStart.draws = s.draws := rfl

/-! `State.launch` (60_exceptions.md R210). -/

@[simp] theorem State.launch_cfg (code : BitVec 4) : (s.launch code).cfg = s.cfg := rfl
@[simp] theorem State.launch_opword (code : BitVec 4) : (s.launch code).opword = s.opword := rfl
@[simp] theorem State.launch_status (code : BitVec 4) : (s.launch code).status = s.status.started := rfl
@[simp] theorem State.launch_result (code : BitVec 4) : (s.launch code).result = s.result := rfl
@[simp] theorem State.launch_recv (code : BitVec 4) : (s.launch code).recv = s.recv := rfl
@[simp] theorem State.launch_offset (code : BitVec 4) : (s.launch code).offset = s.offset := rfl
@[simp] theorem State.launch_inLen (code : BitVec 4) : (s.launch code).inLen = s.inLen := rfl
@[simp] theorem State.launch_rxLen (code : BitVec 4) : (s.launch code).rxLen = s.rxLen := rfl
@[simp] theorem State.launch_plen (code : BitVec 4) : (s.launch code).plen = s.plen := rfl
@[simp] theorem State.launch_signal (code : BitVec 4) : (s.launch code).signal = s.signal := rfl
@[simp] theorem State.launch_inBuf (code : BitVec 4) : (s.launch code).inBuf = s.inBuf := rfl
@[simp] theorem State.launch_rxBuf (code : BitVec 4) : (s.launch code).rxBuf = s.rxBuf := rfl
@[simp] theorem State.launch_accCmd (code : BitVec 4) : (s.launch code).accCmd = s.accCmd := rfl
@[simp] theorem State.launch_accCrc (code : BitVec 4) : (s.launch code).accCrc = s.accCrc := rfl
@[simp] theorem State.launch_rxInf (code : BitVec 4) : (s.launch code).rxInf = s.rxInf := rfl
@[simp] theorem State.launch_opcur (code : BitVec 4) : (s.launch code).opcur = some code := rfl
@[simp] theorem State.launch_idx (code : BitVec 4) : (s.launch code).idx = 0 := rfl
@[simp] theorem State.launch_phase (code : BitVec 4) : (s.launch code).phase = .start := rfl
@[simp] theorem State.launch_rxq (code : BitVec 4) : (s.launch code).rxq = s.rxq := rfl
@[simp] theorem State.launch_txs (code : BitVec 4) : (s.launch code).txs = s.txs := rfl
@[simp] theorem State.launch_hostProg (code : BitVec 4) : (s.launch code).hostProg = s.hostProg := rfl
@[simp] theorem State.launch_agenda (code : BitVec 4) : (s.launch code).agenda = s.agenda := rfl
@[simp] theorem State.launch_readData (code : BitVec 4) : (s.launch code).readData = s.readData := rfl
@[simp] theorem State.launch_draws (code : BitVec 4) : (s.launch code).draws = s.draws := rfl

/-! `State.dropWrite` (70_reset_and_hazards.md R251). -/

@[simp] theorem State.dropWrite_cfg : s.dropWrite.cfg = s.cfg := rfl
@[simp] theorem State.dropWrite_opword : s.dropWrite.opword = s.opword := rfl
@[simp] theorem State.dropWrite_status : s.dropWrite.status = s.status.dropped := rfl
@[simp] theorem State.dropWrite_result : s.dropWrite.result = s.result := rfl
@[simp] theorem State.dropWrite_recv : s.dropWrite.recv = s.recv := rfl
@[simp] theorem State.dropWrite_offset : s.dropWrite.offset = s.offset := rfl
@[simp] theorem State.dropWrite_inLen : s.dropWrite.inLen = s.inLen := rfl
@[simp] theorem State.dropWrite_rxLen : s.dropWrite.rxLen = s.rxLen := rfl
@[simp] theorem State.dropWrite_plen : s.dropWrite.plen = s.plen := rfl
@[simp] theorem State.dropWrite_signal : s.dropWrite.signal = s.signal := rfl
@[simp] theorem State.dropWrite_inBuf : s.dropWrite.inBuf = s.inBuf := rfl
@[simp] theorem State.dropWrite_rxBuf : s.dropWrite.rxBuf = s.rxBuf := rfl
@[simp] theorem State.dropWrite_accCmd : s.dropWrite.accCmd = s.accCmd := rfl
@[simp] theorem State.dropWrite_accCrc : s.dropWrite.accCrc = s.accCrc := rfl
@[simp] theorem State.dropWrite_rxInf : s.dropWrite.rxInf = s.rxInf := rfl
@[simp] theorem State.dropWrite_opcur : s.dropWrite.opcur = s.opcur := rfl
@[simp] theorem State.dropWrite_idx : s.dropWrite.idx = s.idx := rfl
@[simp] theorem State.dropWrite_phase : s.dropWrite.phase = s.phase := rfl
@[simp] theorem State.dropWrite_rxq : s.dropWrite.rxq = s.rxq := rfl
@[simp] theorem State.dropWrite_txs : s.dropWrite.txs = s.txs := rfl
@[simp] theorem State.dropWrite_hostProg : s.dropWrite.hostProg = s.hostProg := rfl
@[simp] theorem State.dropWrite_agenda : s.dropWrite.agenda = s.agenda := rfl
@[simp] theorem State.dropWrite_readData : s.dropWrite.readData = s.readData := rfl
@[simp] theorem State.dropWrite_draws : s.dropWrite.draws = s.draws := rfl

/-! `State.pushLines`. -/

@[simp] theorem State.pushLines_cfg (lines : List HostLine) : (s.pushLines lines).cfg = s.cfg := rfl
@[simp] theorem State.pushLines_opword (lines : List HostLine) : (s.pushLines lines).opword = s.opword := rfl
@[simp] theorem State.pushLines_status (lines : List HostLine) : (s.pushLines lines).status = s.status := rfl
@[simp] theorem State.pushLines_result (lines : List HostLine) : (s.pushLines lines).result = s.result := rfl
@[simp] theorem State.pushLines_recv (lines : List HostLine) : (s.pushLines lines).recv = s.recv := rfl
@[simp] theorem State.pushLines_offset (lines : List HostLine) : (s.pushLines lines).offset = s.offset := rfl
@[simp] theorem State.pushLines_inLen (lines : List HostLine) : (s.pushLines lines).inLen = s.inLen := rfl
@[simp] theorem State.pushLines_rxLen (lines : List HostLine) : (s.pushLines lines).rxLen = s.rxLen := rfl
@[simp] theorem State.pushLines_plen (lines : List HostLine) : (s.pushLines lines).plen = s.plen := rfl
@[simp] theorem State.pushLines_signal (lines : List HostLine) : (s.pushLines lines).signal = s.signal := rfl
@[simp] theorem State.pushLines_inBuf (lines : List HostLine) : (s.pushLines lines).inBuf = s.inBuf := rfl
@[simp] theorem State.pushLines_rxBuf (lines : List HostLine) : (s.pushLines lines).rxBuf = s.rxBuf := rfl
@[simp] theorem State.pushLines_accCmd (lines : List HostLine) : (s.pushLines lines).accCmd = s.accCmd := rfl
@[simp] theorem State.pushLines_accCrc (lines : List HostLine) : (s.pushLines lines).accCrc = s.accCrc := rfl
@[simp] theorem State.pushLines_rxInf (lines : List HostLine) : (s.pushLines lines).rxInf = s.rxInf := rfl
@[simp] theorem State.pushLines_opcur (lines : List HostLine) : (s.pushLines lines).opcur = s.opcur := rfl
@[simp] theorem State.pushLines_idx (lines : List HostLine) : (s.pushLines lines).idx = s.idx := rfl
@[simp] theorem State.pushLines_phase (lines : List HostLine) : (s.pushLines lines).phase = s.phase := rfl
@[simp] theorem State.pushLines_rxq (lines : List HostLine) : (s.pushLines lines).rxq = s.rxq := rfl
@[simp] theorem State.pushLines_txs (lines : List HostLine) : (s.pushLines lines).txs = s.txs := rfl
@[simp] theorem State.pushLines_hostProg (lines : List HostLine) : (s.pushLines lines).hostProg = lines ++ s.hostProg := rfl
@[simp] theorem State.pushLines_agenda (lines : List HostLine) : (s.pushLines lines).agenda = s.agenda := rfl
@[simp] theorem State.pushLines_readData (lines : List HostLine) : (s.pushLines lines).readData = s.readData := rfl
@[simp] theorem State.pushLines_draws (lines : List HostLine) : (s.pushLines lines).draws = s.draws := rfl

/-! `State.returnRead` (20_memory.md R56). -/

@[simp] theorem State.returnRead_cfg (v : Word) : (s.returnRead v).cfg = s.cfg := rfl
@[simp] theorem State.returnRead_opword (v : Word) : (s.returnRead v).opword = s.opword := rfl
@[simp] theorem State.returnRead_status (v : Word) : (s.returnRead v).status = s.status := rfl
@[simp] theorem State.returnRead_result (v : Word) : (s.returnRead v).result = s.result := rfl
@[simp] theorem State.returnRead_recv (v : Word) : (s.returnRead v).recv = s.recv := rfl
@[simp] theorem State.returnRead_offset (v : Word) : (s.returnRead v).offset = s.offset := rfl
@[simp] theorem State.returnRead_inLen (v : Word) : (s.returnRead v).inLen = s.inLen := rfl
@[simp] theorem State.returnRead_rxLen (v : Word) : (s.returnRead v).rxLen = s.rxLen := rfl
@[simp] theorem State.returnRead_plen (v : Word) : (s.returnRead v).plen = s.plen := rfl
@[simp] theorem State.returnRead_signal (v : Word) : (s.returnRead v).signal = s.signal := rfl
@[simp] theorem State.returnRead_inBuf (v : Word) : (s.returnRead v).inBuf = s.inBuf := rfl
@[simp] theorem State.returnRead_rxBuf (v : Word) : (s.returnRead v).rxBuf = s.rxBuf := rfl
@[simp] theorem State.returnRead_accCmd (v : Word) : (s.returnRead v).accCmd = s.accCmd := rfl
@[simp] theorem State.returnRead_accCrc (v : Word) : (s.returnRead v).accCrc = s.accCrc := rfl
@[simp] theorem State.returnRead_rxInf (v : Word) : (s.returnRead v).rxInf = s.rxInf := rfl
@[simp] theorem State.returnRead_opcur (v : Word) : (s.returnRead v).opcur = s.opcur := rfl
@[simp] theorem State.returnRead_idx (v : Word) : (s.returnRead v).idx = s.idx := rfl
@[simp] theorem State.returnRead_phase (v : Word) : (s.returnRead v).phase = s.phase := rfl
@[simp] theorem State.returnRead_rxq (v : Word) : (s.returnRead v).rxq = s.rxq := rfl
@[simp] theorem State.returnRead_txs (v : Word) : (s.returnRead v).txs = s.txs := rfl
@[simp] theorem State.returnRead_hostProg (v : Word) : (s.returnRead v).hostProg = s.hostProg := rfl
@[simp] theorem State.returnRead_agenda (v : Word) : (s.returnRead v).agenda = s.agenda := rfl
@[simp] theorem State.returnRead_readData (v : Word) : (s.returnRead v).readData = v := rfl
@[simp] theorem State.returnRead_draws (v : Word) : (s.returnRead v).draws = s.draws + 1 := rfl

/-! `State.setAgenda`. -/

@[simp] theorem State.setAgenda_cfg (turns : List Turn) : (s.setAgenda turns).cfg = s.cfg := rfl
@[simp] theorem State.setAgenda_opword (turns : List Turn) : (s.setAgenda turns).opword = s.opword := rfl
@[simp] theorem State.setAgenda_status (turns : List Turn) : (s.setAgenda turns).status = s.status := rfl
@[simp] theorem State.setAgenda_result (turns : List Turn) : (s.setAgenda turns).result = s.result := rfl
@[simp] theorem State.setAgenda_recv (turns : List Turn) : (s.setAgenda turns).recv = s.recv := rfl
@[simp] theorem State.setAgenda_offset (turns : List Turn) : (s.setAgenda turns).offset = s.offset := rfl
@[simp] theorem State.setAgenda_inLen (turns : List Turn) : (s.setAgenda turns).inLen = s.inLen := rfl
@[simp] theorem State.setAgenda_rxLen (turns : List Turn) : (s.setAgenda turns).rxLen = s.rxLen := rfl
@[simp] theorem State.setAgenda_plen (turns : List Turn) : (s.setAgenda turns).plen = s.plen := rfl
@[simp] theorem State.setAgenda_signal (turns : List Turn) : (s.setAgenda turns).signal = s.signal := rfl
@[simp] theorem State.setAgenda_inBuf (turns : List Turn) : (s.setAgenda turns).inBuf = s.inBuf := rfl
@[simp] theorem State.setAgenda_rxBuf (turns : List Turn) : (s.setAgenda turns).rxBuf = s.rxBuf := rfl
@[simp] theorem State.setAgenda_accCmd (turns : List Turn) : (s.setAgenda turns).accCmd = s.accCmd := rfl
@[simp] theorem State.setAgenda_accCrc (turns : List Turn) : (s.setAgenda turns).accCrc = s.accCrc := rfl
@[simp] theorem State.setAgenda_rxInf (turns : List Turn) : (s.setAgenda turns).rxInf = s.rxInf := rfl
@[simp] theorem State.setAgenda_opcur (turns : List Turn) : (s.setAgenda turns).opcur = s.opcur := rfl
@[simp] theorem State.setAgenda_idx (turns : List Turn) : (s.setAgenda turns).idx = s.idx := rfl
@[simp] theorem State.setAgenda_phase (turns : List Turn) : (s.setAgenda turns).phase = s.phase := rfl
@[simp] theorem State.setAgenda_rxq (turns : List Turn) : (s.setAgenda turns).rxq = s.rxq := rfl
@[simp] theorem State.setAgenda_txs (turns : List Turn) : (s.setAgenda turns).txs = s.txs := rfl
@[simp] theorem State.setAgenda_hostProg (turns : List Turn) : (s.setAgenda turns).hostProg = s.hostProg := rfl
@[simp] theorem State.setAgenda_agenda (turns : List Turn) : (s.setAgenda turns).agenda = turns := rfl
@[simp] theorem State.setAgenda_readData (turns : List Turn) : (s.setAgenda turns).readData = s.readData := rfl
@[simp] theorem State.setAgenda_draws (turns : List Turn) : (s.setAgenda turns).draws = s.draws := rfl

/-! `State.setProg`. -/

@[simp] theorem State.setProg_cfg (lines : List HostLine) : (s.setProg lines).cfg = s.cfg := rfl
@[simp] theorem State.setProg_opword (lines : List HostLine) : (s.setProg lines).opword = s.opword := rfl
@[simp] theorem State.setProg_status (lines : List HostLine) : (s.setProg lines).status = s.status := rfl
@[simp] theorem State.setProg_result (lines : List HostLine) : (s.setProg lines).result = s.result := rfl
@[simp] theorem State.setProg_recv (lines : List HostLine) : (s.setProg lines).recv = s.recv := rfl
@[simp] theorem State.setProg_offset (lines : List HostLine) : (s.setProg lines).offset = s.offset := rfl
@[simp] theorem State.setProg_inLen (lines : List HostLine) : (s.setProg lines).inLen = s.inLen := rfl
@[simp] theorem State.setProg_rxLen (lines : List HostLine) : (s.setProg lines).rxLen = s.rxLen := rfl
@[simp] theorem State.setProg_plen (lines : List HostLine) : (s.setProg lines).plen = s.plen := rfl
@[simp] theorem State.setProg_signal (lines : List HostLine) : (s.setProg lines).signal = s.signal := rfl
@[simp] theorem State.setProg_inBuf (lines : List HostLine) : (s.setProg lines).inBuf = s.inBuf := rfl
@[simp] theorem State.setProg_rxBuf (lines : List HostLine) : (s.setProg lines).rxBuf = s.rxBuf := rfl
@[simp] theorem State.setProg_accCmd (lines : List HostLine) : (s.setProg lines).accCmd = s.accCmd := rfl
@[simp] theorem State.setProg_accCrc (lines : List HostLine) : (s.setProg lines).accCrc = s.accCrc := rfl
@[simp] theorem State.setProg_rxInf (lines : List HostLine) : (s.setProg lines).rxInf = s.rxInf := rfl
@[simp] theorem State.setProg_opcur (lines : List HostLine) : (s.setProg lines).opcur = s.opcur := rfl
@[simp] theorem State.setProg_idx (lines : List HostLine) : (s.setProg lines).idx = s.idx := rfl
@[simp] theorem State.setProg_phase (lines : List HostLine) : (s.setProg lines).phase = s.phase := rfl
@[simp] theorem State.setProg_rxq (lines : List HostLine) : (s.setProg lines).rxq = s.rxq := rfl
@[simp] theorem State.setProg_txs (lines : List HostLine) : (s.setProg lines).txs = s.txs := rfl
@[simp] theorem State.setProg_hostProg (lines : List HostLine) : (s.setProg lines).hostProg = lines := rfl
@[simp] theorem State.setProg_agenda (lines : List HostLine) : (s.setProg lines).agenda = s.agenda := rfl
@[simp] theorem State.setProg_readData (lines : List HostLine) : (s.setProg lines).readData = s.readData := rfl
@[simp] theorem State.setProg_draws (lines : List HostLine) : (s.setProg lines).draws = s.draws := rfl

/-! The updates of STATUS (10_state.md R24, R40). -/

variable (st : Status)

@[simp] theorem Status.finish_busy : st.finish.busy = false := rfl
@[simp] theorem Status.finish_done : st.finish.done = true := rfl
@[simp] theorem Status.finish_kind : st.finish.kind = st.kind := rfl
@[simp] theorem Status.finish_ckValid : st.finish.ckValid = st.ckValid := rfl
@[simp] theorem Status.finish_ckOk : st.finish.ckOk = st.ckOk := rfl
@[simp] theorem Status.finish_herr : st.finish.herr = st.herr := rfl
@[simp] theorem Status.finish_err : st.finish.err = st.err := rfl

@[simp] theorem Status.cleared_busy : st.cleared.busy = false := rfl
@[simp] theorem Status.cleared_done : st.cleared.done = false := rfl
@[simp] theorem Status.cleared_kind : st.cleared.kind = 0 := rfl
@[simp] theorem Status.cleared_ckValid : st.cleared.ckValid = false := rfl
@[simp] theorem Status.cleared_ckOk : st.cleared.ckOk = false := rfl
@[simp] theorem Status.cleared_herr : st.cleared.herr = st.herr := rfl
@[simp] theorem Status.cleared_err : st.cleared.err = 0 := rfl

@[simp] theorem Status.withErr_busy (e : ErrCode) : (st.withErr e).busy = st.busy := rfl
@[simp] theorem Status.withErr_done (e : ErrCode) : (st.withErr e).done = st.done := rfl
@[simp] theorem Status.withErr_kind (e : ErrCode) : (st.withErr e).kind = st.kind := rfl
@[simp] theorem Status.withErr_ckValid (e : ErrCode) : (st.withErr e).ckValid = st.ckValid := rfl
@[simp] theorem Status.withErr_ckOk (e : ErrCode) : (st.withErr e).ckOk = st.ckOk := rfl
@[simp] theorem Status.withErr_herr (e : ErrCode) : (st.withErr e).herr = st.herr := rfl
@[simp] theorem Status.withErr_err (e : ErrCode) : (st.withErr e).err = e.bits := rfl

@[simp] theorem Status.withKind_busy (k : BitVec 2) : (st.withKind k).busy = st.busy := rfl
@[simp] theorem Status.withKind_done (k : BitVec 2) : (st.withKind k).done = st.done := rfl
@[simp] theorem Status.withKind_kind (k : BitVec 2) : (st.withKind k).kind = k := rfl
@[simp] theorem Status.withKind_ckValid (k : BitVec 2) : (st.withKind k).ckValid = st.ckValid := rfl
@[simp] theorem Status.withKind_ckOk (k : BitVec 2) : (st.withKind k).ckOk = st.ckOk := rfl
@[simp] theorem Status.withKind_herr (k : BitVec 2) : (st.withKind k).herr = st.herr := rfl
@[simp] theorem Status.withKind_err (k : BitVec 2) : (st.withKind k).err = st.err := rfl

@[simp] theorem Status.started_busy : st.started.busy = true := rfl
@[simp] theorem Status.started_done : st.started.done = st.done := rfl
@[simp] theorem Status.started_kind : st.started.kind = st.kind := rfl
@[simp] theorem Status.started_ckValid : st.started.ckValid = st.ckValid := rfl
@[simp] theorem Status.started_ckOk : st.started.ckOk = st.ckOk := rfl
@[simp] theorem Status.started_herr : st.started.herr = st.herr := rfl
@[simp] theorem Status.started_err : st.started.err = st.err := rfl

@[simp] theorem Status.dropped_busy : st.dropped.busy = st.busy := rfl
@[simp] theorem Status.dropped_done : st.dropped.done = st.done := rfl
@[simp] theorem Status.dropped_kind : st.dropped.kind = st.kind := rfl
@[simp] theorem Status.dropped_ckValid : st.dropped.ckValid = st.ckValid := rfl
@[simp] theorem Status.dropped_ckOk : st.dropped.ckOk = st.ckOk := rfl
@[simp] theorem Status.dropped_herr : st.dropped.herr = true := rfl
@[simp] theorem Status.dropped_err : st.dropped.err = st.err := rfl

@[simp] theorem Status.herrCleared_busy : st.herrCleared.busy = st.busy := rfl
@[simp] theorem Status.herrCleared_done : st.herrCleared.done = st.done := rfl
@[simp] theorem Status.herrCleared_kind : st.herrCleared.kind = st.kind := rfl
@[simp] theorem Status.herrCleared_ckValid : st.herrCleared.ckValid = st.ckValid := rfl
@[simp] theorem Status.herrCleared_ckOk : st.herrCleared.ckOk = st.ckOk := rfl
@[simp] theorem Status.herrCleared_herr : st.herrCleared.herr = false := rfl
@[simp] theorem Status.herrCleared_err : st.herrCleared.err = st.err := rfl

/-! `Status.compared`: the comparison's flags (42_decode.md R177). -/

@[simp] theorem Status.compared_busy (c r : Half) : (st.compared c r).busy = st.busy := by
  unfold Status.compared; split <;> simp_all

@[simp] theorem Status.compared_done (c r : Half) : (st.compared c r).done = st.done := by
  unfold Status.compared; split <;> simp_all

@[simp] theorem Status.compared_kind (c r : Half) : (st.compared c r).kind = st.kind := by
  unfold Status.compared; split <;> simp_all

@[simp] theorem Status.compared_herr (c r : Half) : (st.compared c r).herr = st.herr := by
  unfold Status.compared; split <;> simp_all

@[simp] theorem Status.compared_ckValid (c r : Half) : (st.compared c r).ckValid = true := by
  unfold Status.compared; split <;> simp_all

@[simp] theorem Status.compared_ckOk (c r : Half) : (st.compared c r).ckOk = decide (c = r) := by
  unfold Status.compared; split <;> simp_all

@[simp] theorem Status.compared_err (c r : Half) : (st.compared c r).err = if c = r then st.err else ErrCode.ckMismatch.bits := by
  unfold Status.compared; split <;> simp_all

end Sys2Proof.Machine
end

