-- ==== Sys2Proof/Laws/Memory.lean ====
section
/-! SUPPORT. The laws of the buffers: read after write, the canonical form, and reading a span. -/

namespace Sys2Proof.Machine

@[simp] theorem Memory.read_nil (i : Nat) : Memory.read [] i = none := rfl

/-- A read after a write to the same index gives the byte written. -/
@[simp] theorem Memory.read_write_same (m : Memory) (i : Nat) (b : Byte) :
    Memory.read (Memory.write m i b) i = some b := by
  induction m with
  | nil => simp [Memory.write, Memory.read]
  | cons c rest ih =>
    simp only [Memory.write]
    split
    · simp [Memory.read]
    · split
      · simp [Memory.read]
      · simp_all [Memory.read]

/-- A write leaves every other index alone. -/
theorem Memory.read_write_other (m : Memory) {i j : Nat} (b : Byte) (h : j ≠ i) :
    Memory.read (Memory.write m i b) j = Memory.read m j := by
  induction m with
  | nil => simp [Memory.write, Memory.read, Ne.symm h]
  | cons c rest ih =>
    simp only [Memory.write]
    split
    · simp [Memory.read, Ne.symm h]
    · split
      · rename_i _ hc
        simp [Memory.read, hc, Ne.symm h]
      · simp only [Memory.read, ih]

theorem Memory.read_write (m : Memory) (i j : Nat) (b : Byte) :
    Memory.read (Memory.write m i b) j = if j = i then some b else Memory.read m j := by
  split
  · next h => subst h; simp
  · next h => exact Memory.read_write_other m b h

/-- The indices a write leaves listed. -/
theorem Memory.mem_write {m : Memory} {i : Nat} {b : Byte} {c : Host.Cell} (h : c ∈ Memory.write m i b) :
    c = (i, b) ∨ c ∈ m := by
  induction m with
  | nil => simpa [Memory.write] using h
  | cons d rest ih =>
    simp only [Memory.write] at h
    split at h
    · simpa using h
    · split at h
      · simp only [List.mem_cons] at h ⊢; tauto
      · simp only [List.mem_cons] at h ⊢; tauto

/-- Every write keeps the canonical form. -/
theorem Memory.write_wf {m : Memory} (h : Memory.wf m) (i : Nat) (b : Byte) : Memory.wf (Memory.write m i b) := by
  induction m with
  | nil => simp [Memory.write, Memory.wf]
  | cons c rest ih =>
    have hc : ∀ d ∈ rest, c.1 < d.1 := by
      intro d hd
      simp only [Memory.wf, List.map_cons, List.pairwise_cons] at h
      exact h.1 d.1 (List.mem_map_of_mem hd)
    have hr : Memory.wf rest := by
      simp only [Memory.wf, List.map_cons, List.pairwise_cons] at h
      exact h.2
    simp only [Memory.write]
    split
    · next hlt =>
      simp only [Memory.wf, List.map_cons, List.pairwise_cons, List.mem_cons, forall_eq_or_imp] at h ⊢
      exact ⟨⟨hlt, fun a ha => lt_trans hlt (h.1 a ha)⟩, h⟩
    · split
      · next heq =>
        simp only [Memory.wf, List.map_cons, List.pairwise_cons] at h ⊢
        exact ⟨fun a ha => heq ▸ h.1 a ha, h.2⟩
      · next hge hne =>
        simp only [Memory.wf, List.map_cons, List.pairwise_cons]
        refine ⟨?_, ih hr⟩
        intro a ha
        obtain ⟨d, hd, rfl⟩ := List.mem_map.1 ha
        rcases Memory.mem_write hd with rfl | hd
        · simp only; omega
        · exact hc d hd

/-- The reset buffers have the canonical form. -/
theorem Memory.reset_wf : Memory.wf State.reset.inBuf ∧ Memory.wf State.reset.rxBuf := by decide

/-- A host write to IN keeps the canonical form, in whatever state (20_memory.md R57). -/
theorem State.writeIn_wf {s : State} (h : Memory.wf s.inBuf) (i : Nat) (b : Byte) :
    Memory.wf (s.writeIn i b).inBuf := by
  unfold State.writeIn State.unlessBusy
  split_ifs
  · exact h
  · exact h
  · exact Memory.write_wf h i b

/-- A write above every listed index is an append. -/
theorem Memory.write_append (m : Memory) (i : Nat) (b : Byte) (h : ∀ c ∈ m, c.1 < i) :
    Memory.write m i b = m ++ [(i, b)] := by
  induction m with
  | nil => rfl
  | cons c rest ih =>
    have hc := h c (by simp)
    have hr := ih (fun d hd => h d (by simp [hd]))
    simp only [Memory.write, hr, List.cons_append]
    rw [if_neg (by omega), if_neg (by omega)]

/-- An index above every listed one is unlisted. -/
theorem Memory.read_none_of_lt (m : Memory) (i : Nat) (h : ∀ c ∈ m, c.1 < i) : Memory.read m i = none := by
  induction m with
  | nil => rfl
  | cons c rest ih =>
    have hc := h c (by simp)
    simp only [Memory.read]
    rw [if_neg (by omega)]
    exact ih (fun d hd => h d (by simp [hd]))

/-! ## Spans -/

@[simp] theorem Memory.span_zero (m : Memory) (i : Nat) : Memory.span m i 0 = .ok [] := rfl

/-- A span is read exactly when each of its bytes is. -/
theorem Memory.span_ok {m : Memory} {i k : Nat} {s : List Byte} (h : Memory.span m i k = .ok s) :
    s.length = k ∧ ∀ j (hj : j < s.length), Memory.read m (i + j) = some s[j] := by
  induction k generalizing i s with
  | zero => cases h; simp
  | succ k ih =>
    simp only [Memory.span] at h
    split at h
    · cases h
    · next b hb =>
      split at h
      · cases h
      · next t ht =>
        cases h
        obtain ⟨hl, hr⟩ := ih ht
        refine ⟨by simp [hl], ?_⟩
        intro j hj
        cases j with
        | zero => simpa using hb
        | succ j =>
          have := hr j (by simpa using hj)
          simpa [Nat.add_assoc, Nat.add_comm 1 j] using this

theorem Memory.span_length {m : Memory} {i k : Nat} {s : List Byte} (h : Memory.span m i k = .ok s) :
    s.length = k := (Memory.span_ok h).1

theorem Memory.span_read {m : Memory} {i k : Nat} {s : List Byte} (h : Memory.span m i k = .ok s) {j : Nat}
    (hj : j < k) : Memory.read m (i + j) = s[j]? := by
  have hl := Memory.span_length h
  rw [(Memory.span_ok h).2 j (by omega), List.getElem?_eq_getElem (by omega)]

/-- Bytes that are there can be read as a span. -/
theorem Memory.span_of_read {m : Memory} {i : Nat} {s : List Byte}
    (h : ∀ j (hj : j < s.length), Memory.read m (i + j) = some s[j]) : Memory.span m i s.length = .ok s := by
  induction s generalizing i with
  | nil => rfl
  | cons b rest ih =>
    have h0 := h 0 (by simp)
    have hr : Memory.span m (i + 1) rest.length = .ok rest := by
      apply ih
      intro j hj
      have := h (j + 1) (by simpa using hj)
      simpa [Nat.add_assoc, Nat.add_comm 1 j] using this
    simp only [List.length_cons, Memory.span]
    simp only [Nat.add_zero, List.getElem_cons_zero] at h0
    rw [h0, hr]

/-- Part of a readable span is readable. -/
theorem Memory.span_sub {m : Memory} {k : Nat} {s : List Byte} (h : Memory.span m 0 k = .ok s) (a n : Nat)
    (hb : a + n ≤ k) : Memory.span m a n = .ok ((s.drop a).take n) := by
  obtain ⟨hl, hr⟩ := Memory.span_ok h
  have hn : ((s.drop a).take n).length = n := by simp; omega
  rw [show Memory.span m a n = Memory.span m a ((s.drop a).take n).length by rw [hn]]
  apply Memory.span_of_read
  intro j hj
  have := hr (a + j) (by omega)
  simpa using this

/-- A span that cannot be read names its first unwritten index. -/
theorem Memory.span_error {m : Memory} {i k e : Nat} (h : Memory.span m i k = .error e) :
    i ≤ e ∧ e < i + k ∧ Memory.read m e = none := by
  induction k generalizing i with
  | zero => cases h
  | succ k ih =>
    simp only [Memory.span] at h
    split at h
    · next hb => cases h; exact ⟨le_refl _, by omega, hb⟩
    · split at h
      · next e' he =>
        cases h
        obtain ⟨h1, h2, h3⟩ := ih he
        exact ⟨by omega, by omega, h3⟩
      · cases h

/-- Every byte of a span before the first unwritten one has been written. -/
theorem Memory.span_error_before {m : Memory} {i k e : Nat} (h : Memory.span m i k = .error e) {j : Nat} (hi : i ≤ j)
    (he : j < e) : Memory.read m j ≠ none := by
  induction k generalizing i with
  | zero => cases h
  | succ k ih =>
    rw [Memory.span] at h
    split at h
    · cases h; omega
    · next b hr =>
      split at h
      · next hs =>
        cases h
        by_cases hj : j = i
        · simp [hj, hr]
        · exact ih hs (by omega)
      · cases h

/-- A span stops at its first unwritten byte. -/
theorem Memory.span_stops {m : Memory} {i k e : Nat} (hi : i ≤ e) (hk : e < i + k)
    (h : ∀ j, i ≤ j → j < e → Memory.read m j ≠ none) (he : Memory.read m e = none) : Memory.span m i k = .error e := by
  induction k generalizing i with
  | zero => omega
  | succ k ih =>
    rw [Memory.span]
    by_cases hj : e = i
    · rw [← hj, he]
    · cases hr : Memory.read m i with
      | none => exact absurd hr (h i (le_refl _) (by omega))
      | some b =>
        dsimp only
        rw [ih (by omega) (by omega) (fun j h1 h2 => h j (by omega) h2)]

/-- A prepared IN byte, by its index. -/
theorem State.readIn_of_loaded {s : State} {bytes : List Byte} (h : s.loaded bytes) {j : Nat} (hj : j < s.len) :
    s.readIn j = bytes[j]? := by
  simpa [State.readIn] using Memory.span_read (m := s.inBuf) h hj

/-! ## Buffers listed from index 0 on -/

/-- The bytes of such a buffer, by index. -/
theorem Memory.read_ofBytes (bytes : List Byte) (i : Nat) : Memory.read (Memory.ofBytes bytes) i = bytes[i]? := by
  have shift : ∀ (l : List Byte) (a i : Nat), Memory.read ((List.range' a l.length).zip l) i =
      if a ≤ i then l[i - a]? else none := by
    intro l
    induction l with
    | nil => simp
    | cons b rest ih =>
      intro a i
      simp only [List.length_cons, List.range'_succ, List.zip_cons_cons, Memory.read, ih]
      rcases Nat.lt_trichotomy a i with h | h | h
      · rw [if_neg (by omega), if_pos (by omega), if_pos (by omega), show i - a = (i - (a + 1)) + 1 by omega]
        rfl
      · subst h; simp
      · rw [if_neg (by omega), if_neg (by omega), if_neg (by omega)]
  rw [Memory.ofBytes, List.range_eq_range', shift]
  simp

/-- One more byte at the end. -/
theorem Memory.write_ofBytes (bytes : List Byte) (b : Byte) :
    Memory.write (Memory.ofBytes bytes) bytes.length b = Memory.ofBytes (bytes ++ [b]) := by
  rw [Memory.write_append]
  · simp [Memory.ofBytes, List.range_succ, List.zip_append]
  · intro c hc
    have := (List.of_mem_zip hc).1
    simpa using this

theorem Memory.ofBytes_indices (bytes : List Byte) :
    (Memory.ofBytes bytes).map Prod.fst = List.range bytes.length := by
  simp [Memory.ofBytes, List.map_fst_zip]

end Sys2Proof.Machine
end

