-- ==== Sys2Proof/Laws/Flight.lean ====
section
/-! SUPPORT. What is in flight: who names it and which updates leave it alone; and what an operation word decodes to. -/

namespace Sys2Proof

/-- The nine codes of R82 and their operations. -/
theorem instrOfCode_cases {c : BitVec 4} {a : Byte} {i : Instr} (h : instrOfCode c a = some i) :
    (c = 1 ∧ i = .cksCmd) ∨ (c = 2 ∧ i = .cksCrc) ∨ (c = 3 ∧ i = .encCmd) ∨ (c = 4 ∧ i = .encRaw) ∨
    (c = 5 ∧ i = .encChunk) ∨ (c = 6 ∧ i = .sigTx a) ∨ (c = 7 ∧ i = .rxFrame) ∨ (c = 8 ∧ i = .verCmd) ∨
    (c = 9 ∧ i = .verCrc) := by
  unfold instrOfCode at h
  split_ifs at h <;> simp_all

/-- What a legal word's fields are (R83). -/
theorem decodeWord_ok {w : Word} {i : Instr} (h : decodeWord w = .ok i) :
    rsv0Field w = 0 ∧ rsv1Field w = 0 ∧ (opField w = 6 ∨ arg8Field w = 0) ∧
      instrOfCode (opField w) (arg8Field w) = some i := by
  unfold decodeWord at h
  split at h
  · cases h
  · next hn =>
    split at h
    · next j hj => cases h; refine ⟨?_, ?_, ?_, hj⟩ <;> tauto
    · cases h

namespace Machine

variable {s : State}

theorem State.inFlight_of_idle (h : s.status.busy = false) : s.inFlight = none := by simp [State.inFlight, h]

theorem State.busy_of_inFlight {i : Instr} (h : s.inFlight = some i) : s.status.busy = true := by
  unfold State.inFlight at h
  split at h
  · assumption
  · cases h

/-- In flight means BUSY, OPCUR and ARG8; whatever keeps these three keeps it. -/
theorem State.inFlight_congr {t : State} (h1 : t.status.busy = s.status.busy) (h2 : t.opcur = s.opcur)
    (h3 : t.opword = s.opword) : t.inFlight = s.inFlight := by
  simp [State.inFlight, h1, h2, h3]

/-- An operation in flight is one of the nine operation words. -/
theorem State.inFlight_word {i : Instr} (h : s.inFlight = some i) : ∃ c, instrOfCode c (arg8Field s.opword) = some i := by
  unfold State.inFlight at h
  split at h
  · split at h
    · cases h
    · exact ⟨_, h⟩
  · cases h

theorem State.inFlight_of_decode {i : Instr} (hb : s.status.busy = true) (ho : s.opcur = some (opField s.opword))
    (hd : decodeWord s.opword = .ok i) : s.inFlight = some i := by
  simp [State.inFlight, hb, ho, (decodeWord_ok hd).2.2.2]

@[simp] theorem State.inFlight_emit (b : Byte) : (s.emit b).inFlight = s.inFlight := rfl
@[simp] theorem State.inFlight_setAgenda (a : List Turn) : (s.setAgenda a).inFlight = s.inFlight := rfl
@[simp] theorem State.inFlight_setProg (l : List HostLine) : (s.setProg l).inFlight = s.inFlight := rfl
@[simp] theorem State.inFlight_pushLines (l : List HostLine) : (s.pushLines l).inFlight = s.inFlight := rfl
@[simp] theorem State.inFlight_returnRead (v : Word) : (s.returnRead v).inFlight = s.inFlight := rfl
@[simp] theorem State.inFlight_dropWrite : s.dropWrite.inFlight = s.inFlight := rfl
@[simp] theorem State.inFlight_finish : s.finish.inFlight = none := by simp [State.inFlight]
@[simp] theorem State.inFlight_raise (e : ErrCode) : (s.raise e).inFlight = none := by simp [State.inFlight]
@[simp] theorem State.inFlight_finishResult (v : Half) : (s.finishResult v).inFlight = none := by simp [State.inFlight]
@[simp] theorem State.inFlight_verdict (c r p : Half) : (s.verdict c r p).inFlight = none := by simp [State.inFlight]

/-- Accepting a legal word puts its operation in flight (60_exceptions.md R210). -/
theorem State.startOp_inFlight (s : State) {w : Word} {i : Instr} (h : decodeWord w = .ok i) :
    (s.startOp w).inFlight = some i := by
  have hc := (decodeWord_ok h).2.2.2
  unfold State.startOp
  rw [h]
  cases i <;> simpa [State.inFlight, State.launch, State.rxStart, Status.started] using hc

/-- `rx_timeout` while RX_FRAME is in flight (60_exceptions.md R215). -/
theorem State.timeout_of_reader (h : s.inFlight = some .rxFrame) : s.timeout = s.raise .rxTimeout := if_pos h

/-- `rx_timeout` at any other time. -/
theorem State.timeout_of_not_reader (h : s.inFlight ≠ some .rxFrame) : s.timeout = s := if_neg h

/-- Accepting a word leaves the agenda and the HOST's program alone. -/
@[simp] theorem State.startOp_agenda (s : State) (w : Word) : (s.startOp w).agenda = s.agenda := by
  unfold State.startOp
  dsimp only
  split <;> rfl

@[simp] theorem State.startOp_hostProg (s : State) (w : Word) : (s.startOp w).hostProg = s.hostProg := by
  unfold State.startOp
  dsimp only
  split <;> rfl

end Machine

end Sys2Proof
end

