-- ==== Sys2Proof/Laws/Decode.lean ====
section
/-! SUPPORT. Byte packing (00_scope.md R11), the fields of an operation word (30_encoding.md R81) and the pieces of a
wire payload (R76 to R78). -/

namespace Sys2Proof

/-! ## Byte packing -/

theorem toNat_append {m n : Nat} (a : BitVec n) (b : BitVec m) : (a ++ b).toNat = a.toNat * 2 ^ m + b.toNat := by
  rw [BitVec.toNat_append, ← Nat.shiftLeft_add_eq_or_of_lt b.isLt, Nat.shiftLeft_eq]

theorem toNat_extract {n : Nat} (v : BitVec n) (start len : Nat) :
    (v.extractLsb' start len).toNat = v.toNat / 2 ^ start % 2 ^ len := by
  rw [BitVec.extractLsb'_toNat, Nat.shiftRight_eq_div_pow]

@[simp] theorem ofBe16_hi_lo (v : Half) : ofBe16 (hiByte v) (loByte v) = v := by
  apply BitVec.eq_of_toNat_eq
  simp only [ofBe16, hiByte, loByte, toNat_append, toNat_extract]
  have := v.isLt
  omega

@[simp] theorem hiByte_ofBe16 (hi lo : Byte) : hiByte (ofBe16 hi lo) = hi := by
  apply BitVec.eq_of_toNat_eq
  simp only [ofBe16, hiByte, toNat_append, toNat_extract]
  have := hi.isLt
  have := lo.isLt
  omega

@[simp] theorem loByte_ofBe16 (hi lo : Byte) : loByte (ofBe16 hi lo) = lo := by
  apply BitVec.eq_of_toNat_eq
  simp only [ofBe16, loByte, toNat_append, toNat_extract]
  have := hi.isLt
  have := lo.isLt
  omega

theorem ofBe32_bytes (v : Word) :
    ofBe32 (v.extractLsb' 24 8) (v.extractLsb' 16 8) (v.extractLsb' 8 8) (v.extractLsb' 0 8) = v := by
  apply BitVec.eq_of_toNat_eq
  simp only [ofBe32, toNat_append, toNat_extract]
  have := v.isLt
  omega

theorem be32_ofBe32 (b3 b2 b1 b0 : Byte) : be32 (ofBe32 b3 b2 b1 b0) = [b3, b2, b1, b0] := by
  have := b3.isLt
  have := b2.isLt
  have := b1.isLt
  have := b0.isLt
  simp only [be32, List.cons.injEq, and_true]
  refine ⟨?_, ?_, ?_, ?_⟩ <;>
  · apply BitVec.eq_of_toNat_eq
    simp only [ofBe32, toNat_append, toNat_extract]
    omega

@[simp] theorem be16_length (v : Half) : (be16 v).length = 2 := rfl

@[simp] theorem be32_length (v : Word) : (be32 v).length = 4 := rfl

/-! ## Operation words -/

/-- A word is its four fields (R81). -/
theorem word_fields (w : Word) :
    w.toNat = (rsv1Field w).toNat * 65536 + (arg8Field w).toNat * 256 + (rsv0Field w).toNat * 16 + (opField w).toNat := by
  simp only [rsv1Field, arg8Field, rsv0Field, opField, toNat_extract]
  have := w.isLt
  omega

/-- The number of a SIG_TX word. -/
theorem sigTx_word_toNat (a : Byte) : ((a.setWidth 32 <<< 8) ||| 0x6 : Word).toNat = a.toNat * 256 + 6 := by
  have := a.isLt
  have h : (a.setWidth 32 <<< 8 : Word).toNat = a.toNat <<< 8 := by
    simp [BitVec.toNat_shiftLeft, Nat.shiftLeft_eq]; omega
  rw [BitVec.toNat_or, h, show ((0x6 : Word)).toNat = 6 from rfl, ← Nat.shiftLeft_add_eq_or_of_lt (by norm_num),
    Nat.shiftLeft_eq]

/-- A SIG_TX word decodes to SIG_TX with its ARG8 (R85). -/
theorem decodeWord_sigTx (a : Byte) : decodeWord ((a.setWidth 32 <<< 8) ||| 0x6) = .ok (.sigTx a) := by
  have ht := sigTx_word_toNat a
  generalize ((a.setWidth 32 <<< 8) ||| 0x6 : Word) = w at ht
  have hlt := a.isLt
  have h0 : rsv0Field w = 0 := by
    apply BitVec.eq_of_toNat_eq; rw [rsv0Field, toNat_extract, ht]; simp; omega
  have h1 : rsv1Field w = 0 := by
    apply BitVec.eq_of_toNat_eq; rw [rsv1Field, toNat_extract, ht]; simp; omega
  have h2 : opField w = 6 := by
    apply BitVec.eq_of_toNat_eq; rw [opField, toNat_extract, ht]; simp; omega
  have h3 : arg8Field w = a := by
    apply BitVec.eq_of_toNat_eq; rw [arg8Field, toNat_extract, ht]; omega
  simp [decodeWord, h0, h1, h2, h3, instrOfCode]

/-- The codes that name no operation (R83). -/
theorem instrOfCode_none (c : BitVec 4) (a : Byte) : instrOfCode c a = none ↔ c = 0 ∨ 0xA ≤ c.toNat := by
  have hc := c.isLt
  unfold instrOfCode
  simp only [← BitVec.toNat_inj]
  split_ifs <;> simp_all
  omega

/-! ## Wire payloads -/

/-- The pieces of an `L` payload put together again. -/
theorem splitSeparator_append (rest : List Byte) :
    (splitSeparator rest).1 ++ encodeValue (splitSeparator rest).2 = rest := by
  induction rest with
  | nil => rfl
  | cons b r ih =>
    simp only [splitSeparator]
    split
    · next h => simp [encodeValue, h]
    · simp [ih]

/-- A name without 0x1C ends at the separator. -/
theorem splitSeparator_name (name value : List Byte) (h : ¬ (0x1C : Byte) ∈ name) :
    splitSeparator (name ++ 0x1C :: value) = (name, some value) := by
  induction name with
  | nil => simp [splitSeparator]
  | cons b r ih =>
    simp only [List.mem_cons, not_or] at h
    rw [List.cons_append, splitSeparator, ih h.2, if_neg (Ne.symm h.1)]

/-- The five fields of an `O` payload, cut at their offsets and put together again (R77). -/
theorem splitO_append (rest : List Byte) :
    rest.take 8 ++ (rest.drop 8).take 14 ++ (rest.drop 22).take 8 ++ rest.drop 30 = rest := by
  have h1 : rest.take 8 ++ rest.drop 8 = rest := List.take_append_drop ..
  have h2 : (rest.drop 8).take 14 ++ rest.drop 22 = rest.drop 8 := by
    simpa using List.take_append_drop 14 (rest.drop 8)
  have h3 : (rest.drop 22).take 8 ++ rest.drop 30 = rest.drop 22 := by
    simpa using List.take_append_drop 8 (rest.drop 22)
  rw [List.append_assoc, List.append_assoc, h3, h2, h1]

/-- A chunk payload is its 7-byte header and its data (R78). -/
theorem chunkPayload_eq (off : Word) (d : List Byte) :
    chunkPayload off d = Machine.chunkHeader (BitVec.ofNat 16 d.length) off ++ d := by
  simp [chunkPayload, Machine.chunkHeader]

end Sys2Proof
end

