-- ==== Sys2Proof/Laws/Checksum.lean ====
section
/-! SUPPORT. The checksums are folds: over an append, and one byte at a time. -/

namespace Sys2Proof.Machine

theorem cmdChecksum_append (a b : List Byte) : cmdChecksum (a ++ b) = b.foldl cmdStep (cmdChecksum a) :=
  List.foldl_append ..

theorem cmdChecksum_snoc (a : List Byte) (b : Byte) : cmdChecksum (a ++ [b]) = cmdStep (cmdChecksum a) b :=
  List.foldl_append ..

theorem crc16_append (a b : List Byte) : crc16 (a ++ b) = b.foldl crcStep (crc16 a) := List.foldl_append ..

theorem crc16_snoc (a : List Byte) (b : Byte) : crc16 (a ++ [b]) = crcStep (crc16 a) b := List.foldl_append ..

@[simp] theorem cmdChecksum_nil : cmdChecksum [] = 0 := rfl

@[simp] theorem crc16_nil : crc16 [] = 0 := rfl

end Sys2Proof.Machine
end

