-- ==== Sys2Proof/Laws/Host.lean ====
section
/-! SUPPORT. What a HOST turn can do: the wire rows only push lines, and while BUSY = 1 a line changes nothing of the
block but HERR (70_reset_and_hazards.md R251, 20_memory.md R60 b). -/

namespace Sys2Proof

theorem decodeBare_ok {i j : Instr} {e : DecodeError} {rest : List Byte} (h : decodeBare i e rest = .ok j) :
    rest = [] ∧ j = i := by
  unfold decodeBare at h
  split at h
  · cases h; exact ⟨‹_›, rfl⟩
  · cases h

/-- A wire unit decodes to a wire row, never to an operation word. -/
theorem decodeWire_ok {unit : List Byte} {i : Instr} (h : decodeWire unit = .ok i) : ∃ p, encode i = .wire p := by
  cases unit with
  | nil => cases h
  | cons b rest =>
    simp only [decodeWire] at h
    split_ifs at h
    · cases h; exact ⟨_, rfl⟩
    · cases h; exact ⟨_, rfl⟩
    · cases rest with
      | nil => cases h
      | cons k r => simp only [decodeO] at h; split at h <;> cases h; exact ⟨_, rfl⟩
    · unfold decodeW at h
      split at h
      · split at h <;> cases h; exact ⟨_, rfl⟩
      · cases h
    all_goals (obtain ⟨-, rfl⟩ := decodeBare_ok h; exact ⟨_, rfl⟩)

namespace Machine

/-- A wire row puts lines in front of the HOST's program and does nothing else. -/
theorem exec_wire {i : Instr} {p : List Byte} (h : encode i = .wire p) (s : State) :
    ∃ lines, exec i s = .next (s.pushLines lines) := by
  cases i <;> first | (cases h; done) | exact ⟨_, rfl⟩

/-- `t` is `s` but for HERR and what is the HOST's own. -/
def HostOnly (s t : State) : Prop :=
  ∃ herr hostProg readData draws,
    t = { s with
      status := { s.status with herr := herr }, hostProg := hostProg, readData := readData, draws := draws }

theorem hostOnly_pushLines (s : State) (lines : List HostLine) : HostOnly s (s.pushLines lines) :=
  ⟨s.status.herr, lines ++ s.hostProg, s.readData, s.draws, rfl⟩

theorem hostOnly_returnRead (s : State) (v : Word) : HostOnly s (s.returnRead v) :=
  ⟨s.status.herr, s.hostProg, v, s.draws + 1, rfl⟩

theorem hostOnly_dropWrite (s : State) : HostOnly s s.dropWrite := ⟨true, s.hostProg, s.readData, s.draws, rfl⟩

theorem hostOnly_refl (s : State) : HostOnly s s := ⟨s.status.herr, s.hostProg, s.readData, s.draws, rfl⟩

theorem HostOnly.inFlight {s t : State} (h : HostOnly s t) : t.inFlight = s.inFlight := by
  obtain ⟨a, b, c, d, rfl⟩ := h; rfl

theorem HostOnly.rxq {s t : State} (h : HostOnly s t) : t.rxq = s.rxq := by obtain ⟨a, b, c, d, rfl⟩ := h; rfl

theorem HostOnly.agenda {s t : State} (h : HostOnly s t) : t.agenda = s.agenda := by obtain ⟨a, b, c, d, rfl⟩ := h; rfl

/-- While BUSY, no line of the HOST's program changes anything but HERR and what is the HOST's own. -/
theorem runLine_busy (line : HostLine) (s : State) (hb : s.status.busy = true) :
    ∃ t, runLine line s = .next t ∧ HostOnly s t := by
  cases line with
  | wr r v =>
    refine ⟨s.writeReg r v, rfl, ?_⟩
    simp only [State.writeReg, State.accept, State.unlessBusy, hb, if_true]
    split_ifs
    · exact hostOnly_dropWrite s
    · exact ⟨false, s.hostProg, s.readData, s.draws, rfl⟩
    · exact hostOnly_refl s
    · exact hostOnly_dropWrite s
    · exact hostOnly_dropWrite s
    · exact hostOnly_refl s
  | rd r => exact ⟨_, rfl, hostOnly_returnRead s _⟩
  | wrb i b =>
    refine ⟨s.writeIn i b, rfl, ?_⟩
    simp only [State.writeIn, State.unlessBusy, hb, if_true]
    split
    · exact hostOnly_refl s
    · exact hostOnly_dropWrite s
  | rdbIn i => exact ⟨_, rfl, hostOnly_returnRead s _⟩
  | rdbRx i => exact ⟨_, rfl, hostOnly_returnRead s _⟩
  | poll =>
    refine ⟨s.poll, rfl, ?_⟩
    unfold State.poll
    split
    · exact hostOnly_returnRead s _
    · exact ⟨s.status.herr, _, _, _, rfl⟩
  | load b => exact ⟨_, rfl, hostOnly_pushLines s _⟩
  | sendCmd b => exact ⟨_, rfl, hostOnly_pushLines s _⟩
  | sendRaw b => exact ⟨_, rfl, hostOnly_pushLines s _⟩
  | recvf => exact ⟨_, rfl, hostOnly_pushLines s _⟩
  | wire u =>
    simp only [runLine]
    split
    · next i hi =>
      obtain ⟨p, hp⟩ := decodeWire_ok hi
      obtain ⟨l, hl⟩ := exec_wire hp s
      exact ⟨_, hl, hostOnly_pushLines s l⟩
    · exact ⟨_, rfl, hostOnly_pushLines s _⟩

/-- A HOST turn while BUSY. -/
theorem hostTurn_busy (s : State) (hb : s.status.busy = true) : ∃ t, hostTurn s = .next t ∧ HostOnly s t := by
  unfold hostTurn
  split
  · exact ⟨s, rfl, hostOnly_refl s⟩
  · next line rest hp =>
    obtain ⟨t, ht, a, b, c, d, rfl⟩ := runLine_busy line (s.setProg rest) hb
    exact ⟨_, ht, a, b, c, d, rfl⟩

end Machine

end Sys2Proof
end

