-- ==== Sys2Proof/Laws/Run.lean ====
section
/-! SUPPORT. Running several steps: one lemma for a first step and one for splitting a run, for each of the three runs
claims speak of (core.run, engineTimes, execTimes). -/

namespace Sys2Proof.Machine

theorem run_zero (s : State) : Host.Core.run Sys2Proof.core 0 s = .next s := rfl

/-- A run begins with one step. -/
theorem run_succ {s t : State} (h : step s = .next t) (k : Nat) :
    Host.Core.run Sys2Proof.core (k + 1) s = Host.Core.run Sys2Proof.core k t := by
  have h' : Sys2Proof.core.step s = .next t := h
  simp only [Host.Core.run, h']

/-- A run that answers a next state began with a step that did. -/
theorem run_succ_next {s u : State} {k : Nat} (h : Host.Core.run Sys2Proof.core (k + 1) s = .next u) :
    ∃ t, step s = .next t ∧ Host.Core.run Sys2Proof.core k t = .next u := by
  simp only [Host.Core.run] at h
  split at h
  · next t ht => exact ⟨t, ht, h⟩
  · cases h
  · cases h

/-- A run splits where it answers a next state. -/
theorem run_add {s t : State} {j : Nat} (h : Host.Core.run Sys2Proof.core j s = .next t) (k : Nat) :
    Host.Core.run Sys2Proof.core (j + k) s = Host.Core.run Sys2Proof.core k t := by
  induction j generalizing s with
  | zero => cases h; simp
  | succ j ih =>
    obtain ⟨u, hu, hr⟩ := run_succ_next h
    rw [Nat.add_right_comm, run_succ hu, ih hr]

theorem execTimes_succ {i : Instr} {s t : State} (h : exec i s = .next t) (k : Nat) :
    execTimes (k + 1) i s = execTimes k i t := by
  simp only [execTimes, h]

theorem execTimes_succ_next {i : Instr} {s u : State} {k : Nat} (h : execTimes (k + 1) i s = .next u) :
    ∃ t, exec i s = .next t ∧ execTimes k i t = .next u := by
  simp only [execTimes] at h
  split at h
  · next t ht => exact ⟨t, ht, h⟩
  · cases h
  · cases h

theorem execTimes_add {i : Instr} {s t : State} {j : Nat} (h : execTimes j i s = .next t) (k : Nat) :
    execTimes (j + k) i s = execTimes k i t := by
  induction j generalizing s with
  | zero => cases h; simp
  | succ j ih =>
    obtain ⟨u, hu, hr⟩ := execTimes_succ_next h
    rw [Nat.add_right_comm, execTimes_succ hu, ih hr]

theorem engineTimes_succ {s t : State} (h : engineTurn s = .next t) (k : Nat) :
    engineTimes (k + 1) s = engineTimes k t := by
  simp only [engineTimes, h]

theorem engineTimes_add {s t : State} {j : Nat} (h : engineTimes j s = .next t) (k : Nat) :
    engineTimes (j + k) s = engineTimes k t := by
  induction j generalizing s with
  | zero => cases h; simp
  | succ j ih =>
    rw [Nat.add_right_comm]
    simp only [engineTimes] at h ⊢
    split at h
    · next u hu => exact ih h
    · cases h
    · cases h

/-- The ENGINE's turn while operation `i` is in flight. -/
theorem engineTurn_of_inFlight {s : State} {i : Instr} (h : s.inFlight = some i) : engineTurn s = exec i s := by
  simp only [engineTurn, h]

/-- The ENGINE's turn while none is. -/
theorem engineTurn_of_none {s : State} (h : s.inFlight = none) : engineTurn s = .next s := by
  simp only [engineTurn, h]

theorem engineTimes_of_none {s : State} (h : s.inFlight = none) (k : Nat) : engineTimes k s = .next s := by
  induction k with
  | zero => rfl
  | succ k ih => rw [engineTimes_succ (engineTurn_of_none h), ih]

/-- What a step with a turn on the agenda is. -/
theorem step_of_agenda {s : State} {t : Turn} {rest : List Turn} (h : s.agenda = t :: rest) :
    step s = takeTurn t (s.setAgenda rest) := by
  simp only [step, nextTurn, h]

/-- What a step with an empty agenda is while an operation other than RX_FRAME is in flight. -/
theorem step_engine {s : State} {i : Instr} (ha : s.agenda = []) (hf : s.inFlight = some i) (hr : i ≠ .rxFrame) :
    step s = exec i s := by
  have : s.engineReady = true := by
    unfold State.engineReady
    rw [hf]
    cases i <;> first | rfl | exact absurd rfl hr
  simp only [step, nextTurn, ha, this, if_true, engineTurn_of_inFlight hf]

/-- What a step with an empty agenda is while no operation is in flight. -/
theorem step_host {s : State} (ha : s.agenda = []) (hf : s.inFlight = none) : step s = hostTurn s := by
  have : s.engineReady = false := by
    unfold State.engineReady
    rw [hf]
  simp only [step, nextTurn, ha, this, Bool.false_eq_true, if_false]

/-- The HOST's next line. -/
theorem hostTurn_cons {s : State} {line : HostLine} {rest : List HostLine} (h : s.hostProg = line :: rest) :
    hostTurn s = runLine line (s.setProg rest) := by
  simp only [hostTurn, h]

end Sys2Proof.Machine
end

