-- ==== Sys2Proof/Laws/Status.lean ====
section
/-! SUPPORT. The bits of STATUS as the host reads it (10_state.md R24). -/

namespace Sys2Proof.Machine

/-- A bit of STATUS lies in its twelve used bits, or reads 0. -/
theorem Status.word_getLsbD (st : Status) (i : Nat) : st.word.getLsbD i =
    if i < 12 then
      (st.err ++ ((0 : BitVec 1) ++ (bit st.herr ++ (bit st.ckOk ++ (bit st.ckValid ++
        (st.kind ++ (bit st.done ++ bit st.busy))))))).getLsbD i
    else false := by
  unfold Status.word
  rw [BitVec.getLsbD_append]
  simp

/-- The comparison's flags, as one record (42_decode.md R177). -/
theorem Status.compared_eq (st : Status) (c r : Half) :
    st.compared c r =
      { st with ckValid := true, ckOk := decide (c = r), err := if c = r then st.err else ErrCode.ckMismatch.bits } := by
  unfold Status.compared
  split <;> simp_all

end Sys2Proof.Machine
end

