-- ==== Sys2Proof/Laws/Exec.lean ====
section
/-! SUPPORT. One inversion lemma for each operation's meaning: everything an ENGINE step of it can do when it answers a
next state, guards included. -/

namespace Sys2Proof.Machine

variable {s t : State}

/-! ## The tests -/

theorem State.tooLong_of_lt (h : s.cfg.inMax < s.len) : s.tooLong = true := decide_eq_true h

theorem State.not_tooLong (h : s.len ≤ s.cfg.inMax) : s.tooLong = false := decide_eq_false (by omega)

theorem State.more_of_lt (h : s.idx.toNat < s.len) : s.more = true := decide_eq_true h

theorem State.not_more (h : s.len ≤ s.idx.toNat) : s.more = false := decide_eq_false (by omega)

/-! ## Inversion -/

/-- CKS_CMD (40_checksum.md R121). -/
theorem execCksCmd_next (h : execCksCmd s = .next t) :
    (s.phase = .start ∧ s.cfg.inMax < s.len ∧ t = s.raise .badLen) ∨
    (s.phase = .start ∧ s.len ≤ s.cfg.inMax ∧ t = { s with accCmd := 0, phase := .body }) ∨
    (∃ b, s.phase = .body ∧ s.idx.toNat < s.len ∧ s.readIn s.idx.toNat = some b ∧
      t = { s with accCmd := cmdStep s.accCmd b, idx := s.idx + 1 }) ∨
    (s.phase = .body ∧ s.len ≤ s.idx.toNat ∧ t = s.finishResult s.accCmd) ∨
    (s.phase ≠ .start ∧ s.phase ≠ .body ∧ t = s) := by
  unfold execCksCmd State.tooLong State.more at h
  split at h
  · next hp => split at h <;> cases h <;> simp_all
  · next hp =>
    split at h
    · split at h
      · cases h
      · cases h; simp_all
    · cases h; simp_all
  all_goals (cases h; simp_all)

/-- CKS_CRC (40_checksum.md R122). -/
theorem execCksCrc_next (h : execCksCrc s = .next t) :
    (s.phase = .start ∧ s.cfg.inMax < s.len ∧ t = s.raise .badLen) ∨
    (s.phase = .start ∧ s.len ≤ s.cfg.inMax ∧ t = { s with accCrc := 0, phase := .body }) ∨
    (∃ b, s.phase = .body ∧ s.idx.toNat < s.len ∧ s.readIn s.idx.toNat = some b ∧
      t = { s with accCrc := crcStep s.accCrc b, idx := s.idx + 1 }) ∨
    (s.phase = .body ∧ s.len ≤ s.idx.toNat ∧ t = s.finishResult s.accCrc) ∨
    (s.phase ≠ .start ∧ s.phase ≠ .body ∧ t = s) := by
  unfold execCksCrc State.tooLong State.more at h
  split at h
  · next hp => split at h <;> cases h <;> simp_all
  · next hp =>
    split at h
    · split at h
      · cases h
      · cases h; simp_all
    · cases h; simp_all
  all_goals (cases h; simp_all)

/-- ENC_CMD (41_encode.md R141). -/
theorem execEncCmd_next (h : execEncCmd s = .next t) :
    (s.phase = .start ∧ s.cfg.inMax < s.len ∧ t = s.raise .badLen) ∨
    (s.phase = .start ∧ s.len ≤ s.cfg.inMax ∧ t = { s.emit 0x02 with accCmd := 0, phase := .body }) ∨
    (∃ b, s.phase = .body ∧ s.idx.toNat < s.len ∧ s.readIn s.idx.toNat = some b ∧
      t = { s.emit b with accCmd := cmdStep s.accCmd b, idx := s.idx + 1 }) ∨
    (s.phase = .body ∧ s.len ≤ s.idx.toNat ∧
      t = { s.emit 0x03 with accCmd := cmdStep s.accCmd 0x03, phase := .sealHi }) ∨
    (s.phase = .sealHi ∧ t = { s.emit (hiByte s.accCmd) with phase := .sealLo }) ∨
    (s.phase = .sealLo ∧ t = (s.emit (loByte s.accCmd)).finishResult s.accCmd) ∨
    (∃ j, s.phase = .header j ∧ t = s) := by
  unfold execEncCmd State.tooLong State.more at h
  split at h
  · next hp => split at h <;> cases h <;> simp_all
  · next hp =>
    split at h
    · split at h
      · cases h
      · cases h; simp_all
    · cases h; simp_all
  all_goals (cases h; simp_all)

/-- ENC_RAW (41_encode.md R142). -/
theorem execEncRaw_next (h : execEncRaw s = .next t) :
    (s.phase = .start ∧ s.cfg.inMax < s.len ∧ t = s.raise .badLen) ∨
    (s.phase = .start ∧ s.len ≤ s.cfg.inMax ∧ s.len = 0 ∧ t = (s.emit 0x02).finish) ∨
    (s.phase = .start ∧ s.len ≤ s.cfg.inMax ∧ s.len ≠ 0 ∧ t = { s.emit 0x02 with phase := .body }) ∨
    (∃ b, s.phase = .body ∧ s.readIn s.idx.toNat = some b ∧ s.idx.toNat + 1 < s.len ∧
      t = { s.emit b with idx := s.idx + 1 }) ∨
    (∃ b, s.phase = .body ∧ s.readIn s.idx.toNat = some b ∧ s.len ≤ s.idx.toNat + 1 ∧ t = (s.emit b).finish) ∨
    (s.phase ≠ .start ∧ s.phase ≠ .body ∧ t = s) := by
  unfold execEncRaw State.tooLong at h
  split at h
  · next hp =>
    split at h
    · cases h; simp_all
    · split at h <;> cases h <;> simp_all
  · next hp =>
    split at h
    · cases h
    · split at h <;> cases h <;> simp_all
  all_goals (cases h; simp_all)

/-- ENC_CHUNK (41_encode.md R143). -/
theorem execEncChunk_next (h : execEncChunk s = .next t) :
    (s.phase = .start ∧ (s.cfg.inMax < s.len ∨ s.len = 0 ∨ Config.chunkMax < s.len) ∧ t = s.raise .badLen) ∨
    (∃ d, s.phase = .start ∧ s.len ≤ s.cfg.inMax ∧ s.len ≠ 0 ∧ s.len ≤ Config.chunkMax ∧ s.loaded d ∧
      t = { s.emit 0x02 with accCrc := 0, phase := .header 0 }) ∨
    (∃ j, s.phase = .header j ∧
      t = { s.emit (s.headerByte j) with
        accCrc := crcStep s.accCrc (s.headerByte j), phase := if j < 6 then .header (j + 1) else .body }) ∨
    (∃ b, s.phase = .body ∧ s.idx.toNat < s.len ∧ s.readIn s.idx.toNat = some b ∧
      t = { s.emit b with accCrc := crcStep s.accCrc b, idx := s.idx + 1 }) ∨
    (s.phase = .body ∧ s.len ≤ s.idx.toNat ∧ t = { s.emit (hiByte s.accCrc) with phase := .sealLo }) ∨
    (s.phase = .sealLo ∧ t = (s.emit (loByte s.accCrc)).finishResult s.accCrc) ∨
    (s.phase = .sealHi ∧ t = s) := by
  unfold execEncChunk State.tooLong State.more at h
  split at h
  · next hp =>
    split at h
    · cases h; simp_all
    · split at h
      · next hz => cases h; exact .inl ⟨hp, .inr hz, rfl⟩
      · split at h
        · cases h
        · next hb hz _ d hd =>
          cases h
          have hb : s.len ≤ s.cfg.inMax := by simpa using hb
          exact .inr (.inl ⟨d, hp, hb, by tauto, by omega, hd, rfl⟩)
  · next hp => cases h; simp_all
  · next hp =>
    split at h
    · split at h
      · cases h
      · cases h; simp_all
    · cases h; simp_all
  all_goals (cases h; simp_all)

/-- SIG_TX (41_encode.md R144): it always answers a next state. -/
theorem execSigTx_eq (a : Byte) (s : State) :
    execSigTx a s = .next (if a ≠ 0x05 ∧ a ≠ 0x06 then s.raise .badArg else (s.emit a).finish) := by
  unfold execSigTx
  split <;> rfl

/-- The shared part of VER_CMD and VER_CRC. -/
theorem verifyIn_next {n : Nat} {verdict : List Byte → Half → State} (h : verifyIn s n verdict = .next t) :
    ∃ covered hi lo, s.spanIn 1 (n - 3) = .ok covered ∧ s.readIn (n - 2) = some hi ∧ s.readIn (n - 1) = some lo ∧
      t = verdict covered (ofBe16 hi lo) := by
  unfold verifyIn at h
  split at h
  · cases h
  · next c hc =>
    split at h
    · cases h
    · next hi hh =>
      split at h
      · cases h
      · next lo hl => cases h; exact ⟨c, hi, lo, hc, hh, hl, rfl⟩

/-- A verification that comes to its reads faults at the first unwritten byte of the frame (10_state.md R32). -/
theorem verifyIn_fault {e : Nat} {verdict : List Byte → Half → State} (he : s.spanIn 0 s.len = .error e)
    (h0 : s.readIn 0 ≠ none) (h3 : 3 ≤ s.len) : verifyIn s s.len verdict = .fault (.unwrittenIn e) := by
  obtain ⟨-, hlt, hn⟩ := Memory.span_error he
  have before : ∀ j, j < e → s.readIn j ≠ none := fun j hj => Memory.span_error_before he (Nat.zero_le j) hj
  have hn : s.readIn e = none := hn
  have e0 : e ≠ 0 := fun h => h0 (h ▸ hn)
  unfold verifyIn
  by_cases h1 : e < s.len - 2
  · rw [show s.spanIn 1 (s.len - 3) = .error e from
      Memory.span_stops (by omega) (by omega) (fun j _ hj => before j hj) hn]
  · cases hs : s.spanIn 1 (s.len - 3) with
    | error x =>
      obtain ⟨-, hx, hr⟩ := Memory.span_error hs
      exact absurd hr (before x (by omega))
    | ok covered =>
      dsimp only
      by_cases h2 : e = s.len - 2
      · rw [← h2, hn]
      · cases hr : s.readIn (s.len - 2) with
        | none => exact absurd hr (before _ (by omega))
        | some hi =>
          dsimp only
          rw [← show e = s.len - 1 by omega, hn]

/-- VER_CMD (42_decode.md R180). -/
theorem execVerCmd_next (h : execVerCmd s = .next t) :
    (s.cfg.inMax < s.len ∧ t = s.raise .badLen) ∨
    (s.len ≤ s.cfg.inMax ∧ t = s.raise .badFrame) ∨
    (∃ covered hi lo, s.len ≤ s.cfg.inMax ∧ 4 ≤ s.len ∧ s.readIn 0 = some 0x02 ∧ s.readIn (s.len - 3) = some 0x03 ∧
      s.spanIn 1 (s.len - 3) = .ok covered ∧ s.readIn (s.len - 2) = some hi ∧ s.readIn (s.len - 1) = some lo ∧
      t = s.verdictCmd (cmdChecksum covered) (ofBe16 hi lo) (s.inLen - 4)) := by
  unfold execVerCmd State.tooLong at h
  split at h
  · next hl => cases h; exact .inl ⟨by simpa using hl, rfl⟩
  · next hl =>
    have hl : s.len ≤ s.cfg.inMax := by simpa using hl
    split at h
    · cases h; exact .inr (.inl ⟨hl, rfl⟩)
    · next h4 =>
      split at h
      · cases h
      · next b hb =>
        split at h
        · cases h; exact .inr (.inl ⟨hl, rfl⟩)
        · next h2 =>
          split at h
          · cases h
          · next m hm =>
            split at h
            · cases h; exact .inr (.inl ⟨hl, rfl⟩)
            · next h3 =>
              obtain ⟨c, hi, lo, h5, h6, h7, ht⟩ := verifyIn_next h
              simp only [ne_eq, not_not] at h2 h3
              subst h2 h3
              exact .inr (.inr ⟨c, hi, lo, hl, by omega, hb, hm, h5, h6, h7, ht⟩)

/-- VER_CRC (42_decode.md R181). -/
theorem execVerCrc_next (h : execVerCrc s = .next t) :
    (s.cfg.inMax < s.len ∧ t = s.raise .badLen) ∨
    (s.len ≤ s.cfg.inMax ∧ t = s.raise .badFrame) ∨
    (∃ covered hi lo, s.len ≤ s.cfg.inMax ∧ 3 ≤ s.len ∧ s.readIn 0 = some 0x02 ∧
      s.spanIn 1 (s.len - 3) = .ok covered ∧ s.readIn (s.len - 2) = some hi ∧ s.readIn (s.len - 1) = some lo ∧
      t = s.verdictCrc (crc16 covered) (ofBe16 hi lo) (s.inLen - 3)) := by
  unfold execVerCrc State.tooLong at h
  split at h
  · next hl => cases h; exact .inl ⟨by simpa using hl, rfl⟩
  · next hl =>
    have hl : s.len ≤ s.cfg.inMax := by simpa using hl
    split at h
    · cases h; exact .inr (.inl ⟨hl, rfl⟩)
    · next h3 =>
      split at h
      · cases h
      · next b hb =>
        split at h
        · cases h; exact .inr (.inl ⟨hl, rfl⟩)
        · next h2 =>
          obtain ⟨c, hi, lo, h5, h6, h7, ht⟩ := verifyIn_next h
          simp only [ne_eq, not_not] at h2
          subst h2
          exact .inr (.inr ⟨c, hi, lo, hl, by omega, hb, h5, h6, h7, ht⟩)

/-- RX_FRAME (42_decode.md R171): it always answers a next state. -/
theorem execRxFrame_eq (s : State) :
    execRxFrame s = .next (match s.rxq with
      | [] => s
      | b :: rest => rxTake b { s with rxq := rest }) := by
  unfold execRxFrame
  split <;> simp_all

/-- What one byte taken by RX_FRAME does (R172, R173, R175). -/
theorem rxTake_cases (b : Byte) (s : State) :
    (s.rxInf = false ∧ (b = 0x06 ∨ b = 0x05) ∧
      rxTake b s = { s with signal := b, status := s.status.withKind kindSignal }.finish) ∨
    (s.rxInf = false ∧ b = 0x02 ∧
      rxTake b s = { s with rxInf := true, rxBuf := Memory.write s.rxBuf 0 0x02, rxLen := 1 }) ∨
    (s.rxInf = false ∧ b ≠ 0x06 ∧ b ≠ 0x05 ∧ b ≠ 0x02 ∧ rxTake b s = s) ∨
    (s.rxInf = true ∧ 4 ≤ (rxAppend b s).rxLen.toNat ∧ (rxAppend b s).rxByte ((rxAppend b s).rxLen.toNat - 3) = 0x03 ∧
      rxTake b s =
        verifyRx (rxAppend b s).rxLen
          { rxAppend b s with status := (rxAppend b s).status.withKind kindFrame }) ∨
    (s.rxInf = true ∧
      ¬(4 ≤ (rxAppend b s).rxLen.toNat ∧ (rxAppend b s).rxByte ((rxAppend b s).rxLen.toNat - 3) = 0x03) ∧
      (rxAppend b s).rxLen.toNat = s.cfg.rxMax ∧ rxTake b s = (rxAppend b s).raise .rxOverflow) ∨
    (s.rxInf = true ∧
      ¬(4 ≤ (rxAppend b s).rxLen.toNat ∧ (rxAppend b s).rxByte ((rxAppend b s).rxLen.toNat - 3) = 0x03) ∧
      (rxAppend b s).rxLen.toNat ≠ s.cfg.rxMax ∧ rxTake b s = rxAppend b s) := by
  have hcfg : (rxAppend b s).cfg = s.cfg := rfl
  unfold rxTake
  split
  · next hi =>
    unfold rxSettle
    split
    · next h => exact .inr (.inr (.inr (.inl ⟨hi, h.1, h.2, rfl⟩)))
    · next h =>
      split
      · next h' => exact .inr (.inr (.inr (.inr (.inl ⟨hi, h, h', rfl⟩))))
      · next h' => exact .inr (.inr (.inr (.inr (.inr ⟨hi, h, h', rfl⟩))))
  · next hi =>
    have hi : s.rxInf = false := by simpa using hi
    unfold rxOutside
    split
    · next h => exact .inl ⟨hi, h, rfl⟩
    · next h =>
      split
      · next h' => exact .inr (.inl ⟨hi, h', rfl⟩)
      · next h' => exact .inr (.inr (.inl ⟨hi, by tauto, by tauto, h', rfl⟩))

/-- No instruction is refused. -/
theorem exec_not_refused (i : Instr) (s : State) (r : Refusal) : exec i s ≠ .refused r := by
  intro h
  cases i <;> simp only [exec] at h
  · unfold execCksCmd at h; split at h <;> (try split at h) <;> (try split at h) <;> cases h
  · unfold execCksCrc at h; split at h <;> (try split at h) <;> (try split at h) <;> cases h
  · unfold execEncCmd at h; split at h <;> (try split at h) <;> (try split at h) <;> cases h
  · unfold execEncRaw at h; split at h <;> (try split at h) <;> (try split at h) <;> cases h
  · unfold execEncChunk at h; split at h <;> (try split at h) <;> (try split at h) <;> (try split at h) <;> cases h
  · rw [execSigTx_eq] at h; cases h
  · rw [execRxFrame_eq] at h; cases h
  · unfold execVerCmd verifyIn at h
    repeat' split at h
    all_goals cases h
  · unfold execVerCrc verifyIn at h
    repeat' split at h
    all_goals cases h
  all_goals cases h

/-- An instruction stops only at an IN byte that was never written (10_state.md R32), and only an operation that reads
IN does. -/
theorem exec_fault {i : Instr} {s : State} {f : Fault} (h : exec i s = .fault f) :
    ∃ e, f = .unwrittenIn e ∧ s.readIn e = none ∧ (e < s.len ∨ (i = .encRaw ∧ s.phase = .body ∧ e = s.idx.toNat)) ∧
      (i = .cksCmd ∨ i = .cksCrc ∨ i = .encCmd ∨ i = .encRaw ∨ i = .encChunk ∨ i = .verCmd ∨ i = .verCrc) := by
  have loop : ∀ {b : Bool} {o : Option Byte} {e : Nat}, s.more = b → b = true → s.readIn s.idx.toNat = o → o = none →
      e = s.idx.toNat → s.readIn e = none ∧ e < s.len := by
    rintro b o e h1 rfl rfl h3 rfl
    exact ⟨h3, by simpa [State.more] using h1⟩
  have verify : ∀ {n : Nat} {g : List Byte → Half → State}, n = s.len → 3 ≤ n → verifyIn s n g = .fault f →
      ∃ e, f = .unwrittenIn e ∧ s.readIn e = none ∧ e < s.len := by
    intro n g hn h3 hv
    unfold verifyIn at hv
    split at hv
    · next e he =>
      cases hv
      obtain ⟨h1, h2, hr⟩ := Memory.span_error he
      exact ⟨e, rfl, hr, by omega⟩
    · split at hv
      · next hr => cases hv; exact ⟨_, rfl, hr, by omega⟩
      · split at hv
        · next hr => cases hv; exact ⟨_, rfl, hr, by omega⟩
        · cases hv
  cases i <;> simp only [exec] at h
  · unfold execCksCmd at h
    split at h <;> (try split at h) <;> (try split at h) <;> cases h
    next hm _ hr => exact ⟨_, rfl, hr, .inl (loop hm rfl hr rfl rfl).2, by simp⟩
  · unfold execCksCrc at h
    split at h <;> (try split at h) <;> (try split at h) <;> cases h
    next hm _ hr => exact ⟨_, rfl, hr, .inl (loop hm rfl hr rfl rfl).2, by simp⟩
  · unfold execEncCmd at h
    split at h <;> (try split at h) <;> (try split at h) <;> cases h
    next hm _ hr => exact ⟨_, rfl, hr, .inl (loop hm rfl hr rfl rfl).2, by simp⟩
  · unfold execEncRaw at h
    split at h <;> (try split at h) <;> (try split at h) <;> cases h
    next hp _ hr => exact ⟨_, rfl, hr, .inr ⟨rfl, hp, rfl⟩, by simp⟩
  · unfold execEncChunk at h
    split at h <;> (try split at h) <;> (try split at h) <;> (try split at h) <;> cases h
    · next hs =>
      obtain ⟨h1, h2, hr⟩ := Memory.span_error hs
      exact ⟨_, rfl, hr, .inl (by omega), by simp⟩
    · next hm _ hr => exact ⟨_, rfl, hr, .inl (loop hm rfl hr rfl rfl).2, by simp⟩
  · rw [execSigTx_eq] at h; cases h
  · rw [execRxFrame_eq] at h; cases h
  · unfold execVerCmd at h
    split at h
    · cases h
    · split at h
      · cases h
      · next h4 =>
        split at h
        · next hr => cases h; exact ⟨_, rfl, hr, .inl (by omega), by simp⟩
        · split at h
          · cases h
          · split at h
            · next hr => cases h; exact ⟨_, rfl, hr, .inl (by omega), by simp⟩
            · split at h
              · cases h
              · obtain ⟨e, h1, h2, h3⟩ := verify rfl (by omega) h
                exact ⟨e, h1, h2, .inl h3, by simp⟩
  · unfold execVerCrc at h
    split at h
    · cases h
    · split at h
      · cases h
      · next h4 =>
        split at h
        · next hr => cases h; exact ⟨_, rfl, hr, .inl (by omega), by simp⟩
        · split at h
          · cases h
          · obtain ⟨e, h1, h2, h3⟩ := verify rfl (by omega) h
            exact ⟨e, h1, h2, .inl h3, by simp⟩
  all_goals cases h

end Sys2Proof.Machine
end

