-- ==== Sys2Proof/Laws/Loops.lean ====
section
/-! SUPPORT. The loops over IN: one induction for all of them, then what each operation's loop does. -/

namespace Sys2Proof.Machine

/-- What one pass of a loop over IN keeps: the phase, IN and its length; IDX moves on by one. -/
def PassKeeps (f : Byte → State → State) : Prop :=
  ∀ b s, (f b s).phase = s.phase ∧ (f b s).inLen = s.inLen ∧ (f b s).inBuf = s.inBuf ∧ (f b s).idx = s.idx + 1

/-- A loop whose pass on byte `b` is `f b` while IDX is below `n` runs `f` over the bytes of IN, in order. -/
theorem byte_loop {i : Instr} {f : Byte → State → State} {len : Half} {buf : Memory} {n : Nat} (hn : n ≤ len.toNat)
    (keeps : PassKeeps f)
    (pass : ∀ s b, s.phase = .body → s.inLen = len → s.inBuf = buf → s.idx.toNat < n → s.readIn s.idx.toNat = some b →
      exec i s = .next (f b s)) :
    ∀ (k : Nat) (s : State) (bytes : List Byte), s.phase = .body → s.inLen = len → s.inBuf = buf →
      s.idx.toNat + k ≤ n → s.spanIn s.idx.toNat k = .ok bytes →
      execTimes k i s = .next (bytes.foldl (fun t b => f b t) s)
  | 0, s, bytes, _, _, _, _, h => by cases h; rfl
  | k + 1, s, bytes, hp, hl, hb, hk, h => by
    unfold State.spanIn at h
    simp only [Memory.span] at h
    split at h
    · cases h
    · next b hr =>
      split at h
      · cases h
      · next rest hrest =>
        cases h
        obtain ⟨k1, k2, k3, k4⟩ := keeps b s
        rw [execTimes_succ (pass s b hp hl hb (by omega) hr) k]
        have hlt := len.isLt
        have hi : (f b s).idx.toNat = s.idx.toNat + 1 := by
          rw [k4, BitVec.toNat_add, show (1 : Half).toNat = 1 from rfl]; omega
        rw [byte_loop hn keeps pass k (f b s) rest (k1.trans hp) (k2.trans hl) (k3.trans hb) (by omega)
          (by unfold State.spanIn; rw [k3, hi]; exact hrest)]
        rfl

/-- The same loop stops at the first IN byte below its bound that was never written (10_state.md R32). -/
theorem byte_loop_fault {i : Instr} {f : Byte → State → State} {len : Half} {buf : Memory} {n : Nat}
    (hn : n ≤ len.toNat) (keeps : PassKeeps f)
    (pass : ∀ s b, s.phase = .body → s.inLen = len → s.inBuf = buf → s.idx.toNat < n → s.readIn s.idx.toNat = some b →
      exec i s = .next (f b s))
    (stop : ∀ s, s.phase = .body → s.inLen = len → s.inBuf = buf → s.idx.toNat < n → s.readIn s.idx.toNat = none →
      exec i s = .fault (.unwrittenIn s.idx.toNat)) :
    ∀ (k m : Nat) (s : State) (e : Nat), s.phase = .body → s.inLen = len → s.inBuf = buf → s.idx.toNat + k ≤ n →
      s.spanIn s.idx.toNat k = .error e → execTimes (k + m) i s = .fault (.unwrittenIn e)
  | 0, _, _, _, _, _, _, _, h => by cases h
  | k + 1, m, s, e, hp, hl, hb, hk, h => by
    unfold State.spanIn at h
    simp only [Memory.span] at h
    rw [Nat.add_right_comm]
    split at h
    · next hr =>
      cases h
      simp only [execTimes, stop s hp hl hb (by omega) hr]
    · next b hr =>
      split at h
      · next x hrest =>
        have : x = e := by cases h; rfl
        subst this
        obtain ⟨k1, k2, k3, k4⟩ := keeps b s
        have hlt := len.isLt
        have hi : (f b s).idx.toNat = s.idx.toNat + 1 := by
          rw [k4, BitVec.toNat_add, show (1 : Half).toNat = 1 from rfl]; omega
        rw [execTimes_succ (pass s b hp hl hb (by omega) hr)]
        exact byte_loop_fault hn keeps pass stop k m (f b s) x (k1.trans hp) (k2.trans hl) (k3.trans hb) (by omega)
          (by unfold State.spanIn; rw [k3, hi]; exact hrest)
      · cases h

/-! ## One pass of each operation's loop -/

/-- A pass of CKS_CMD (40_checksum.md R121). -/
def cksCmdPass (b : Byte) (s : State) : State := { s with accCmd := cmdStep s.accCmd b, idx := s.idx + 1 }

/-- A pass of CKS_CRC (40_checksum.md R122). -/
def cksCrcPass (b : Byte) (s : State) : State := { s with accCrc := crcStep s.accCrc b, idx := s.idx + 1 }

/-- A pass of ENC_CMD (41_encode.md R141). -/
def encCmdPass (b : Byte) (s : State) : State := { s.emit b with accCmd := cmdStep s.accCmd b, idx := s.idx + 1 }

/-- A pass of ENC_RAW (41_encode.md R142), but for the last byte. -/
def encRawPass (b : Byte) (s : State) : State := { s.emit b with idx := s.idx + 1 }

/-- A pass of ENC_CHUNK over the data (41_encode.md R143). -/
def encChunkPass (b : Byte) (s : State) : State := { s.emit b with accCrc := crcStep s.accCrc b, idx := s.idx + 1 }

theorem cksCmdPass_keeps : PassKeeps cksCmdPass := fun _ _ => ⟨rfl, rfl, rfl, rfl⟩
theorem cksCrcPass_keeps : PassKeeps cksCrcPass := fun _ _ => ⟨rfl, rfl, rfl, rfl⟩
theorem encCmdPass_keeps : PassKeeps encCmdPass := fun _ _ => ⟨rfl, rfl, rfl, rfl⟩
theorem encRawPass_keeps : PassKeeps encRawPass := fun _ _ => ⟨rfl, rfl, rfl, rfl⟩
theorem encChunkPass_keeps : PassKeeps encChunkPass := fun _ _ => ⟨rfl, rfl, rfl, rfl⟩

variable {s : State}

theorem cksCmd_pass {b : Byte} (hp : s.phase = .body) (hi : s.idx.toNat < s.len) (hr : s.readIn s.idx.toNat = some b) :
    exec .cksCmd s = .next (cksCmdPass b s) := by
  simp only [exec, execCksCmd, hp, State.more_of_lt hi, if_true, hr, cksCmdPass]

theorem cksCrc_pass {b : Byte} (hp : s.phase = .body) (hi : s.idx.toNat < s.len) (hr : s.readIn s.idx.toNat = some b) :
    exec .cksCrc s = .next (cksCrcPass b s) := by
  simp only [exec, execCksCrc, hp, State.more_of_lt hi, if_true, hr, cksCrcPass]

theorem encCmd_pass {b : Byte} (hp : s.phase = .body) (hi : s.idx.toNat < s.len) (hr : s.readIn s.idx.toNat = some b) :
    exec .encCmd s = .next (encCmdPass b s) := by
  simp only [exec, execEncCmd, hp, State.more_of_lt hi, if_true, hr, encCmdPass]

theorem encRaw_pass {b : Byte} (hp : s.phase = .body) (hi : s.idx.toNat + 1 < s.len)
    (hr : s.readIn s.idx.toNat = some b) : exec .encRaw s = .next (encRawPass b s) := by
  simp only [exec, execEncRaw, hp, hr, hi, if_true, encRawPass]

theorem encChunk_pass {b : Byte} (hp : s.phase = .body) (hi : s.idx.toNat < s.len)
    (hr : s.readIn s.idx.toNat = some b) : exec .encChunk s = .next (encChunkPass b s) := by
  simp only [exec, execEncChunk, hp, State.more_of_lt hi, if_true, hr, encChunkPass]

/-! ## First steps, when the length check passes -/

theorem cksCmd_start (hp : s.phase = .start) (hl : s.len ≤ s.cfg.inMax) :
    exec .cksCmd s = .next { s with accCmd := 0, phase := .body } := by
  simp only [exec, execCksCmd, hp, State.not_tooLong hl, Bool.false_eq_true, if_false]

theorem cksCrc_start (hp : s.phase = .start) (hl : s.len ≤ s.cfg.inMax) :
    exec .cksCrc s = .next { s with accCrc := 0, phase := .body } := by
  simp only [exec, execCksCrc, hp, State.not_tooLong hl, Bool.false_eq_true, if_false]

theorem encCmd_start (hp : s.phase = .start) (hl : s.len ≤ s.cfg.inMax) :
    exec .encCmd s = .next { s.emit 0x02 with accCmd := 0, phase := .body } := by
  simp only [exec, execEncCmd, hp, State.not_tooLong hl, Bool.false_eq_true, if_false]

theorem encRaw_start (hp : s.phase = .start) (hl : s.len ≤ s.cfg.inMax) (h0 : s.len ≠ 0) :
    exec .encRaw s = .next { s.emit 0x02 with phase := .body } := by
  simp only [exec, execEncRaw, hp, State.not_tooLong hl, Bool.false_eq_true, if_false, h0]

theorem encChunk_start {d : List Byte} (hp : s.phase = .start) (hl : s.len ≤ s.cfg.inMax) (h0 : s.len ≠ 0)
    (hc : s.len ≤ Config.chunkMax) (hd : s.loaded d) :
    exec .encChunk s = .next { s.emit 0x02 with accCrc := 0, phase := .header 0 } := by
  have hd' : s.spanIn 0 s.len = .ok d := hd
  have hz : ¬(s.len = 0 ∨ Config.chunkMax < s.len) := by omega
  simp only [exec, execEncChunk, hp, State.not_tooLong hl, Bool.false_eq_true, if_false, hz, hd']

/-- The seven header steps of ENC_CHUNK (41_encode.md R143). -/
theorem encChunk_header (hp : s.phase = .header 0) :
    execTimes 7 .encChunk s = .next
      { s with
        txs := s.txs ++ chunkHeader s.inLen s.offset, accCrc := (chunkHeader s.inLen s.offset).foldl crcStep s.accCrc,
        phase := .body } := by
  simp [execTimes, exec, execEncChunk, hp, State.headerByte, chunkHeader, State.emit, be16, be32]

/-! ## Last steps, after the loop -/

theorem cksCmd_end (hp : s.phase = .body) (hi : s.len ≤ s.idx.toNat) :
    exec .cksCmd s = .next (s.finishResult s.accCmd) := by
  simp only [exec, execCksCmd, hp, State.not_more hi, Bool.false_eq_true, if_false]

theorem cksCrc_end (hp : s.phase = .body) (hi : s.len ≤ s.idx.toNat) :
    exec .cksCrc s = .next (s.finishResult s.accCrc) := by
  simp only [exec, execCksCrc, hp, State.not_more hi, Bool.false_eq_true, if_false]

/-- The last three steps of ENC_CMD: the end marker and the seal (41_encode.md R141). -/
theorem encCmd_end (hp : s.phase = .body) (hi : s.len ≤ s.idx.toNat) :
    execTimes 3 .encCmd s = .next
      ({ s with
        txs := s.txs ++ [0x03] ++ be16 (cmdStep s.accCmd 0x03), accCmd := cmdStep s.accCmd 0x03,
        phase := .sealLo }.finishResult (cmdStep s.accCmd 0x03)) := by
  have h1 : exec .encCmd s = .next { s.emit 0x03 with accCmd := cmdStep s.accCmd 0x03, phase := .sealHi } := by
    simp only [exec, execEncCmd, hp, State.not_more hi, Bool.false_eq_true, if_false]
  rw [execTimes_succ h1]
  simp [execTimes, exec, execEncCmd, State.emit, be16]

/-- The last step of ENC_RAW (41_encode.md R142). -/
theorem encRaw_end {b : Byte} (hp : s.phase = .body) (hi : s.len ≤ s.idx.toNat + 1)
    (hr : s.readIn s.idx.toNat = some b) : exec .encRaw s = .next (s.emit b).finish := by
  have hn : ¬ s.idx.toNat + 1 < s.len := by omega
  simp only [exec, execEncRaw, hp, hr, hn, if_false]

/-- The last two steps of ENC_CHUNK: the seal (41_encode.md R143). -/
theorem encChunk_end (hp : s.phase = .body) (hi : s.len ≤ s.idx.toNat) :
    execTimes 2 .encChunk s = .next
      ({ s with txs := s.txs ++ be16 s.accCrc, phase := .sealLo }.finishResult s.accCrc) := by
  have h1 : exec .encChunk s = .next { s.emit (hiByte s.accCrc) with phase := .sealLo } := by
    simp only [exec, execEncChunk, hp, State.not_more hi, Bool.false_eq_true, if_false]
  rw [execTimes_succ h1]
  simp [execTimes, exec, execEncChunk, State.emit, be16]

/-! ## What a run of passes leaves -/

/-- IDX after one more byte. -/
theorem idx_succ (i : Half) (n : Nat) : i + 1 + BitVec.ofNat 16 n = i + BitVec.ofNat 16 (n + 1) := by
  rw [Nat.add_comm n 1, BitVec.ofNat_add, BitVec.add_assoc]; rfl

theorem foldl_cksCmdPass (bytes : List Byte) (s : State) :
    bytes.foldl (fun t b => cksCmdPass b t) s =
      { s with accCmd := bytes.foldl cmdStep s.accCmd, idx := s.idx + BitVec.ofNat 16 bytes.length } := by
  induction bytes generalizing s with
  | nil => simp
  | cons b rest ih =>
    rw [List.foldl_cons, ih]
    simp only [cksCmdPass, List.foldl_cons, List.length_cons, idx_succ]

theorem foldl_cksCrcPass (bytes : List Byte) (s : State) :
    bytes.foldl (fun t b => cksCrcPass b t) s =
      { s with accCrc := bytes.foldl crcStep s.accCrc, idx := s.idx + BitVec.ofNat 16 bytes.length } := by
  induction bytes generalizing s with
  | nil => simp
  | cons b rest ih =>
    rw [List.foldl_cons, ih]
    simp only [cksCrcPass, List.foldl_cons, List.length_cons, idx_succ]

theorem foldl_encCmdPass (bytes : List Byte) (s : State) :
    bytes.foldl (fun t b => encCmdPass b t) s =
      { s with
        txs := s.txs ++ bytes, accCmd := bytes.foldl cmdStep s.accCmd,
        idx := s.idx + BitVec.ofNat 16 bytes.length } := by
  induction bytes generalizing s with
  | nil => simp
  | cons b rest ih =>
    rw [List.foldl_cons, ih]
    simp only [encCmdPass, State.emit, List.foldl_cons, List.length_cons, idx_succ, List.append_assoc, List.singleton_append]

theorem foldl_encRawPass (bytes : List Byte) (s : State) :
    bytes.foldl (fun t b => encRawPass b t) s =
      { s with txs := s.txs ++ bytes, idx := s.idx + BitVec.ofNat 16 bytes.length } := by
  induction bytes generalizing s with
  | nil => simp
  | cons b rest ih =>
    rw [List.foldl_cons, ih]
    simp only [encRawPass, State.emit, List.length_cons, idx_succ, List.append_assoc, List.singleton_append]

theorem foldl_encChunkPass (bytes : List Byte) (s : State) :
    bytes.foldl (fun t b => encChunkPass b t) s =
      { s with
        txs := s.txs ++ bytes, accCrc := bytes.foldl crcStep s.accCrc,
        idx := s.idx + BitVec.ofNat 16 bytes.length } := by
  induction bytes generalizing s with
  | nil => simp
  | cons b rest ih =>
    rw [List.foldl_cons, ih]
    simp only [encChunkPass, State.emit, List.foldl_cons, List.length_cons, idx_succ, List.append_assoc, List.singleton_append]

end Sys2Proof.Machine
end

