-- ==== Sys2Proof/Laws/Reader.lean ====
section
/-! SUPPORT. The Frame Reader (42_decode.md R170 to R179) on a buffer whose bytes are known: one byte, then a run of
bytes inside a frame, then the noise before one. -/

namespace Sys2Proof.Machine

variable {s : State}

/-- The reader has stored exactly `bytes`. -/
structure State.HasStored (s : State) (bytes : List Byte) : Prop where
  buf : s.rxBuf = Memory.ofBytes bytes
  len : s.rxLen = BitVec.ofNat 16 bytes.length
  small : bytes.length ≤ 65535

/-- A received frame is complete (R173). -/
def FrameComplete (bytes : List Byte) : Prop := 4 ≤ bytes.length ∧ bytes[bytes.length - 3]? = some 0x03

theorem State.HasStored.toNat {bytes : List Byte} (h : s.HasStored bytes) : s.rxLen.toNat = bytes.length := by
  have := h.small
  rw [h.len, BitVec.toNat_ofNat]
  omega

theorem State.HasStored.byte {bytes : List Byte} (h : s.HasStored bytes) {i : Nat} (hi : i < bytes.length) :
    s.rxByte i = bytes[i] := by
  rw [State.rxByte, h.buf, Memory.read_ofBytes, List.getElem?_eq_getElem hi]
  rfl

theorem State.HasStored.span {bytes : List Byte} (h : s.HasStored bytes) (i k : Nat) (hk : i + k ≤ bytes.length) :
    s.rxSpan i k = (bytes.drop i).take k := by
  apply List.ext_getElem
  · simp [State.rxSpan]; omega
  · intro j h1 h2
    have hj : j < k := by simpa [State.rxSpan] using h1
    simp [State.rxSpan, h.byte (i := i + j) (by omega)]

theorem State.HasStored.append {bytes : List Byte} (h : s.HasStored bytes) (hs : bytes.length < 65535) (b : Byte) :
    (rxAppend b s).HasStored (bytes ++ [b]) where
  buf := by simp [rxAppend, h.toNat, h.buf, Memory.write_ofBytes]
  len := by simp [rxAppend, h.len, BitVec.ofNat_add]
  small := by simp; omega

/-- The completion test of R173 on known bytes. -/
theorem State.HasStored.complete_iff {bytes : List Byte} (h : s.HasStored bytes) :
    (4 ≤ s.rxLen.toNat ∧ s.rxByte (s.rxLen.toNat - 3) = 0x03) ↔ FrameComplete bytes := by
  rw [h.toNat, FrameComplete]
  constructor
  · rintro ⟨h4, h3⟩
    rw [h.byte (by omega)] at h3
    exact ⟨h4, by rw [List.getElem?_eq_getElem (by omega), h3]⟩
  · rintro ⟨h4, h3⟩
    rw [List.getElem?_eq_getElem (by omega)] at h3
    rw [h.byte (by omega)]
    exact ⟨h4, by simpa using h3⟩

/-- A frame whose bytes up to the third from last hold no 0x03 is not complete (R173). -/
theorem not_complete {body : List Byte} {j : Nat} (hj : j ≤ body.length) (h : ¬ (0x03 : Byte) ∈ body.take (j - 2)) :
    ¬FrameComplete ([0x02] ++ body.take j) := by
  rintro ⟨h4, h3⟩
  have hl : ([0x02] ++ body.take j : List Byte).length = 1 + j := by simp; omega
  rw [hl] at h4 h3
  apply h
  rw [List.getElem?_append_right (by simp; omega), List.getElem?_take, if_pos (by simp; omega)] at h3
  apply List.mem_of_getElem? (i := j - 3)
  rw [List.getElem?_take, if_pos (by omega), ← h3]
  congr 1
  simp
  omega

/-- RX_FRAME takes the oldest byte. -/
theorem rxFrame_take {b : Byte} {rest : List Byte} (hq : s.rxq = b :: rest) :
    exec .rxFrame s = .next (rxTake b { s with rxq := rest }) := by
  rw [exec, execRxFrame_eq, hq]

/-- A byte taken by RX_FRAME keeps the canonical form of RX_BUF. -/
theorem rxTake_wf (h : Memory.wf s.rxBuf) (b : Byte) : Memory.wf (rxTake b s).rxBuf := by
  have ha : Memory.wf (rxAppend b s).rxBuf := Memory.write_wf h _ b
  rcases rxTake_cases b s with ⟨-, -, e⟩ | ⟨-, -, e⟩ | ⟨-, -, -, -, e⟩ | ⟨-, -, -, e⟩ | ⟨-, -, -, e⟩ | ⟨-, -, -, e⟩ <;>
    rw [e]
  · exact h
  · exact Memory.write_wf h 0 0x02
  · exact h
  · exact ha
  · exact ha
  · exact ha

/-- A byte that leaves the frame open (R173). -/
theorem rxTake_open {bytes : List Byte} {b : Byte} (h : s.HasStored bytes) (hi : s.rxInf = true)
    (hs : bytes.length < 65535) (hc : ¬FrameComplete (bytes ++ [b])) (hm : bytes.length + 1 ≠ s.cfg.rxMax) :
    rxTake b s = rxAppend b s := by
  have ha := h.append hs b
  rcases rxTake_cases b s with ⟨c, -, -⟩ | ⟨c, -, -⟩ | ⟨c, -, -, -, -⟩ | ⟨-, h1, h2, -⟩ | ⟨-, -, h2, -⟩ | ⟨-, -, -, e⟩
  · rw [hi] at c; cases c
  · rw [hi] at c; cases c
  · rw [hi] at c; cases c
  · exact absurd (ha.complete_iff.1 ⟨h1, h2⟩) hc
  · rw [ha.toNat] at h2; simp at h2; omega
  · exact e

/-- A byte that completes the frame (R173, R177). -/
theorem rxTake_complete {bytes : List Byte} {b : Byte} (h : s.HasStored bytes) (hi : s.rxInf = true)
    (hs : bytes.length < 65535) (hc : FrameComplete (bytes ++ [b])) :
    rxTake b s =
      verifyRx (rxAppend b s).rxLen { rxAppend b s with status := (rxAppend b s).status.withKind kindFrame } := by
  have ha := h.append hs b
  rcases rxTake_cases b s with ⟨c, -, -⟩ | ⟨c, -, -⟩ | ⟨c, -, -, -, -⟩ | ⟨-, -, -, e⟩ | ⟨-, h1, -, -⟩ | ⟨-, h1, -, -⟩
  · rw [hi] at c; cases c
  · rw [hi] at c; cases c
  · rw [hi] at c; cases c
  · exact e
  · exact absurd (ha.complete_iff.2 hc) h1
  · exact absurd (ha.complete_iff.2 hc) h1

/-- A byte that fills RX_BUF without completing the frame (R175). -/
theorem rxTake_overflow {bytes : List Byte} {b : Byte} (h : s.HasStored bytes) (hi : s.rxInf = true)
    (hs : bytes.length < 65535) (hc : ¬FrameComplete (bytes ++ [b])) (hm : bytes.length + 1 = s.cfg.rxMax) :
    rxTake b s = (rxAppend b s).raise .rxOverflow := by
  have ha := h.append hs b
  rcases rxTake_cases b s with ⟨c, -, -⟩ | ⟨c, -, -⟩ | ⟨c, -, -, -, -⟩ | ⟨-, h1, h2, -⟩ | ⟨-, -, -, e⟩ | ⟨-, -, h2, -⟩
  · rw [hi] at c; cases c
  · rw [hi] at c; cases c
  · rw [hi] at c; cases c
  · exact absurd (ha.complete_iff.1 ⟨h1, h2⟩) hc
  · exact e
  · rw [ha.toNat] at h2; simp at h2; omega

/-- A run of bytes that leaves the frame open. -/
theorem reader_run (more : List Byte) :
    ∀ (s : State) (bytes rest : List Byte), s.inFlight = some .rxFrame → s.HasStored bytes → s.rxInf = true →
      s.rxq = more ++ rest → bytes.length + more.length < s.cfg.rxMax → s.cfg.rxMax ≤ 65535 →
      (∀ k, 1 ≤ k → k ≤ more.length → ¬FrameComplete (bytes ++ more.take k)) →
      engineTimes more.length s = .next
        { s with
          rxq := rest, rxBuf := Memory.ofBytes (bytes ++ more),
          rxLen := BitVec.ofNat 16 (bytes ++ more).length } := by
  induction more with
  | nil =>
    intro s bytes rest hf h hi hq hm hw hc
    have hb := h.buf
    have hl := h.len
    simp only [List.nil_append] at hq
    simp only [List.append_nil, ← hb, ← hl, ← hq]
    rfl
  | cons b more ih =>
    intro s bytes rest hf h hi hq hm hw hc
    simp only [List.length_cons] at hm
    have h' : State.HasStored { s with rxq := more ++ rest } bytes := ⟨h.buf, h.len, h.small⟩
    have hstep : engineTurn s = .next (rxAppend b { s with rxq := more ++ rest }) := by
      rw [engineTurn_of_inFlight hf, rxFrame_take (hq.trans List.cons_append),
        rxTake_open h' hi (by omega) (by simpa using hc 1 (by omega) (by simp))
          (by show bytes.length + 1 ≠ s.cfg.rxMax; omega)]
    rw [List.length_cons, engineTimes_succ hstep]
    rw [ih (rxAppend b { s with rxq := more ++ rest }) (bytes ++ [b]) rest hf (h'.append (by omega) b) hi rfl
      (by simp; show _ < s.cfg.rxMax; omega) hw
      (by
        intro k h1 h2
        have := hc (k + 1) (by omega) (by simp; omega)
        simpa using this)]
    simp [rxAppend]

/-- Noise before a frame is consumed and discarded (R172; 70_reset_and_hazards.md R254). -/
theorem reader_noise (noise : List Byte) :
    ∀ (s : State) (rest : List Byte), s.inFlight = some .rxFrame → s.rxInf = false → s.rxq = noise ++ rest →
      (∀ x ∈ noise, x ≠ 0x02 ∧ x ≠ 0x05 ∧ x ≠ 0x06) → engineTimes noise.length s = .next { s with rxq := rest } := by
  induction noise with
  | nil => intro s rest hf hi hq hn; simp only [List.nil_append] at hq; simp only [← hq]; rfl
  | cons b noise ih =>
    intro s rest hf hi hq hn
    have hb := hn b (by simp)
    have hstep : engineTurn s = .next { s with rxq := noise ++ rest } := by
      rw [engineTurn_of_inFlight hf, rxFrame_take (hq.trans List.cons_append)]
      rcases rxTake_cases b { s with rxq := noise ++ rest } with
        ⟨-, c, -⟩ | ⟨-, c, -⟩ | ⟨-, -, -, -, e⟩ | ⟨c, -, -, -⟩ | ⟨c, -, -, -⟩ | ⟨c, -, -, -⟩
      · exact absurd c (by tauto)
      · exact absurd c hb.1
      · rw [e]
      · exact absurd c (by simp [hi])
      · exact absurd c (by simp [hi])
      · exact absurd c (by simp [hi])
    rw [List.length_cons, engineTimes_succ hstep, ih { s with rxq := noise ++ rest } rest hf hi rfl
      (fun x hx => hn x (by simp [hx]))]

/-- 0x02 outside a frame opens one (R172). -/
theorem reader_open {rest : List Byte} (hf : s.inFlight = some .rxFrame) (hi : s.rxInf = false)
    (hq : s.rxq = 0x02 :: rest) (hb : s.rxBuf = []) :
    engineTurn s = .next { s with rxq := rest, rxInf := true, rxBuf := Memory.ofBytes [0x02], rxLen := 1 } := by
  rw [engineTurn_of_inFlight hf, rxFrame_take hq]
  simp [rxTake, hi, rxOutside, hb, Memory.write, Memory.ofBytes]

/-- From the start of RX_FRAME: noise, 0x02, and bytes that leave the frame open. -/
theorem reader_to_open {noise more rest : List Byte} (hf : s.inFlight = some .rxFrame) (hi : s.rxFresh)
    (hq : s.rxq = noise ++ 0x02 :: (more ++ rest)) (hn : ∀ x ∈ noise, x ≠ 0x02 ∧ x ≠ 0x05 ∧ x ≠ 0x06)
    (hm : more.length + 1 < s.cfg.rxMax) (hw : s.cfg.rxMax ≤ 65535)
    (hc : ¬ (0x03 : Byte) ∈ more.take (more.length - 2)) :
    engineTimes (noise.length + (more.length + 1)) s = .next
      { s with
        rxq := rest, rxInf := true, rxBuf := Memory.ofBytes ([0x02] ++ more),
        rxLen := BitVec.ofNat 16 (more.length + 1) } := by
  have h1 := reader_noise noise s _ hf hi.1 hq hn
  have h2 := reader_open (s := { s with rxq := 0x02 :: (more ++ rest) }) hf hi.1 rfl hi.2.2
  have hst : State.HasStored
      { s with rxq := more ++ rest, rxInf := true, rxBuf := Memory.ofBytes [0x02], rxLen := 1 } [0x02] :=
    ⟨rfl, rfl, by simp⟩
  have h3 := reader_run more
    { s with rxq := more ++ rest, rxInf := true, rxBuf := Memory.ofBytes [0x02], rxLen := 1 } [0x02] rest hf hst rfl rfl
    (by simp; show _ < s.cfg.rxMax; omega) hw
    (by
      intro k _ hk
      refine not_complete hk (fun hmem => hc ?_)
      have : more.take (k - 2) = (more.take (more.length - 2)).take (k - 2) := by
        rw [List.take_take, Nat.min_eq_left (by omega)]
      rw [this] at hmem
      exact List.mem_of_mem_take hmem)
  refine (engineTimes_add h1 _).trans ((engineTimes_succ h2 _).trans (h3.trans ?_))
  simp [Nat.add_comm]

/-- The byte that completes a frame without an earlier 0x03: the frame is verified and returned (R173, R177). -/
theorem reader_finish {pre rest : List Byte} {hi lo : Byte} (hf : s.inFlight = some .rxFrame) (hinf : s.rxInf = true)
    (hst : s.HasStored ([0x02] ++ (pre ++ [0x03, hi]))) (hq : s.rxq = lo :: rest) (hm : pre.length + 4 ≤ 65535) :
    engineTurn s = .next
      { s with
        rxq := rest, rxLen := BitVec.ofNat 16 (pre.length + 4),
        rxBuf := Memory.ofBytes ([0x02] ++ pre ++ [0x03, hi, lo]), result := cmdChecksum (pre ++ [0x03]),
        accCmd := cmdChecksum (pre ++ [0x03]), recv := ofBe16 hi lo, plen := BitVec.ofNat 16 pre.length, opcur := none, idx := 0, phase := .start,
        status :=
          { s.status with
            busy := false, done := true, kind := 2, ckValid := true,
            ckOk := decide (cmdChecksum (pre ++ [0x03]) = ofBe16 hi lo),
            err := if cmdChecksum (pre ++ [0x03]) = ofBe16 hi lo then s.status.err else 7 } } := by
  have hst3 : State.HasStored { s with rxq := rest } ([0x02] ++ (pre ++ [0x03, hi])) :=
    ⟨hst.buf, hst.len, hst.small⟩
  rw [engineTurn_of_inFlight hf, rxFrame_take hq]
  have hcomp : FrameComplete ([0x02] ++ (pre ++ [0x03, hi]) ++ [lo]) := ⟨by simp, by simp⟩
  rw [rxTake_complete hst3 hinf (by simp; omega) hcomp]
  have hst4 := hst3.append (by simp; omega) lo
  have hst5 : State.HasStored
      { rxAppend lo { s with rxq := rest } with
        status := (rxAppend lo { s with rxq := rest }).status.withKind kindFrame }
      ([0x02] ++ (pre ++ [0x03, hi]) ++ [lo]) := ⟨hst4.buf, hst4.len, hst4.small⟩
  have hL : ([0x02] ++ (pre ++ [0x03, hi]) ++ [lo] : List Byte).length = pre.length + 4 := by simp
  unfold verifyRx
  rw [hst4.toNat, hL, hst5.span _ _ (by simp; omega), hst5.byte (by simp), hst5.byte (by simp)]
  have e1 : List.take (pre.length + 4 - 3) (List.drop 1 ([0x02] ++ (pre ++ [0x03, hi]) ++ [lo])) = pre ++ [0x03] := by
    simp [List.take_append]
  have e2 : ([0x02] ++ (pre ++ [0x03, hi]) ++ [lo] : List Byte)[pre.length + 4 - 2]'(by simp) = hi := by
    rw [List.getElem_append_left (by simp), List.getElem_append_right (by simp), List.getElem_append_right (by simp)]
    simp
  have e3 : ([0x02] ++ (pre ++ [0x03, hi]) ++ [lo] : List Byte)[pre.length + 4 - 1]'(by simp) = lo := by
    rw [List.getElem_append_right (by simp)]
    simp
  have hlen : (rxAppend lo { s with rxq := rest }).rxLen - 4 = BitVec.ofNat 16 pre.length := by
    rw [hst4.len, hL, BitVec.ofNat_add]
    simp
  rw [e1, e2, e3, hlen]
  have hbuf := hst4.buf
  have hlen2 := hst4.len
  have eb : [0x02] ++ (pre ++ [0x03, hi]) ++ [lo] = [0x02] ++ pre ++ [0x03, hi, lo] := by simp
  rw [hL] at hlen2
  rw [eb] at hbuf
  simp only [State.verdict, State.finish, Status.compared_eq, Status.finish, ErrCode.bits, Status.withKind, kindFrame]
  simp only [rxAppend] at hbuf hlen2 ⊢
  simp only [hbuf, hlen2]

/-- A run that has ended the operation goes on unchanged. -/
theorem engineTimes_done {j k : Nat} {t : State} (h : engineTimes j s = .next t) (ht : t.inFlight = none) (hk : j ≤ k) :
    engineTimes k s = .next t := by
  obtain ⟨m, rfl⟩ := Nat.exists_eq_add_of_le hk
  rw [engineTimes_add h, engineTimes_of_none ht]

end Sys2Proof.Machine
end

