-- ==== Sys2Proof/Laws/Invariant.lean ====
section
/-! SUPPORT. How the machine's invariant (Safety.lean) is carried over an update: by its STATUS, and by whether the
operation has ended, goes on, or was not touched. -/

namespace Sys2Proof.Machine

/-! ## STATUS -/

theorem statusOk_finish {st : Status} (h : StatusOk st) : StatusOk st.finish :=
  ⟨by simp [Status.finish], h.2.1, h.2.2.1, h.2.2.2.1, h.2.2.2.2.1, fun hb => by cases hb⟩

/-- `raise Err` with any code but CK_MISMATCH, from an operation in flight (60_exceptions.md R211). -/
theorem statusOk_raise {st : Status} (h : StatusOk st) (hb : st.busy = true) {e : ErrCode} (he : e ≠ .ckMismatch) :
    StatusOk (st.withErr e).finish := by
  obtain ⟨-, h2, -, h4, -, h6⟩ := h
  obtain ⟨-, k1, k2, -⟩ := h6 hb
  refine ⟨by simp [Status.finish], by simpa [Status.finish, Status.withErr] using h2, ?_,
    by simpa [Status.finish, Status.withErr] using h4, ?_, by simp [Status.finish]⟩
  · simp only [Status.finish, Status.withErr]; cases e <;> decide
  · simp only [Status.finish, Status.withErr]; cases e <;> simp_all [ErrCode.bits]

/-- A comparison's flags, from an operation in flight (42_decode.md R177). -/
theorem statusOk_compared {st : Status} (h : StatusOk st) (hb : st.busy = true) (c r : Half) {k : BitVec 2}
    (hk : k ≠ 3) : StatusOk ((st.withKind k).compared c r).finish := by
  obtain ⟨-, -, h3, -, -, h6⟩ := h
  obtain ⟨-, -, -, k3⟩ := h6 hb
  rw [Status.compared_eq]
  refine ⟨by simp [Status.finish], by simpa [Status.finish, Status.withKind] using hk, ?_, by simp [Status.finish], ?_,
    by simp [Status.finish]⟩
  · simp only [Status.finish, Status.withKind]
    split
    · exact h3
    · decide
  · simp only [Status.finish, Status.withKind]
    split
    · intro he; rw [k3] at he; cases he
    · next h => intro _; exact ⟨trivial, decide_eq_false h⟩

/-! ## The invariant -/

/-- What the invariant says of RX_BUF and RX_LEN whatever is in flight. -/
abbrev StoredOk (s : State) : Prop :=
  s.rxBuf.map Prod.fst = List.range s.rxLen.toNat ∧ s.rxLen.toNat ≤ s.cfg.rxMax ∧
    (0 < s.rxLen.toNat → Memory.read s.rxBuf 0 = some 0x02)

theorem State.Inv.stored {s : State} (h : s.Inv) : StoredOk s := ⟨h.reader.1, h.reader.2.1, h.reader.2.2.1⟩

/-- An update that ends the operation. -/
theorem State.Inv.ended {s t : State} (h : s.Inv) (hb : t.status.busy = false) (hst : StatusOk t.status)
    (hc : t.cfg = s.cfg) (ho : t.opcur = none ∧ t.idx = 0 ∧ t.phase = .start) (hi : t.inBuf = s.inBuf)
    (hr : StoredOk t) (hs : SignalOk t) : t.Inv := by
  have hf := State.inFlight_of_idle hb
  refine ⟨by rw [hc]; exact h.cfg, hst, ?_, ?_, ?_, ?_, hs⟩
  · unfold FlightOk; rw [if_neg (by simp [hb])]; exact ho
  · unfold ProgressOk; rw [hf]; trivial
  · unfold InBufOk; rw [hi, hc]; exact h.inBuf
  · exact ⟨hr.1, hr.2.1, hr.2.2, by rw [hf]; intro h; cases h⟩

/-- An ENGINE step that keeps its operation in flight and leaves the reader alone. -/
theorem State.Inv.goesOn {s t : State} {i : Instr} (h : s.Inv) (hf : s.inFlight = some i) (hst : t.status = s.status)
    (hc : t.cfg = s.cfg) (ho : t.opcur = s.opcur) (hw : t.opword = s.opword) (hi : t.inBuf = s.inBuf)
    (hr : t.rxBuf = s.rxBuf ∧ t.rxLen = s.rxLen ∧ t.rxInf = s.rxInf) (hs : t.signal = s.signal)
    (hp : ProgressOf i t) : t.Inv := by
  have hf' : t.inFlight = some i := by rw [← hf]; exact State.inFlight_congr (by rw [hst]) ho hw
  have hfl := h.flight
  refine ⟨by rw [hc]; exact h.cfg, by rw [hst]; exact h.status, ?_, ?_, ?_, ?_, ?_⟩
  · unfold FlightOk at hfl ⊢
    rw [if_pos (State.busy_of_inFlight hf)] at hfl
    rw [if_pos (State.busy_of_inFlight hf'), ho, hw]
    exact hfl
  · unfold ProgressOk; rw [hf']; exact hp
  · unfold InBufOk; rw [hi, hc]; exact h.inBuf
  · have := h.reader
    unfold ReaderOk at this ⊢
    rw [hf] at this
    rw [hr.1, hr.2.1, hr.2.2, hc, hf']
    exact this
  · unfold SignalOk; rw [hs]; exact h.signal

/-- An update that touches nothing the invariant speaks of but HERR. -/
theorem State.Inv.untouched {s t : State} (h : s.Inv) (hst : ∃ b, t.status = { s.status with herr := b })
    (hc : t.cfg = s.cfg) (ho : t.opcur = s.opcur ∧ t.idx = s.idx ∧ t.phase = s.phase) (hw : t.opword = s.opword)
    (hi : t.inBuf = s.inBuf ∧ t.inLen = s.inLen) (hr : t.rxBuf = s.rxBuf ∧ t.rxLen = s.rxLen ∧ t.rxInf = s.rxInf)
    (hs : t.signal = s.signal) : t.Inv := by
  obtain ⟨b, hst⟩ := hst
  have hf : t.inFlight = s.inFlight := State.inFlight_congr (by rw [hst]) ho.1 hw
  refine ⟨by rw [hc]; exact h.cfg, by rw [hst]; exact h.status, ?_, ?_, ?_, ?_, ?_⟩
  · have := h.flight; unfold FlightOk at this ⊢; rw [hst, ho.1, hw, ho.2.1, ho.2.2]; exact this
  · have := h.progress
    unfold ProgressOk at this ⊢
    rw [hf]
    unfold ProgressOf State.len at *
    rw [ho.2.2, ho.2.1, hi.2, hc]
    exact this
  · unfold InBufOk; rw [hi.1, hc]; exact h.inBuf
  · have := h.reader; unfold ReaderOk at this ⊢; rw [hr.1, hr.2.1, hr.2.2, hc, hf]; exact this
  · unfold SignalOk; rw [hs]; exact h.signal

/-- What the HOST can do while BUSY. -/
theorem State.Inv.hostOnly {s t : State} (h : s.Inv) (ht : HostOnly s t) : t.Inv := by
  obtain ⟨a, b, c, d, rfl⟩ := ht
  exact h.untouched ⟨a, rfl⟩ rfl ⟨rfl, rfl, rfl⟩ rfl ⟨rfl, rfl⟩ ⟨rfl, rfl, rfl⟩ rfl

/-- An operation ends with an error (60_exceptions.md R211). -/
theorem State.Inv.raise {s : State} (h : s.Inv) (hb : s.status.busy = true) {e : ErrCode} (he : e ≠ .ckMismatch) :
    (s.raise e).Inv :=
  h.ended rfl (statusOk_raise h.status hb he) rfl ⟨rfl, rfl, rfl⟩ rfl h.stored h.signal

end Sys2Proof.Machine
end

