-- ==== Sys2Proof/Laws/Load.lean ====
section
/-! SUPPORT. The HOST's `load` (30_encoding.md R87), run from an idle block: what IN and IN_LEN hold after it. -/

namespace Sys2Proof.Machine

/-- The `wrb` lines, each with its index. -/
theorem wrbLines_eq (bytes : List Byte) (i : Nat) :
    wrbLines i bytes = (bytes.zipIdx i).map (fun c => HostLine.wrb c.2 c.1) := by
  induction bytes generalizing i with
  | nil => rfl
  | cons b rest ih => simp [wrbLines, ih]

/-- A `wrb` line of an idle block is one step; a byte at or above IN_MAX is ignored (20_memory.md R57). -/
theorem step_wrb {s : State} {i : Nat} {b : Byte} {lines : List HostLine} (ha : s.agenda = [])
    (hb : s.status.busy = false) (hp : s.hostProg = .wrb i b :: lines) :
    step s = .next
      { s with hostProg := lines, inBuf := if s.cfg.inMax ≤ i then s.inBuf else Memory.write s.inBuf i b } := by
  rw [step_host ha (State.inFlight_of_idle hb), hostTurn_cons hp]
  simp only [runLine, State.writeIn, State.unlessBusy, State.setProg, hb, Bool.false_eq_true, if_false]
  split <;> rfl

/-- The `wr IN_LEN` line of an idle block (10_state.md R28: the register keeps 16 bits). -/
theorem step_wr_inLen {s : State} {v : Word} {lines : List HostLine} (ha : s.agenda = [])
    (hb : s.status.busy = false) (hp : s.hostProg = .wr 5 v :: lines) :
    step s = .next { s with hostProg := lines, inLen := v.setWidth 16 } := by
  rw [step_host ha (State.inFlight_of_idle hb), hostTurn_cons hp]
  simp [runLine, State.writeReg, State.unlessBusy, State.setProg, hb]

/-- The `wrb` lines of a load. -/
theorem run_wrbLines (bytes : List Byte) : ∀ {s : State} {i : Nat} {lines : List HostLine}, s.agenda = [] →
    s.status.busy = false → s.hostProg = wrbLines i bytes ++ lines →
    ∃ buf, Host.Core.run Sys2Proof.core bytes.length s = .next { s with hostProg := lines, inBuf := buf } ∧
      ∀ j, Memory.read buf j =
        if i ≤ j ∧ j < i + bytes.length ∧ j < s.cfg.inMax then bytes[j - i]? else Memory.read s.inBuf j := by
  induction bytes with
  | nil =>
    intro s i lines _ _ hp
    refine ⟨s.inBuf, ?_, fun j => (if_neg (by simp; omega)).symm⟩
    rw [List.length_nil, run_zero, ← (show s.hostProg = lines from hp)]
  | cons b rest ih =>
    intro s i lines ha hb hp
    have h1 := step_wrb ha hb (show s.hostProg = .wrb i b :: (wrbLines (i + 1) rest ++ lines) from hp)
    obtain ⟨buf, hr, hj⟩ := ih (i := i + 1) (lines := lines)
      (s := { s with
        hostProg := wrbLines (i + 1) rest ++ lines,
        inBuf := if s.cfg.inMax ≤ i then s.inBuf else Memory.write s.inBuf i b }) ha hb rfl
    refine ⟨buf, by rw [List.length_cons, run_succ h1, hr], fun j => ?_⟩
    have key : Memory.read (if s.cfg.inMax ≤ i then s.inBuf else Memory.write s.inBuf i b) j =
        if j = i ∧ i < s.cfg.inMax then some b else Memory.read s.inBuf j := by
      split
      · rw [if_neg (by omega)]
      · rw [Memory.read_write]
        by_cases h : j = i
        · rw [if_pos h, if_pos (by omega)]
        · rw [if_neg h, if_neg (by omega)]
    rw [hj j]
    dsimp only
    rw [key, List.length_cons]
    by_cases h : i + 1 ≤ j ∧ j < i + 1 + rest.length ∧ j < s.cfg.inMax
    · rw [if_pos h, if_pos (by omega), show j - i = (j - (i + 1)) + 1 by omega, List.getElem?_cons_succ]
    · rw [if_neg h]
      by_cases h' : j = i ∧ i < s.cfg.inMax
      · rw [if_pos h', if_pos (by omega), h'.1, Nat.sub_self, List.getElem?_cons_zero]
      · rw [if_neg h', if_neg (by omega)]

/-- `load s` from an idle block: the bytes below IN_MAX are in IN, and IN_LEN keeps 16 bits of their number. -/
theorem run_loadLines {s : State} {bytes : List Byte} {lines : List HostLine} (ha : s.agenda = [])
    (hb : s.status.busy = false) (hp : s.hostProg = loadLines bytes ++ lines) :
    ∃ buf, Host.Core.run Sys2Proof.core (bytes.length + 1) s = .next
        { s with hostProg := lines, inBuf := buf, inLen := BitVec.ofNat 16 bytes.length } ∧
      ∀ j, Memory.read buf j =
        if j < bytes.length ∧ j < s.cfg.inMax then bytes[j]? else Memory.read s.inBuf j := by
  obtain ⟨buf, hr, hj⟩ := run_wrbLines bytes (i := 0) (lines := .wr 5 (BitVec.ofNat 32 bytes.length) :: lines) ha hb
    (by rw [hp, loadLines, List.append_assoc]; rfl)
  refine ⟨buf, ?_, fun j => by rw [hj j]; simp⟩
  have hw : (BitVec.ofNat 32 bytes.length).setWidth 16 = BitVec.ofNat 16 bytes.length := by
    apply BitVec.eq_of_toNat_eq
    simp only [BitVec.toNat_setWidth, BitVec.toNat_ofNat]
    omega
  rw [run_add hr, run_succ (step_wr_inLen (s := { s with
    hostProg := .wr 5 (BitVec.ofNat 32 bytes.length) :: lines, inBuf := buf }) ha hb rfl), run_zero, hw]

end Sys2Proof.Machine
end

