-- ==== Sys2Proof/Laws/PerInstr.lean ====
section
/-! SUPPORT. The family RowFit: an instruction's encoding fits its row of spec/opcode_table.json, the match under the
mask for an operation word (30_encoding.md R82), the first byte for a wire unit (R73 to R80). -/

namespace Sys2Proof.Laws.RowFit

/-- The row's mask. -/
def mask : Instr → Word
  | .cksCmd => 0xFFFFFFFF
  | .cksCrc => 0xFFFFFFFF
  | .encCmd => 0xFFFFFFFF
  | .encRaw => 0xFFFFFFFF
  | .encChunk => 0xFFFFFFFF
  | .sigTx _ => 0xFFFF00FF
  | .rxFrame => 0xFFFFFFFF
  | .verCmd => 0xFFFFFFFF
  | .verCrc => 0xFFFFFFFF
  | .wireM _ => 0xFF
  | .wireL _ _ => 0xFF
  | .wireO _ _ _ _ _ => 0xFF
  | .wireW _ _ => 0xFF
  | .wireC => 0xFF
  | .wireS => 0xFF
  | .wireSigNak => 0xFF
  | .wireSigAck => 0xFF

/-- The row's match. -/
def value : Instr → Word
  | .cksCmd => 0x00000001
  | .cksCrc => 0x00000002
  | .encCmd => 0x00000003
  | .encRaw => 0x00000004
  | .encChunk => 0x00000005
  | .sigTx _ => 0x00000006
  | .rxFrame => 0x00000007
  | .verCmd => 0x00000008
  | .verCrc => 0x00000009
  | .wireM _ => 0x4D
  | .wireL _ _ => 0x4C
  | .wireO _ _ _ _ _ => 0x4F
  | .wireW _ _ => 0x57
  | .wireC => 0x43
  | .wireS => 0x53
  | .wireSigNak => 0x05
  | .wireSigAck => 0x06

/-- The bits a row looks at: all of an operation word, the first byte of a wire unit. -/
def tableBits : Code → Option Word
  | .word w => some w
  | .wire [] => none
  | .wire (b :: _) => some (b.setWidth 32)

/-- The encoding fits its row. -/
def Statement (i : Instr) : Prop := ∃ w, tableBits (encode i) = some w ∧ w &&& mask i = value i

theorem cksCmd : Statement .cksCmd := ⟨_, rfl, by decide⟩
theorem cksCrc : Statement .cksCrc := ⟨_, rfl, by decide⟩
theorem encCmd : Statement .encCmd := ⟨_, rfl, by decide⟩
theorem encRaw : Statement .encRaw := ⟨_, rfl, by decide⟩
theorem encChunk : Statement .encChunk := ⟨_, rfl, by decide⟩
theorem sigTx (arg : Byte) : Statement (.sigTx arg) := by
  refine ⟨_, rfl, ?_⟩
  apply BitVec.eq_of_getLsbD_eq
  intro i hi
  interval_cases i <;> simp [mask, value]
theorem rxFrame : Statement .rxFrame := ⟨_, rfl, by decide⟩
theorem verCmd : Statement .verCmd := ⟨_, rfl, by decide⟩
theorem verCrc : Statement .verCrc := ⟨_, rfl, by decide⟩
theorem wireM (text : List Byte) : Statement (.wireM text) := ⟨_, rfl, by simp [mask, RowFit.value]⟩
theorem wireL (name : List Byte) (value : Option (List Byte)) : Statement (.wireL name value) := ⟨_, rfl, by simp [mask, RowFit.value]⟩
theorem wireO (kind : Byte) (unknown1 timestamp unknown2 name : List Byte) :
    Statement (.wireO kind unknown1 timestamp unknown2 name) := ⟨_, rfl, by simp [mask, RowFit.value]⟩
theorem wireW (off : Word) (data : List Byte) : Statement (.wireW off data) := ⟨_, rfl, by simp [mask, RowFit.value]⟩
theorem wireC : Statement .wireC := ⟨_, rfl, by decide⟩
theorem wireS : Statement .wireS := ⟨_, rfl, by decide⟩
theorem wireSigNak : Statement .wireSigNak := ⟨_, rfl, by decide⟩
theorem wireSigAck : Statement .wireSigAck := ⟨_, rfl, by decide⟩

end Sys2Proof.Laws.RowFit
end

