-- ==== Sys2Proof/Tests/Slice0.lean ====
section
/-! SUPPORT. Tests: what WellFormed refuses, decodings of words written out from the spec, single steps with values of
spec/95_test_vectors.md, and for every statement with hypotheses a state that meets them. -/

namespace Sys2Proof.Tests

open Sys2Proof Sys2Proof.Machine

/-! ## States -/

/-- The next state of an outcome. -/
def nextOf (o : Host.Outcome State Fault Refusal) : Option State :=
  match o with
  | .next t => some t
  | .fault _ => none
  | .refused _ => none

/-- The fault of an outcome. -/
def faultOf (o : Host.Outcome State Fault Refusal) : Option Fault :=
  match o with
  | .next _ => none
  | .fault f => some f
  | .refused _ => none

/-- What the host would read in STATUS after an outcome. -/
def statusOf (o : Host.Outcome State Fault Refusal) : Option Word := (nextOf o).map (fun t => t.status.word)

/-- The reset state with bytes loaded in IN. -/
def withIn (bytes : List Byte) : State :=
  { State.reset with inBuf := Memory.ofBytes bytes, inLen := BitVec.ofNat 16 bytes.length }

/-- An accepted operation word over loaded bytes. -/
def flying (w : Word) (bytes : List Byte) : State := (withIn bytes).startOp w

/-- An accepted operation word with IN_LEN = IN_MAX + 1. -/
def tooLong (w : Word) : State := { State.reset with inLen := 2049 }.startOp w

/-- RX_FRAME in flight with received bytes. -/
def receiving (bytes : List Byte) : State := { State.reset with rxq := bytes }.startOp 0x00000007

/-- RX_FRAME inside a frame. -/
def inFrame (stored bytes : List Byte) : State :=
  { receiving bytes with rxInf := true, rxBuf := Memory.ofBytes stored, rxLen := BitVec.ofNat 16 stored.length }

/-- A state at a place in an operation's pseudocode. -/
def atPlace (s : State) (phase : Phase) (idx : Half) : State := { s with phase := phase, idx := idx }

/-! ## What WellFormed refuses -/

theorem test_wf_l_no_separator : (Instr.wireL [0x6E] none).wellFormed = false := by decide
theorem test_wf_l_separator_in_name : (Instr.wireL [0x6E, 0x1C] (some [])).wellFormed = false := by decide
theorem test_wf_o_kind :
    (Instr.wireO 0x45 (List.replicate 8 0) (List.replicate 14 0x30) (List.replicate 8 0) []).wellFormed = false := by
  decide
theorem test_wf_o_unknown1 :
    (Instr.wireO 0x43 (List.replicate 7 0) (List.replicate 14 0x30) (List.replicate 8 0) []).wellFormed = false := by
  decide
theorem test_wf_o_timestamp_length :
    (Instr.wireO 0x43 (List.replicate 8 0) (List.replicate 13 0x30) (List.replicate 8 0) []).wellFormed = false := by
  decide
theorem test_wf_o_timestamp_digits :
    (Instr.wireO 0x43 (List.replicate 8 0) (List.replicate 14 0x3A) (List.replicate 8 0) []).wellFormed = false := by
  decide
theorem test_wf_o_unknown2 :
    (Instr.wireO 0x43 (List.replicate 8 0) (List.replicate 14 0x30) (List.replicate 9 0) []).wellFormed = false := by
  decide
theorem test_wf_w_empty : (Instr.wireW 0 []).wellFormed = false := by decide
theorem test_wf_w_long : (Instr.wireW 0 (List.replicate 1001 0)).wellFormed = false := by
  have h : ∀ d : List Byte,
      (Instr.wireW 0 d).wellFormed = decide (1 ≤ d.length ∧ d.length ≤ Config.chunkMax) := fun _ => rfl
  rw [h, List.length_replicate]
  decide

/-! ## Decodings, from the encodings of 30_encoding.md R73 to R85 -/

theorem test_decode_cksCmd : decodeWord 0b00000000000000000000000000000001 = .ok .cksCmd := by decide
theorem test_decode_cksCrc : decodeWord 0b00000000000000000000000000000010 = .ok .cksCrc := by decide
theorem test_decode_encCmd : decodeWord 0b00000000000000000000000000000011 = .ok .encCmd := by decide
theorem test_decode_encRaw : decodeWord 0b00000000000000000000000000000100 = .ok .encRaw := by decide
theorem test_decode_encChunk : decodeWord 0b00000000000000000000000000000101 = .ok .encChunk := by decide
theorem test_decode_sigTx : decodeWord 0b00000000000000000001010100000110 = .ok (.sigTx 0x15) := by decide
theorem test_decode_rxFrame : decodeWord 0b00000000000000000000000000000111 = .ok .rxFrame := by decide
theorem test_decode_verCmd : decodeWord 0b00000000000000000000000000001000 = .ok .verCmd := by decide
theorem test_decode_verCrc : decodeWord 0b00000000000000000000000000001001 = .ok .verCrc := by decide

/-- V-A2 to V-A6: illegal words. -/
theorem test_decode_illegal :
    decodeWord 0x00000000 = .error (.illegalWord 0x00000000) ∧
    decodeWord 0x0000000A = .error (.illegalWord 0x0000000A) ∧
    decodeWord 0x0000000F = .error (.illegalWord 0x0000000F) ∧
    decodeWord 0x00000013 = .error (.illegalWord 0x00000013) ∧
    decodeWord 0x00000103 = .error (.illegalWord 0x00000103) ∧
    decodeWord 0x00010003 = .error (.illegalWord 0x00010003) := by decide

theorem test_decode_wireM : decodeWire [0x4D, 0x2D, 0x48, 0x69] = .ok (.wireM [0x2D, 0x48, 0x69]) := by decide

/-- V-E5's payload: the variable "name" with value "val". -/
theorem test_decode_wireL :
    decodeWire [0x4C, 0x6E, 0x61, 0x6D, 0x65, 0x1C, 0x76, 0x61, 0x6C] =
      .ok (.wireL [0x6E, 0x61, 0x6D, 0x65] (some [0x76, 0x61, 0x6C])) := by decide

/-- R77's layout: type at 1, unknown field 1 at 2, timestamp at 10, unknown field 2 at 24, name at 32. -/
theorem test_decode_wireO :
    decodeWire ([0x4F, 0x43] ++ List.replicate 8 0xA1 ++ List.replicate 14 0x31 ++ List.replicate 8 0xB2 ++ [0x66]) =
      .ok (.wireO 0x43 (List.replicate 8 0xA1) (List.replicate 14 0x31) (List.replicate 8 0xB2) [0x66]) := by decide

/-- V-E17's chunk payload: "AB" at offset 0x01020304. -/
theorem test_decode_wireW :
    decodeWire [0x57, 0x00, 0x02, 0x01, 0x02, 0x03, 0x04, 0x41, 0x42] = .ok (.wireW 0x01020304 [0x41, 0x42]) := by
  decide

theorem test_decode_wire_bare :
    decodeWire [0x43] = .ok .wireC ∧ decodeWire [0x53] = .ok .wireS ∧ decodeWire [0x05] = .ok .wireSigNak ∧
    decodeWire [0x06] = .ok .wireSigAck := by decide

theorem test_decode_wire_refused :
    decodeWire [] = .error .emptyUnit ∧ decodeWire [0x15] = .error (.unknownOpcode 0x15) ∧
    decodeWire [0x4F, 0x43] = .error (.truncated 0x4F) ∧ decodeWire [0x57, 0x00] = .error (.truncated 0x57) ∧
    decodeWire [0x57, 0x00, 0x03, 0, 0, 0, 0, 0x41, 0x42] = .error (.badLength 3 2) ∧
    decodeWire [0x43, 0x00] = .error (.unexpectedArguments 0x43) := by decide

/-! ## Checksums: V-F, V-C and V-L -/

theorem test_fold : fold 0x53 = 0x62 ∧ fold 0x80 = 0xFF ∧ fold 0xAA = 0xCC := by decide
theorem test_cmdStep : cmdStep 0x1234 0x56 = 0x3598 ∧ cmdStep 0x8005 0xFF = 0x8401 := by decide
theorem test_crcStep : crcStep 0x01EA 0x03 = 0x6A0F ∧ crcEntry 0x53 = 0x01EA := by decide
theorem test_checksums :
    cmdChecksum [0x68, 0x65, 0x6C, 0x6C, 0x6F] = 0x38C5 ∧ crc16 [0x53, 0x03, 0x6A, 0x0F] = 0x0000 := by decide

/-! ## Single steps, from V-C, V-E, V-V, V-R and V-A -/

/-- V-C10's first byte. -/
theorem test_cksCmd_byte :
    (nextOf (exec .cksCmd (atPlace (flying 0x00000001 [0x53, 0x03]) .body 0))).map (fun t => (t.accCmd, t.idx)) =
      some (0x01EA, 1) := by decide

/-- V-C, the note on IN_LEN = 2049. -/
theorem test_cksCmd_too_long : statusOf (exec .cksCmd (tooLong 0x00000001)) = some 0x202 := by decide

/-- V-C10's last byte through the table. -/
theorem test_cksCrc_byte :
    (nextOf (exec .cksCrc { atPlace (flying 0x00000002 [0x53, 0x03]) .body 1 with accCrc := 0x01EA })).map
      (fun t => (t.accCrc, t.idx)) = some (0x6A0F, 2) := by decide

/-- V-C10's last step. -/
theorem test_cksCrc_end :
    (nextOf (exec .cksCrc { atPlace (flying 0x00000002 [0x53, 0x03]) .body 2 with accCrc := 0x6A0F })).map
      (fun t => (t.result, t.status.word)) = some (0x6A0F, 0x002) := by decide

/-- V-E2's end marker. -/
theorem test_encCmd_marker :
    (nextOf (exec .encCmd { atPlace (flying 0x00000003 [0x53]) .body 1 with accCmd := 0x01EA })).map
      (fun t => (t.txs, t.accCmd)) = some ([0x03], 0x6A0F) := by decide

/-- V-E2's last byte. -/
theorem test_encCmd_end :
    (nextOf (exec .encCmd { atPlace (flying 0x00000003 [0x53]) .sealLo 1 with accCmd := 0x6A0F })).map
      (fun t => (t.txs, t.result, t.status.word)) = some ([0x0F], 0x6A0F, 0x002) := by decide

/-- V-E12: 0x02 alone. -/
theorem test_encRaw_empty :
    (nextOf (exec .encRaw { flying 0x00000004 [] with result := 0xBEEF })).map
      (fun t => (t.txs, t.result, t.status.word)) = some ([0x02], 0xBEEF, 0x002) := by decide

/-- V-E13's last byte. -/
theorem test_encRaw_end :
    (nextOf (exec .encRaw (atPlace (flying 0x00000004 [0x53]) .body 0))).map (fun t => (t.txs, t.status.word)) =
      some ([0x53], 0x002) := by decide

/-- V-E17's fourth header byte: the most significant byte of OFFSET. -/
theorem test_encChunk_header :
    (nextOf (exec .encChunk { atPlace (flying 0x00000005 [0x41, 0x42]) (.header 3) 0 with offset := 0x01020304 })).map
      (fun t => (t.txs, t.phase)) = some ([0x01], .header 4) := by decide

/-- V-E22: no data. -/
theorem test_encChunk_empty :
    (nextOf (exec .encChunk (flying 0x00000005 []))).map (fun t => (t.txs, t.status.word)) = some ([], 0x202) := by
  decide

/-- V-E25. -/
theorem test_sigTx_ack :
    (nextOf (exec (.sigTx 0x06) (flying 0x00000606 []))).map (fun t => (t.txs, t.status.word)) =
      some ([0x06], 0x002) := by decide

/-- V-E28. -/
theorem test_sigTx_refused :
    (nextOf (exec (.sigTx 0x15) (flying 0x00001506 []))).map (fun t => (t.txs, t.status.word)) =
      some ([], 0x302) := by decide

/-- The last byte of V-R7: an early completion with a mismatch. -/
theorem test_rxFrame_complete :
    (nextOf (exec .rxFrame (inFrame [0x02, 0x41, 0x03, 0x42] [0x03, 0x18, 0x2D]))).map
      (fun t => (t.status.word, t.result, t.recv, t.plen, t.rxq)) =
      some (0x71A, 0x060F, 0x4203, 1, [0x18, 0x2D]) := by decide

/-- V-R2. -/
theorem test_rxFrame_signal :
    (nextOf (exec .rxFrame (receiving [0x05]))).map (fun t => (t.status.word, t.signal, t.rxq)) =
      some (0x006, 0x05, []) := by decide

/-- V-V4; and R35, R36: the Command Checksum's accumulator is set anew, the other one stays. -/
theorem test_verCmd_mismatch :
    (nextOf (exec .verCmd { flying 0x00000008 [0x02, 0x53, 0x03, 0x6A, 0x0E] with accCmd := 1, accCrc := 2 })).map
      (fun t => (t.status.word, t.result, t.recv, t.plen, t.accCmd, t.accCrc)) =
      some (0x712, 0x6A0F, 0x6A0E, 1, 0x6A0F, 2) := by decide

/-- V-V7; and R213: a failed test of byte 0 makes the unwritten byte n-3 needless (log 12). -/
theorem test_verCmd_bad_frame :
    statusOf (exec .verCmd (flying 0x00000008 [0x02, 0x53, 0x04, 0x6A, 0x0F])) = some 0x602 ∧
    statusOf (exec .verCmd { flying 0x00000008 [0x03] with inLen := 4 }) = some 0x602 := by decide

/-- V-V16; and R35, R36, as above. -/
theorem test_verCrc_match :
    (nextOf (exec .verCrc { flying 0x00000009 [0x02, 0x53, 0x03, 0x6A, 0x0F] with accCmd := 1, accCrc := 2 })).map
      (fun t => (t.status.word, t.result, t.recv, t.plen, t.accCmd, t.accCrc)) =
      some (0x032, 0x6A0F, 0x6A0F, 2, 1, 0x6A0F) := by decide

/-- V-V13. -/
theorem test_verCrc_bad_frame : statusOf (exec .verCrc (flying 0x00000009 [0x02, 0x00])) = some 0x602 := by decide

/-- R87: `msg "-"`, the lines of `send.cmd`. -/
theorem test_wireM :
    (nextOf (exec (.wireM [0x2D]) State.reset)).map (fun t => t.hostProg) =
      some [.wrb 0 0x4D, .wrb 1 0x2D, .wr 5 2, .wr 0 0x00000003, .poll] := by decide

/-- R87: `setvar`. -/
theorem test_wireL :
    (nextOf (exec (.wireL [0x6E] (some [0x76])) State.reset)).map (fun t => t.hostProg) =
      some [.wrb 0 0x4C, .wrb 1 0x6E, .wrb 2 0x1C, .wrb 3 0x76, .wr 5 4, .wr 0 0x00000003, .poll] := by decide

/-- R77, R87: `announce` loads 32 bytes and the name. -/
theorem test_wireO :
    (nextOf (exec (.wireO 0x44 (List.replicate 8 0) (List.replicate 14 0x30) (List.replicate 8 0) [0x66])
      State.reset)).map (fun t => (t.hostProg.length, t.hostProg[33]?, t.hostProg[32]?)) =
      some (36, some (.wr 5 33), some (.wrb 32 0x66)) := by decide

/-- R87: `chunk 0, [48]` (P3). -/
theorem test_wireW :
    (nextOf (exec (.wireW 5 [0x48]) State.reset)).map (fun t => t.hostProg) =
      some [.wr 4 5, .wrb 0 0x48, .wr 5 1, .wr 0 0x00000005, .poll] := by decide

/-- R87: `close` (P3). -/
theorem test_wireC :
    (nextOf (exec .wireC State.reset)).map (fun t => t.hostProg) =
      some [.wrb 0 0x43, .wr 5 1, .wr 0 0x00000003, .poll] := by decide

/-- R87: `stop` (P1). -/
theorem test_wireS :
    (nextOf (exec .wireS State.reset)).map (fun t => t.hostProg) =
      some [.wrb 0 0x53, .wr 5 1, .wr 0 0x00000003, .poll] := by decide

/-- R87: `probe` and `ack` (P2). -/
theorem test_wireSig :
    (nextOf (exec .wireSigNak State.reset)).map (fun t => t.hostProg) = some [.wr 0 0x00000506, .poll] ∧
    (nextOf (exec .wireSigAck State.reset)).map (fun t => t.hostProg) = some [.wr 0 0x00000606, .poll] := by decide

/-- V-A1. -/
theorem test_reset_status : State.reset.regValue 1 = 0x000 ∧ State.reset.regValue 0 = 0x00000000 := by decide

/-- V-A8 to V-A12 and the timeout of P5. -/
theorem test_busy_write_and_herr :
    ((receiving []).writeReg 0 0x00000003).status.word = 0x041 ∧
    ((receiving []).writeReg 0 0x00000003).opword = 0x00000007 ∧
    ((receiving []).dropWrite.timeout).status.word = 0x542 ∧
    ((receiving []).dropWrite.timeout.writeReg 1 0x00000040).status.word = 0x502 ∧
    ((receiving []).dropWrite.timeout.writeReg 1 0x00000002).status.word = 0x542 := by decide

/-- V-A14: reset while RX_FRAME is in flight with two bytes stored. -/
theorem test_reset_input :
    ((inFrame [0x02, 0x41] [0x42]).assertReset.status.word, (inFrame [0x02, 0x41] [0x42]).assertReset.rxLen,
      (inFrame [0x02, 0x41] [0x42]).assertReset.rxq) = (0x000, 0, [0x42]) := by decide

/-! ## Witnesses: states and operands that meet the hypotheses of the statements -/

/-- A state whose next turn is the HOST's, on one line. -/
def hosting (line : HostLine) : State := { State.reset with hostProg := [line], agenda := [.host] }

/-- A state whose next turn is given. -/
def turning (t : Turn) (s : State) : State := { s with agenda := [t] }

/-- A reset state has FlightOk, and any state with BUSY = 0 from it. -/
theorem reset_flight : FlightOk State.reset := by decide

theorem witness_IllegalWordEndsAtOnce :
    State.reset.status.busy = false ∧ FlightOk State.reset ∧
      decodeWord 0x00000013 = .error (.illegalWord 0x00000013) := by decide

theorem witness_DecodeOfEncodeIsIdentity :
    (Instr.wireO 0x43 (List.replicate 8 0) (List.replicate 14 0x39) (List.replicate 8 0) [0x66]).wellFormed = true ∧
    (Instr.wireL [] (some [])).wellFormed = true ∧ (Instr.wireW 0xFFFFFFFF [0x00]).wellFormed = true ∧
    (Instr.sigTx 0xFF).wellFormed = true := by decide

theorem witness_EncodeOfDecodeIsIdentity :
    decode (.word 0x0000FF06) = .ok (.sigTx 0xFF) ∧ decode (.wire [0x4C, 0x6E]) = .ok (.wireL [0x6E] none) := by decide

theorem witness_PayloadFieldsLieAtTheirOffsets :
    (Instr.wireO 0x44 (List.replicate 8 0) (List.replicate 14 0x30) (List.replicate 8 0) []).wellFormed = true ∧
    (Instr.wireW 0 [0x01]).wellFormed = true := by decide

theorem witness_EngineTurn_agenda :
    (turning .engine (flying 0x00000003 [0x53])).status.busy = true ∧
    (turning .engine (flying 0x00000003 [0x53])).opcur = some (opField 0x00000003) ∧
    decodeWord (turning .engine (flying 0x00000003 [0x53])).opword = .ok .encCmd ∧
    (turning .engine (flying 0x00000003 [0x53])).agenda = [.engine] := by decide

theorem witness_EngineTurn_default :
    (receiving [0x06]).status.busy = true ∧ (receiving [0x06]).opcur = some (opField (receiving [0x06]).opword) ∧
    decodeWord (receiving [0x06]).opword = .ok .rxFrame ∧ (receiving [0x06]).agenda = [] ∧
    (receiving [0x06]).rxq ≠ [] := by decide

theorem witness_HostTurn :
    (hosting (.wire [0x53])).hostProg = [.wire [0x53]] ∧ (hosting (.wire [0x53])).agenda = [.host] ∧
    decodeWire [0x53] = .ok .wireS ∧
    (hosting (.wire [0x15])).hostProg = [.wire [0x15]] ∧ decodeWire [0x15] = .error (.unknownOpcode 0x15) := by decide

theorem witness_HostTurn_lines :
    (hosting (.load [0x53])).agenda = [.host] ∧ (hosting (.load [0x53])).hostProg = [.load [0x53]] ∧
    ([0x53] : List Byte).zipIdx.map (fun c => HostLine.wrb c.2 c.1) ++ [.wr 5 1] = [.wrb 0 0x53, .wr 5 1] ∧
    (hosting (.sendCmd [0x53])).hostProg = [.sendCmd [0x53]] ∧ (hosting (.sendRaw [])).hostProg = [.sendRaw []] ∧
    (hosting .recvf).hostProg = [.recvf] ∧ (hosting .poll).hostProg = [.poll] ∧
    (hosting .poll).status.done = false ∧ (hosting (.wrb 0 0x53)).hostProg = [.wrb 0 0x53] := by decide

/-- R86: `poll` stays on the program until DONE reads 1. -/
theorem test_poll_waits :
    (nextOf (step (hosting .poll))).map (fun t => (t.hostProg, t.readData)) = some ([.poll], 0) ∧
    (nextOf (step { hosting .poll with status := Status.zero.finish })).map (fun t => (t.hostProg, t.readData)) =
      some ([], 2) := by decide

theorem witness_PlacedWordRunsNext :
    decodeTableWord 32 0x00000606 = some (.sigTx 0x06) ∧ decodeTableWord 8 0x57 = some (.wireW 0 []) ∧
    decodeTableWord 8 0x4F = some (.wireO 0 (List.replicate 8 0) (List.replicate 14 0) (List.replicate 8 0) []) := by
  decide

theorem witness_ChannelAppendsAtAnyStep : (turning (.channel 0x06) State.reset).agenda = [.channel 0x06] := by decide

theorem witness_TimeoutEndsTheReaderOnly :
    (turning .timer (receiving [])).agenda = [.timer] ∧
    (turning .timer (receiving [])).inFlight = some .rxFrame ∧
    (turning .timer (flying 0x00000001 [])).inFlight ≠ some .rxFrame := by decide

theorem witness_ResetInputClearsTheBlock : (turning .reset (receiving [0x02])).agenda = [.reset] := by decide

theorem witness_IdleBlockKeepsItsState : State.reset.status.busy = false := by decide

theorem witness_ReaderWithoutBytesStaysBusy :
    (receiving []).inFlight = some .rxFrame ∧ (receiving []).rxq = [] ∧
    ∀ t ∈ ({ receiving [] with agenda := [Turn.host, .engine] } : State).agenda, t = .engine ∨ t = .host := by decide

theorem witness_ByteAndTimeoutInEitherOrder :
    (receiving [0x06]).inFlight = some .rxFrame ∧ (receiving [0x06]).rxq = [0x06] ∧
    (receiving [0x06]).rxInf = false ∧
    ({ receiving [0x06] with agenda := [Turn.timer, .engine] } : State).agenda = [.timer, .engine] ∧
    ({ receiving [0x06] with agenda := [Turn.engine, .timer] } : State).agenda = [.engine, .timer] := by decide

/-- A byte that completes the frame, one that fills RX_BUF, and one that does neither. -/
theorem witness_ByteAndTimeout_in_a_frame :
    (inFrame [0x02, 0x03, 0x00] [0x0A]).inFlight = some .rxFrame ∧ (inFrame [0x02, 0x03, 0x00] [0x0A]).cfg.wf ∧
    (inFrame [0x02, 0x03, 0x00] [0x0A]).rxInf = true ∧ 3 ≤ (inFrame [0x02, 0x03, 0x00] [0x0A]).rxLen.toNat ∧
    (inFrame [0x02, 0x03, 0x00] [0x0A]).rxByte 1 = 0x03 ∧
    ¬((inFrame (List.replicate 63 0x41) [0x41]).rxByte 61 = 0x03) ∧
    (inFrame (List.replicate 63 0x41) [0x41]).rxLen.toNat + 1 = (inFrame (List.replicate 63 0x41) [0x41]).cfg.rxMax ∧
    ¬(3 ≤ (inFrame [0x02] [0x03]).rxLen.toNat) ∧
    (inFrame [0x02] [0x03]).rxLen.toNat + 1 < (inFrame [0x02] [0x03]).cfg.rxMax := by decide

theorem witness_AcceptanceOfAnOperationWord :
    (receiving []).status.busy = true ∧ State.reset.status.busy = false ∧ FlightOk State.reset ∧
    decodeWord 0x00000000 = .error (.illegalWord 0x00000000) ∧ decodeWord 0x00000009 = .ok .verCrc ∧
    decodeWord 0x00000007 = .ok .rxFrame := by decide

theorem witness_BusyWritesAreDropped :
    (receiving []).status.busy = true ∧ 2047 < (receiving []).cfg.inMax ∧ (0x00000040 : Word).getLsbD 6 = true ∧
    (6 = 2 ∨ 6 = 3 ∨ 6 ≤ 6) ∧
    (nextOf (step { hosting (.wr 1 0x00000040) with status := Status.zero.dropped })).map (fun t => t.status.herr) =
      some false := by decide

theorem witness_ReaderStartsFresh : State.reset.status.busy = false := by decide

theorem witness_RegisterMap : State.reset.status.busy = false ∧ 9 ≤ 9 ∧ (2 = 2 ∨ 2 = 3 ∨ 6 ≤ 2) := by decide

theorem witness_HostReadsHaveNoSideEffects :
    (hosting (.rdbRx 3)).hostProg = [.rdbRx 3] ∧ (hosting (.rd 1)).agenda = [.host] ∧
    (hosting (.rdbIn 2047)).hostProg = [.rdbIn 2047] ∧ (hosting (.rd 1)).regValue 1 = 0 := by decide

theorem witness_BusyResultReadsAreFree :
    (receiving []).status.busy = true ∧
    ({ receiving [] with result := 0x1234, signal := 0x05 } : State).status = (receiving []).status ∧
    ({ receiving [] with result := 0x1234 } : State).cfg = (receiving []).cfg ∧
    ({ receiving [] with result := 0x1234 } : State).draws = (receiving []).draws ∧
    Memory.read (flying 0x00000001 [0x53]).inBuf 0 = some 0x53 ∧ 0 < (flying 0x00000001 [0x53]).cfg.inMax ∧
    63 < (receiving []).cfg.rxMax ∧ (receiving []).rxLen.toNat ≤ 0 ∧
    Memory.read (flying 0x00000001 [0x53]).inBuf 1 = none := by decide

theorem witness_OutOfRangeBufferIndices : State.reset.cfg.inMax ≤ 2048 ∧ State.reset.cfg.rxMax ≤ 64 := by decide

theorem witness_WrittenInByteReadsBack :
    State.reset.status.busy = false ∧ 2047 < State.reset.cfg.inMax ∧ Memory.wf State.reset.inBuf := by decide

theorem witness_OperationInFlightIsUndisturbed :
    ({ flying 0x00000003 [0x53] with agenda := [Turn.host], hostProg := [.wr 5 9] } : State).inFlight =
      some .encCmd ∧
    (nextOf (step { flying 0x00000003 [0x53] with agenda := [Turn.host], hostProg := [.wr 5 9] })).map
      (fun t => t.status.herr) = some true := by decide

theorem witness_FoldBitIsXorOfHigherBits : 7 < 8 ∧ (0xFF : Word) = (fold 0x80).setWidth 32 := by decide

theorem witness_ChecksumLaws : ([0x12, 0x34] : List Byte).length = ([0xAB, 0xCD] : List Byte).length := by decide

/-- For CksCmdComputesCommandChecksum, CksCrcComputesCrc, EncCmdEmitsTheCommandFrame, EncRawEmitsThePresealedBytes. -/
theorem witness_fresh_operations :
    (tooLong 0x00000001).fresh ∧ (tooLong 0x00000001).cfg.inMax < (tooLong 0x00000001).len ∧
    (flying 0x00000003 [0x53]).fresh ∧ (flying 0x00000003 [0x53]).len ≤ (flying 0x00000003 [0x53]).cfg.inMax ∧
    (flying 0x00000003 [0x53]).spanIn 0 (flying 0x00000003 [0x53]).len = .ok [0x53] := by decide

theorem witness_ChecksumOperationsStepByStep :
    ((flying 0x00000001 [0x53]).phase = .start ∧
      (flying 0x00000001 [0x53]).len ≤ (flying 0x00000001 [0x53]).cfg.inMax) ∧
    ((atPlace (flying 0x00000001 [0x53]) .body 0).phase = .body ∧
      (atPlace (flying 0x00000001 [0x53]) .body 0).idx.toNat < (flying 0x00000001 [0x53]).len ∧
      (atPlace (flying 0x00000001 [0x53]) .body 0).readIn 0 = some 0x53) ∧
    (flying 0x00000001 [0x53]).len ≤ (atPlace (flying 0x00000001 [0x53]) .body 1).idx.toNat := by decide

/-- IN_LEN 2 over one written byte. -/
theorem witness_UnwrittenInputFaults :
    ({ flying 0x00000001 [0x53] with inLen := 2 } : State).fresh ∧
    ({ flying 0x00000001 [0x53] with inLen := 2 } : State).len ≤ 2048 ∧
    ({ flying 0x00000001 [0x53] with inLen := 2 } : State).spanIn 0 2 = .error 1 ∧ 2 ≤ Config.chunkMax := by decide

/-- IN_LEN 4 over no byte, over 02, over 02 03, over 03 and over 02 41. -/
theorem witness_UnwrittenInputFaults_verifications :
    (flying 0x00000008 []).readIn 0 = none ∧
    ({ flying 0x00000008 [] with inLen := 4 } : State).spanIn 0 4 = .error 0 ∧
    ({ flying 0x00000008 [0x02] with inLen := 4 } : State).spanIn 0 4 = .error 1 ∧
    (flying 0x00000008 [0x02]).readIn 0 = some 0x02 ∧ (flying 0x00000008 [0x02]).readIn 1 = none ∧
    ({ flying 0x00000008 [0x02, 0x03] with inLen := 4 } : State).spanIn 0 4 = .error 2 ∧
    (flying 0x00000008 [0x02, 0x03]).readIn 1 = some 0x03 ∧
    ({ flying 0x00000008 [0x03] with inLen := 4 } : State).spanIn 0 4 = .error 1 ∧
    ({ flying 0x00000008 [0x02, 0x41] with inLen := 4 } : State).spanIn 0 4 = .error 2 ∧
    (flying 0x00000008 [0x02, 0x41]).readIn 1 = some 0x41 := by decide

theorem witness_EncChunkEmitsTheChunkFrame :
    (flying 0x00000005 []).fresh ∧ (flying 0x00000005 []).len = 0 ∧
    ({ State.reset with inLen := 1001 }.startOp 0x00000005).len = 1001 ∧
    (flying 0x00000005 [0x03]).fresh ∧ 1 ≤ (flying 0x00000005 [0x03]).len ∧ (flying 0x00000005 [0x03]).len ≤ 1000 ∧
    (flying 0x00000005 [0x03]).spanIn 0 1 = .ok [0x03] := by decide

theorem witness_SigTxEmitsOneSignalByte : (0x15 : Byte) ≠ 0x05 ∧ (0x15 : Byte) ≠ 0x06 := by decide

theorem witness_EncodersEmitOneBytePerStep :
    phaseFits .encChunk (.header 6) = true ∧
    (nextOf (exec .encChunk (atPlace (flying 0x00000005 [0x41]) (.header 6) 0))).isSome = true ∧
    phaseFits (.sigTx 0x15) .start = true ∧ (nextOf (exec (.sigTx 0x15) (flying 0x00001506 []))).isSome = true := by
  decide

theorem witness_EncodersStepByStep :
    (atPlace (flying 0x00000003 [0x53]) .body 0).readIn 0 = some 0x53 ∧
    (atPlace (flying 0x00000003 [0x53]) .body 0).idx.toNat < (flying 0x00000003 [0x53]).len ∧
    (atPlace (flying 0x00000005 [0x53]) (.header 6) 0).phase = .header 6 ∧
    ([0x57] ++ be16 (flying 0x00000005 [0x53]).inLen ++ be32 (flying 0x00000005 [0x53]).offset)[6]? = some 0x00 ∧
    (atPlace (flying 0x00000003 [0x53]) .sealHi 1).phase = .sealHi ∧
    (flying 0x00000003 [0x53]).len ≤ (atPlace (flying 0x00000003 [0x53]) .body 1).idx.toNat := by decide

/-- V-E14 and V-E16. -/
theorem witness_EncRawOfSealedChunkEqualsEncChunk :
    ({ flying 0x00000005 [0x03] with offset := 0x000003E8 } : State).fresh ∧
    ({ flying 0x00000005 [0x03] with offset := 0x000003E8 } : State).spanIn 0 1 = .ok [0x03] ∧
    (flying 0x00000004 [0x57, 0, 1, 0, 0, 3, 0xE8, 3, 0x79, 0xD6]).fresh ∧
    (flying 0x00000004 [0x57, 0, 1, 0, 0, 3, 0xE8, 3, 0x79, 0xD6]).spanIn 0 10 =
      .ok (chunkPayload 0x000003E8 [0x03] ++ be16 (crc16 (chunkPayload 0x000003E8 [0x03]))) := by decide

/-- Both a payload that comes back and one that does not (V-R5, V-R7). -/
theorem witness_RoundTripOfCommandFrames :
    (flying 0x00000003 [0x53]).fresh ∧ (flying 0x00000003 [0x53]).spanIn 0 1 = .ok [0x53] ∧
    (flying 0x00000008 (cmdFrame [0x53])).cfg.wf ∧
    (flying 0x00000008 (cmdFrame [0x53])).spanIn 0 5 = .ok (cmdFrame [0x53]) ∧
    (flying 0x00000008 (cmdFrame [0x53])).status.err = 0 ∧
    (receiving (cmdFrame [0x41, 0x03, 0x42])).inFlight = some .rxFrame ∧
    (receiving (cmdFrame [0x41, 0x03, 0x42])).rxFresh ∧
    (receiving (cmdFrame [0x41, 0x03, 0x42])).rxq = cmdFrame [0x41, 0x03, 0x42] ∧
    (receiving (cmdFrame [0x41, 0x03, 0x42])).status.kind = 0 := by decide

/-- V-V5 (too short) and V-V3 (the shortest frame). -/
theorem witness_VerCmdChecksACommandFrame :
    (tooLong 0x00000008).cfg.inMax < (tooLong 0x00000008).len ∧
    (flying 0x00000008 [0x02, 0x03, 0x0A]).spanIn 0 3 = .ok [0x02, 0x03, 0x0A] ∧
    (flying 0x00000008 [0x02, 0x03, 0x00, 0x0A]).spanIn 0 4 = .ok [0x02, 0x03, 0x00, 0x0A] ∧
    ([0x02, 0x03, 0x00, 0x0A] : List Byte)[4 - 3]? = some 0x03 := by decide

/-- V-V14 and V-V11. -/
theorem witness_VerCrcChecksAChunkFrame :
    (tooLong 0x00000009).cfg.inMax < (tooLong 0x00000009).len ∧
    (flying 0x00000009 [0x03, 0x00, 0x00]).spanIn 0 3 = .ok [0x03, 0x00, 0x00] ∧
    (flying 0x00000009 [0x02, 0x00, 0x00]).spanIn 0 3 = .ok [0x02, 0x00, 0x00] := by decide

theorem witness_ReaderOutsideAFrame :
    (receiving [0x05]).rxq = [0x05] ∧ (receiving [0x05]).rxInf = false ∧ (receiving [0x02]).rxq = [0x02] ∧
    (receiving [0x15]).rxq = [0x15] := by decide

/-- The byte before the last that fits. -/
theorem witness_ReaderInsideAFrame :
    (inFrame (List.replicate 63 0x41) [0x41]).cfg.wf ∧ (inFrame (List.replicate 63 0x41) [0x41]).rxq = [0x41] ∧
    (inFrame (List.replicate 63 0x41) [0x41]).rxInf = true ∧
    (inFrame (List.replicate 63 0x41) [0x41]).rxLen.toNat < (inFrame (List.replicate 63 0x41) [0x41]).cfg.rxMax ∧
    (inFrame (List.replicate 63 0x41) [0x41]).status.kind = 0 := by decide

/-- A byte that leaves the frame open: the second of a frame, and one with room for one more after it. -/
theorem witness_ReaderInsideAFrame_open :
    ¬(3 ≤ (inFrame [0x02] [0x41]).rxLen.toNat) ∧
    (inFrame (List.replicate 62 0x41) [0x41]).rxLen.toNat + 1 < (inFrame (List.replicate 62 0x41) [0x41]).cfg.rxMax ∧
    (inFrame (List.replicate 62 0x41) [0x41]).rxByte 60 ≠ 0x03 := by decide

/-- V-R17: noise, a signal byte inside the frame. -/
theorem witness_ReaderCompletionLaw :
    (receiving [0x03, 0x15, 0x02, 0x05, 0x53, 0x03, 0x00, 0x00]).cfg.wf ∧
    (receiving [0x03, 0x15, 0x02, 0x05, 0x53, 0x03, 0x00, 0x00]).inFlight = some .rxFrame ∧
    (receiving [0x03, 0x15, 0x02, 0x05, 0x53, 0x03, 0x00, 0x00]).rxFresh ∧
    (∀ x ∈ ([0x03, 0x15] : List Byte), x ≠ 0x02 ∧ x ≠ 0x05 ∧ x ≠ 0x06) ∧ ¬ (0x03 : Byte) ∈ [0x05, 0x53] ∧
    (receiving [0x03, 0x15, 0x02, 0x05, 0x53, 0x03, 0x00, 0x00]).rxq =
      [0x03, 0x15] ++ [0x02] ++ [0x05, 0x53] ++ [0x03, 0x00, 0x00] ++ [] := by decide

/-- V-R15 and V-R16. -/
theorem witness_ReaderOverflow :
    (receiving ([0x02] ++ List.replicate 63 0x41)).rxFresh ∧
    (List.replicate 63 (0x41 : Byte)).length + 1 = (receiving ([0x02] ++ List.replicate 63 0x41)).cfg.rxMax ∧
    ¬ (0x03 : Byte) ∈ (List.replicate 63 (0x41 : Byte)).take 61 ∧
    (List.replicate 60 (0x41 : Byte)).length + 4 = (receiving []).cfg.rxMax ∧
    ¬ (0x03 : Byte) ∈ List.replicate 60 (0x41 : Byte) ∧ (receiving []).status.err = 0 := by decide

/-- A signal that arrives before the ENGINE's two turns, and between them. -/
theorem witness_ReaderIsArrivalIndependent :
    (receiving [0x15]).inFlight = some .rxFrame ∧
    ([.channel 0x06, .engine, .engine] : List Turn).filter (· ≠ .engine) =
      ([.engine, .channel 0x06, .engine] : List Turn).filter (· ≠ .engine) ∧
    (nextOf (Host.Core.run Sys2Proof.core 3
      { receiving [0x15] with agenda := [.channel 0x06, .engine, .engine] })).map (fun t => t.status.busy) =
      some false ∧
    (nextOf (Host.Core.run Sys2Proof.core 3
      { receiving [0x15] with agenda := [.engine, .channel 0x06, .engine] })).map (fun t => t.status.busy) =
      some false := by decide

theorem witness_PayloadLocation :
    ((inFrame [0x02, 0x53] []).rxLen.toNat = 2 ∧ 1 < (inFrame [0x02, 0x53] []).cfg.rxMax ∧
      Memory.read (inFrame [0x02, 0x53] []).rxBuf 1 = some 0x53 ∧
      ((inFrame [0x02, 0x53] []).raise .rxTimeout).status.busy = false) ∧
    Memory.read (flying 0x00000008 [0x02]).inBuf 0 = some 0x02 ∧
    (flying 0x00000008 [0x02, 0x53, 0x03, 0x6A, 0x0F]).spanIn 0 5 = .ok ([0x02] ++ [0x53] ++ [0x03, 0x6A, 0x0F]) ∧
    (flying 0x00000009 [0x02, 0x53, 0x01, 0xEA]).spanIn 0 4 = .ok ([0x02] ++ [0x53] ++ [0x01, 0xEA]) ∧
    (receiving [0x02, 0x53, 0x03, 0x6A, 0x0F]).rxq = [0x02] ++ [0x53] ++ [0x03, 0x6A, 0x0F] ∧
    (receiving [0x02, 0x53, 0x03, 0x6A, 0x0F]).rxFresh := by decide

/-- For WireCommandSendsItsCommandFrame, WireChunkSendsItsChunkFrame and WireSignalSendsItsByte. -/
theorem witness_wire_rows :
    encode (.wireM [0x2D]) = .wire [0x4D, 0x2D] ∧ encode .wireS = .wire [0x53] ∧ State.reset.cfg.wf ∧
    State.reset.idle ∧ ([0x4D, 0x2D] : List Byte).length ≤ State.reset.cfg.inMax ∧
    1 ≤ ([0x00] : List Byte).length ∧ ([0x00] : List Byte).length ≤ 1000 := by decide

/-- A payload longer than IN_MAX, and data of 0 bytes. -/
theorem witness_wire_rows_too_long :
    State.reset.cfg.inMax < (0x4D :: List.replicate 2048 (0x2D : Byte)).length % 2 ^ 16 ∧
    ([] : List Byte).length % 2 ^ 16 = 0 := by
  rw [List.length_cons, List.length_replicate]
  decide

theorem witness_ConformantCommandIsReceivedExactly :
    (Instr.wireM [0x2D, 0x48]).conformant ∧ encode (.wireM [0x2D, 0x48]) = .wire [0x4D, 0x2D, 0x48] ∧
    (receiving (cmdFrame [0x4D, 0x2D, 0x48])).rxFresh ∧
    (receiving (cmdFrame [0x4D, 0x2D, 0x48])).rxq = cmdFrame [0x4D, 0x2D, 0x48] ++ [] ∧
    (cmdFrame [0x4D, 0x2D, 0x48]).length ≤ (receiving []).cfg.rxMax := by
  refine ⟨⟨by decide, ⟨0x2D, by decide, by decide⟩, by decide⟩, by decide, by decide, by decide, by decide⟩

/-- A step of each group that OperationsWriteOnlyTheirItems names. -/
theorem witness_OperationsWriteOnlyTheirItems :
    (nextOf (exec .verCmd (flying 0x00000008 [0x02, 0x53, 0x03, 0x6A, 0x0F]))).isSome = true ∧
    encode .verCmd = .word 0x00000008 ∧
    (nextOf (exec .rxFrame (receiving [0x06]))).isSome = true ∧ encode .rxFrame = .word 0x00000007 ∧
    (nextOf (exec .cksCmd (tooLong 0x00000001))).map (fun t => t.status.err) = some 2 ∧
    (tooLong 0x00000001).status.err = 0 := by decide

theorem witness_FailedCheckHasNoEffect :
    (flying 0x00000005 []).inFlight = some .encChunk ∧ phaseFits .encChunk (flying 0x00000005 []).phase = true ∧
    (flying 0x00000005 []).status.err = 0 ∧
    (nextOf (exec .encChunk (flying 0x00000005 []))).map (fun t => t.status.err) = some 2 := by decide

theorem witness_ChannelStreamsAreFifos : (nextOf (step (receiving [0x06]))).isSome = true := by decide

/-- An operation in flight over a byte that was never written: the machine's invariant holds, and the step after
the first faults. -/
theorem witness_OnlyUnwrittenInputStopsTheMachine :
    (atPlace { flying 0x00000001 [] with inLen := 1 } .body 0).Inv ∧
    faultOf (step (atPlace { flying 0x00000001 [] with inLen := 1 } .body 0)) = some (.unwrittenIn 0) :=
  ⟨⟨by decide, by decide, by decide,
    (by decide : ProgressOf .cksCmd (atPlace { flying 0x00000001 [] with inLen := 1 } .body 0)), by decide, by decide,
    by decide⟩, by decide⟩

theorem witness_OperationsEndInBoundedSteps :
    (flying 0x00000005 [0x53]).Inv ∧ (flying 0x00000005 [0x53]).prepared ∧
    (flying 0x00000005 [0x53]).inFlight = some .encChunk :=
  ⟨⟨by decide, by decide, by decide, (by decide : ProgressOf .encChunk (flying 0x00000005 [0x53])), by decide,
    by decide, by decide⟩, ⟨[0x53], by decide⟩, by decide⟩

theorem witness_EveryStepKeepsTheMachineInvariant :
    (receiving [0x02]).Inv ∧ (nextOf (step (receiving [0x02]))).isSome = true :=
  ⟨⟨by decide, by decide, by decide, (by decide : ProgressOf .rxFrame (receiving [0x02])), by decide, by decide,
    by decide⟩, by decide⟩

end Sys2Proof.Tests
end

section
/-! SUPPORT. The end of an operation (00_scope.md R7, 70_reset_and_hazards.md R256): an ENGINE step from a state of the
invariant ends the operation or brings it nearer to its end, by a count of the steps left, at most IN_LEN + 10. -/

namespace Sys2Proof.Machine

variable {s t : State} {i : Instr}

/-! ## A step with the agenda empty -/

/-- With an empty agenda RX_FRAME moves as soon as RXQ has a byte for it (42_decode.md R171). -/
theorem step_engine_rxFrame (ha : s.agenda = []) (hf : s.inFlight = some .rxFrame) (hq : s.rxq ≠ []) :
    step s = exec .rxFrame s := by
  have hready : s.engineReady = true := by simp [State.engineReady, hf, hq]
  simp only [step, nextTurn, ha, hready, if_true, engineTurn_of_inFlight hf]

/-! ## How many steps an operation has left -/

/-- At most so many ENGINE steps follow an operation's loop over IN: the marker and the seal's two bytes in ENC_CMD, the
seal's two bytes in ENC_CHUNK, the write of RESULT in the checksums (log 1). -/
def stepsAfterLoop : Instr → Nat
  | .encCmd => 3
  | .encChunk => 2
  | _ => 1

/-- At most so many ENGINE steps are left to operation `i` from the place it has come to (log 1). -/
def stepsLeft (i : Instr) (s : State) : Nat :=
  match s.phase with
  | .start => s.len + 10
  | .header j => (7 - j) + s.len + 2
  | .body => (s.len - s.idx.toNat) + stepsAfterLoop i
  | .sealHi => 2
  | .sealLo => 1

theorem stepsAfterLoop_pos (i : Instr) : 1 ≤ stepsAfterLoop i := by cases i <;> simp [stepsAfterLoop]

theorem stepsAfterLoop_le (i : Instr) : stepsAfterLoop i ≤ 3 := by cases i <;> simp [stepsAfterLoop]

theorem stepsLeft_pos (i : Instr) (s : State) : 1 ≤ stepsLeft i s := by
  have := stepsAfterLoop_pos i
  unfold stepsLeft
  split <;> omega

theorem stepsLeft_le (i : Instr) (s : State) : stepsLeft i s ≤ s.len + 10 := by
  have := stepsAfterLoop_le i
  unfold stepsLeft
  split <;> omega

/-! ## What one step does for the end -/

/-- The operation has ended (00_scope.md R13, 10_state.md R24). -/
def Ended (t : State) : Prop := t.status.done = true ∧ t.status.busy = false

theorem ended_finish (s : State) : Ended s.finish := ⟨rfl, rfl⟩
theorem ended_raise (s : State) (e : ErrCode) : Ended (s.raise e) := ⟨rfl, rfl⟩
theorem ended_finishResult (s : State) (v : Half) : Ended (s.finishResult v) := ⟨rfl, rfl⟩
theorem ended_verdict (s : State) (c r p : Half) : Ended (s.verdict c r p) := ⟨rfl, rfl⟩

/-- The step to `t` has left operation `i` at a later place of its rule, over the same bytes of IN. -/
structure Advances (i : Instr) (s t : State) : Prop where
  progress : ProgressOf i t
  inLen : t.inLen = s.inLen
  inBuf : t.inBuf = s.inBuf
  fewer : stepsLeft i t < stepsLeft i s

/-- IDX does not wrap while it is below IN_LEN. -/
theorem State.idx_add_one_toNat (h : s.idx.toNat < s.len) : (s.idx + 1).toNat = s.idx.toNat + 1 := by
  have := s.inLen.isLt
  unfold State.len at h
  rw [BitVec.toNat_add, show (1 : Half).toNat = 1 from rfl]
  omega

/-- A pass of a loop over IN advances; ENC_RAW ends with its last byte, so its pass has another one after it. -/
theorem Advances.of_pass {f : Byte → State → State} (keeps : PassKeeps f) (hcfg : ∀ b s, (f b s).cfg = s.cfg) (b : Byte)
    (hs : ProgressOf i s) (hp : s.phase = .body) (hi : s.idx.toNat < s.len)
    (hraw : i = .encRaw → s.idx.toNat + 1 < s.len) : Advances i s (f b s) := by
  obtain ⟨hphase, hlen, hbuf, hidx⟩ := keeps b s
  obtain ⟨fits, -, checked, -, -, -, chunk⟩ := hs
  have hl : (f b s).len = s.len := by unfold State.len; rw [hlen]
  have hn : (f b s).idx.toNat = s.idx.toNat + 1 := by rw [hidx, State.idx_add_one_toNat hi]
  rw [hp] at hphase fits checked chunk
  refine ⟨?_, hlen, hbuf, ?_⟩
  · unfold ProgressOf
    rw [hphase, hn, hl, hcfg]
    exact ⟨fits, hi, checked, by simp, by simp, fun h _ => hraw h, chunk⟩
  · simp only [stepsLeft, hphase, hp, hl, hn]
    omega

/-- A step that only moves on to phase `p`, IDX and IN left alone, advances when `p` fits and is nearer to the end. -/
theorem Advances.of_phase {p : Phase} (ht : t.phase = p ∧ t.idx = s.idx ∧ t.inLen = s.inLen ∧ t.inBuf = s.inBuf ∧
    t.cfg = s.cfg) (hs : ProgressOf i { s with phase := p }) (hn : stepsLeft i { s with phase := p } < stepsLeft i s) :
    Advances i s t := by
  obtain ⟨rfl, hidx, hlen, hbuf, hcfg⟩ := ht
  refine ⟨?_, hlen, hbuf, ?_⟩
  · simpa only [ProgressOf, State.len, hidx, hlen, hcfg] using hs
  · simpa only [stepsLeft, State.len, hidx, hlen] using hn

/-- The first step of an operation that comes to its loop over IN at once advances. -/
theorem Advances.start_body (ht : t.phase = .body ∧ t.idx = s.idx ∧ t.inLen = s.inLen ∧ t.inBuf = s.inBuf ∧
    t.cfg = s.cfg) (hs : ProgressOf i s) (hp : s.phase = .start) (hl : s.len ≤ s.cfg.inMax)
    (fits : phaseFits i .body = true) (hc : i ≠ .encChunk) (hraw : i = .encRaw → s.len ≠ 0) : Advances i s t := by
  obtain ⟨-, hle, -, hz, -⟩ := hs
  have hidx : s.idx = 0 := hz (by simp [hp])
  have := stepsAfterLoop_le i
  refine .of_phase ht ⟨fits, hle, fun _ => hl, by simp, by simp, fun h _ => ?_, fun h => absurd h hc⟩ ?_
  · calc s.idx.toNat = 0 := by rw [hidx]; rfl
      _ < s.len := Nat.pos_of_ne_zero (hraw h)
  · simp only [stepsLeft, hp, hidx, State.len]
    omega

/-! ## Each operation -/

theorem execCksCmd_advances (hs : ProgressOf .cksCmd s) (h : execCksCmd s = .next t) :
    Ended t ∨ Advances .cksCmd s t := by
  obtain ⟨-, -, rfl⟩ | ⟨hp, hl, rfl⟩ | ⟨b, hp, hi, -, rfl⟩ | ⟨-, -, rfl⟩ | ⟨h1, h2, -⟩ := execCksCmd_next h
  · exact .inl (ended_raise s _)
  · exact .inr (.start_body ⟨rfl, rfl, rfl, rfl, rfl⟩ hs hp hl rfl nofun nofun)
  · exact .inr (.of_pass cksCmdPass_keeps (fun _ _ => rfl) b hs hp hi nofun)
  · exact .inl (ended_finishResult s _)
  · obtain ⟨fits, -⟩ := hs
    simp [phaseFits, h1, h2] at fits

theorem execCksCrc_advances (hs : ProgressOf .cksCrc s) (h : execCksCrc s = .next t) :
    Ended t ∨ Advances .cksCrc s t := by
  obtain ⟨-, -, rfl⟩ | ⟨hp, hl, rfl⟩ | ⟨b, hp, hi, -, rfl⟩ | ⟨-, -, rfl⟩ | ⟨h1, h2, -⟩ := execCksCrc_next h
  · exact .inl (ended_raise s _)
  · exact .inr (.start_body ⟨rfl, rfl, rfl, rfl, rfl⟩ hs hp hl rfl nofun nofun)
  · exact .inr (.of_pass cksCrcPass_keeps (fun _ _ => rfl) b hs hp hi nofun)
  · exact .inl (ended_finishResult s _)
  · obtain ⟨fits, -⟩ := hs
    simp [phaseFits, h1, h2] at fits

theorem execEncCmd_advances (hs : ProgressOf .encCmd s) (h : execEncCmd s = .next t) :
    Ended t ∨ Advances .encCmd s t := by
  have ⟨fits, hle, checked, _, sealed, _⟩ := hs
  obtain ⟨-, -, rfl⟩ | ⟨hp, hl, rfl⟩ | ⟨b, hp, hi, -, rfl⟩ | ⟨hp, hi, rfl⟩ | ⟨hp, rfl⟩ | ⟨-, rfl⟩ | ⟨j, hp, -⟩ :=
    execEncCmd_next h
  · exact .inl (ended_raise s _)
  · exact .inr (.start_body ⟨rfl, rfl, rfl, rfl, rfl⟩ hs hp hl rfl nofun nofun)
  · exact .inr (.of_pass encCmdPass_keeps (fun _ _ => rfl) b hs hp hi nofun)
  · refine .inr (.of_phase ⟨rfl, rfl, rfl, rfl, rfl⟩ ?_ ?_)
    · exact ⟨rfl, hle, fun _ => checked (by simp [hp]), by simp, fun _ => le_antisymm hle hi, nofun, nofun⟩
    · simp only [stepsLeft, hp, stepsAfterLoop]
      omega
  · refine .inr (.of_phase ⟨rfl, rfl, rfl, rfl, rfl⟩ ?_ (by simp [stepsLeft, hp]))
    exact ⟨rfl, hle, fun _ => checked (by simp [hp]), by simp, fun _ => sealed (.inl hp), nofun, nofun⟩
  · exact .inl (ended_finishResult _ _)
  · simp [phaseFits, hp] at fits

theorem execEncRaw_advances (hs : ProgressOf .encRaw s) (h : execEncRaw s = .next t) :
    Ended t ∨ Advances .encRaw s t := by
  obtain ⟨-, -, rfl⟩ | ⟨-, -, -, rfl⟩ | ⟨hp, hl, h0, rfl⟩ | ⟨b, hp, -, hi, rfl⟩ | ⟨b, -, -, -, rfl⟩ | ⟨h1, h2, -⟩ :=
    execEncRaw_next h
  · exact .inl (ended_raise s _)
  · exact .inl (ended_finish _)
  · exact .inr (.start_body ⟨rfl, rfl, rfl, rfl, rfl⟩ hs hp hl rfl nofun fun _ => h0)
  · exact .inr (.of_pass encRawPass_keeps (fun _ _ => rfl) b hs hp (by omega) fun _ => hi)
  · exact .inl (ended_finish _)
  · obtain ⟨fits, -⟩ := hs
    simp [phaseFits, h1, h2] at fits

theorem execEncChunk_advances (hs : ProgressOf .encChunk s) (h : execEncChunk s = .next t) :
    Ended t ∨ Advances .encChunk s t := by
  have ⟨fits, hle, checked, zero, _, _, chunk⟩ := hs
  obtain ⟨-, -, rfl⟩ | ⟨d, hp, hl, h0, hm, -, rfl⟩ | ⟨j, hp, rfl⟩ | ⟨b, hp, hi, -, rfl⟩ | ⟨hp, hi, rfl⟩ | ⟨-, rfl⟩ |
    ⟨hp, -⟩ := execEncChunk_next h
  · exact .inl (ended_raise s _)
  · refine .inr (.of_phase ⟨rfl, rfl, rfl, rfl, rfl⟩ ?_ ?_)
    · exact ⟨rfl, hle, fun _ => hl, fun _ => zero (by simp [hp]), by simp, nofun,
        fun _ _ => ⟨Nat.pos_of_ne_zero h0, hm⟩⟩
    · simp only [stepsLeft, hp, State.len]
      omega
  · have hidx : s.idx = 0 := zero (by simp [hp])
    have hj : j ≤ 6 := by simpa [phaseFits, hp] using fits
    have hc := checked (by simp [hp])
    have hm := chunk rfl (by simp [hp])
    refine .inr (.of_phase ⟨rfl, rfl, rfl, rfl, rfl⟩ ?_ ?_)
    · split
      · next hlt =>
        exact ⟨by simpa [phaseFits] using hlt, hle, fun _ => hc, fun _ => hidx, by simp, nofun, fun _ _ => hm⟩
      · exact ⟨rfl, hle, fun _ => hc, by simp, by simp, nofun, fun _ _ => hm⟩
    · split
      · simp only [stepsLeft, hp, State.len]
        omega
      · simp only [stepsLeft, hp, State.len, stepsAfterLoop]
        omega
  · exact .inr (.of_pass encChunkPass_keeps (fun _ _ => rfl) b hs hp hi nofun)
  · refine .inr (.of_phase ⟨rfl, rfl, rfl, rfl, rfl⟩ ?_ ?_)
    · exact ⟨rfl, hle, fun _ => checked (by simp [hp]), by simp, fun _ => le_antisymm hle hi, nofun,
        fun _ _ => chunk rfl (by simp [hp])⟩
    · simp only [stepsLeft, hp, stepsAfterLoop]
      omega
  · exact .inl (ended_finishResult _ _)
  · simp [phaseFits, hp] at fits

theorem execSigTx_ends {a : Byte} (h : execSigTx a s = .next t) : Ended t := by
  rw [execSigTx_eq] at h
  cases h
  split
  · exact ended_raise s _
  · exact ended_finish _

theorem execVerCmd_ends (h : execVerCmd s = .next t) : Ended t := by
  obtain ⟨-, rfl⟩ | ⟨-, rfl⟩ | ⟨c, hi, lo, -, -, -, -, -, -, -, rfl⟩ := execVerCmd_next h
  · exact ended_raise s _
  · exact ended_raise s _
  · exact ended_verdict _ _ _ _

theorem execVerCrc_ends (h : execVerCrc s = .next t) : Ended t := by
  obtain ⟨-, rfl⟩ | ⟨-, rfl⟩ | ⟨c, hi, lo, -, -, -, -, -, -, rfl⟩ := execVerCrc_next h
  · exact ended_raise s _
  · exact ended_raise s _
  · exact ended_verdict _ _ _ _

/-! ## Every operation but RX_FRAME -/

/-- A step that answers a next state has ended the operation or advanced it. -/
theorem exec_advances (hs : ProgressOf i s) (hr : i ≠ .rxFrame) (h : exec i s = .next t) :
    Ended t ∨ Advances i s t := by
  cases i with
  | cksCmd => exact execCksCmd_advances hs h
  | cksCrc => exact execCksCrc_advances hs h
  | encCmd => exact execEncCmd_advances hs h
  | encRaw => exact execEncRaw_advances hs h
  | encChunk => exact execEncChunk_advances hs h
  | sigTx a => exact .inl (execSigTx_ends h)
  | rxFrame => exact absurd rfl hr
  | verCmd => exact .inl (execVerCmd_ends h)
  | verCrc => exact .inl (execVerCrc_ends h)
  | wireM | wireL | wireO | wireW | wireC | wireS | wireSigNak | wireSigAck => exact absurd hs.1 nofun

/-- Over prepared IN an operation that is at a place of its rule never stops the machine (10_state.md R32). -/
theorem exec_next_of_prepared (hs : ProgressOf i s) (hprep : s.prepared) : ∃ t, exec i s = .next t := by
  obtain ⟨bytes, hbytes⟩ := hprep
  obtain ⟨-, -, -, -, -, raw, -⟩ := hs
  cases h : exec i s with
  | next t => exact ⟨t, rfl⟩
  | refused r => exact absurd h (exec_not_refused i s r)
  | fault f =>
    obtain ⟨e, -, hnone, hwhere, -⟩ := exec_fault h
    have he : e < s.len := by
      obtain he | ⟨hi, hp, rfl⟩ := hwhere
      · exact he
      · exact raw hi hp
    have hlen := Memory.span_length hbytes
    rw [State.readIn_of_loaded hbytes he, List.getElem?_eq_none_iff] at hnone
    omega

theorem Advances.prepared (h : Advances i s t) (hs : s.prepared) : t.prepared := by
  unfold State.prepared State.loaded State.spanIn State.len at *
  rwa [h.inBuf, h.inLen]

/-- From any place of its rule an operation ends within the steps it has left, by induction on their number. -/
theorem exec_ends_within_stepsLeft (hr : i ≠ .rxFrame) (n : Nat) : ∀ s : State, stepsLeft i s ≤ n → ProgressOf i s →
    s.prepared → ∃ k t, k ≤ n ∧ execTimes k i s = .next t ∧ Ended t := by
  induction n with
  | zero =>
    intro s hn
    have := stepsLeft_pos i s
    omega
  | succ n ih =>
    intro s hn hs hprep
    obtain ⟨u, hu⟩ := exec_next_of_prepared hs hprep
    obtain hend | hadv := exec_advances hs hr hu
    · exact ⟨1, u, by omega, execTimes_succ hu 0, hend⟩
    · have := hadv.fewer
      obtain ⟨k, t, hk, ht, hend⟩ := ih u (by omega) hadv.progress (hadv.prepared hprep)
      exact ⟨k + 1, t, by omega, by rw [execTimes_succ hu, ht], hend⟩

/-! ## The statements -/

/-- Settles O58: a step of the operation in flight lowers `stepsLeft`, which is at most IN_LEN + 10, or ends it. -/
theorem operationsEndInBoundedSteps : Obligations.OperationsEndInBoundedSteps := by
  intro s i hinv hprep hf hr
  have hs : ProgressOf i s := by
    have hprog := hinv.progress
    simpa only [ProgressOk, hf] using hprog
  obtain ⟨k, t, hk, ht, hdone, hbusy⟩ := exec_ends_within_stepsLeft hr _ s (stepsLeft_le i s) hs hprep
  exact ⟨k, t, hk, ht, hdone, hbusy⟩

/-- Settles O7: BUSY, OPCUR and OPWORD put `i` in flight, and taking a turn off the agenda leaves it there. -/
theorem engineTurnRunsOperationInFlight : Obligations.EngineTurnRunsOperationInFlight := by
  intro s i hb ho hd
  have hf : s.inFlight = some i := State.inFlight_of_decode hb ho hd
  refine ⟨fun rest ha => ?_, fun ha hq => ?_⟩
  · calc step s = engineTurn (s.setAgenda rest) := step_of_agenda ha
      _ = exec i (s.setAgenda rest) := engineTurn_of_inFlight hf
  · by_cases hr : i = .rxFrame
    · subst hr
      exact step_engine_rxFrame ha hf (hq rfl)
    · exact step_engine ha hf hr

end Sys2Proof.Machine
end

section
/-! SUPPORT. What a step can do, once for every statement about the whole machine: whose turn it is, what an ENGINE step
of an operation other than RX_FRAME writes (10_state.md R42), and what a HOST turn writes. -/

namespace Sys2Proof.Machine

variable {s t : State} {i : Instr}

/-! ## Whose turn it is -/

/-- A step is a turn of the agent at the head of the agenda; with an empty agenda, of the ENGINE or the HOST (log 3). -/
theorem step_takes_turn (s : State) : ∃ turn, step s = takeTurn turn (s.setAgenda s.agenda.tail) ∧
    (s.agenda.head? = some turn ∨ turn = .engine ∨ turn = .host) := by
  cases ha : s.agenda with
  | cons turn rest => exact ⟨turn, step_of_agenda ha, .inl rfl⟩
  | nil =>
    have hs : s.setAgenda [] = s := by rw [← ha]; rfl
    rw [List.tail_nil, hs]
    by_cases hr : s.engineReady = true
    · exact ⟨.engine, by simp only [step, nextTurn, ha, hr, if_true, takeTurn], .inr (.inl rfl)⟩
    · exact ⟨.host, by simp only [step, nextTurn, ha, hr, Bool.false_eq_true, if_false, takeTurn], .inr (.inr rfl)⟩

/-! ## The ENGINE -/

/-- Only the encoders and SIG_TX emit (10_state.md R42). -/
def Emits (i : Instr) : Prop := i = .encCmd ∨ i = .encRaw ∨ i = .encChunk ∨ ∃ a, i = .sigTx a

/-- Operation `i` has worked on: at most one byte emitted, the accumulator of its own checksum moved on
(10_state.md R35, R36), and another place reached in its rule. -/
inductive Worked (i : Instr) (s : State) : State → Prop
  | mk (txs : List Byte) (accCmd accCrc idx : Half) (phase : Phase)
      (emitted : txs = s.txs ∨ Emits i ∧ ∃ b, txs = s.txs ++ [b])
      (cmd : accCmd = s.accCmd ∨ i = .cksCmd ∨ i = .encCmd ∨ i = .verCmd)
      (crc : accCrc = s.accCrc ∨ i = .cksCrc ∨ i = .encChunk ∨ i = .verCrc) :
      Worked i s { s with txs := txs, accCmd := accCmd, accCrc := accCrc, idx := idx, phase := phase }

/-- One ENGINE step of an operation other than RX_FRAME: a failed check, or work that goes on or ends it in one of the
ways of Ops.lean. -/
inductive OpStep (i : Instr) (s : State) : State → Prop
  | raised {e : ErrCode} (he : e ≠ .ckMismatch) : OpStep i s (s.raise e)
  | goesOn {u : State} (hu : Worked i s u) : OpStep i s u
  | finished {u : State} (hu : Worked i s u) : OpStep i s u.finish
  | finishedResult {u : State} (v : Half) (hu : Worked i s u) (hr : i ≠ .encRaw ∧ ∀ a, i ≠ .sigTx a) :
      OpStep i s (u.finishResult v)
  | verified {u : State} (c r p : Half) (hu : Worked i s u) (hv : i = .verCmd ∨ i = .verCrc) :
      OpStep i s (u.verdict c r p)

theorem worked_refl (i : Instr) (s : State) : Worked i s s :=
  .mk s.txs s.accCmd s.accCrc s.idx s.phase (.inl rfl) (.inl rfl) (.inl rfl)

/-- An emitting operation appends one byte. -/
theorem worked_emit (hi : Emits i) (b : Byte) (accCmd accCrc idx : Half) (phase : Phase)
    (cmd : accCmd = s.accCmd ∨ i = .cksCmd ∨ i = .encCmd ∨ i = .verCmd)
    (crc : accCrc = s.accCrc ∨ i = .cksCrc ∨ i = .encChunk ∨ i = .verCrc) :
    Worked i s { s.emit b with accCmd := accCmd, accCrc := accCrc, idx := idx, phase := phase } :=
  .mk _ accCmd accCrc idx phase (.inr ⟨hi, b, rfl⟩) cmd crc

theorem execCksCmd_opStep (h : execCksCmd s = .next t) : OpStep .cksCmd s t := by
  obtain ⟨-, -, rfl⟩ | ⟨-, -, rfl⟩ | ⟨b, -, -, -, rfl⟩ | ⟨-, -, rfl⟩ | ⟨-, -, rfl⟩ := execCksCmd_next h
  · exact .raised nofun
  · exact .goesOn (.mk _ _ _ _ _ (.inl rfl) (.inr (.inl rfl)) (.inl rfl))
  · exact .goesOn (.mk _ _ _ _ _ (.inl rfl) (.inr (.inl rfl)) (.inl rfl))
  · exact .finishedResult _ (worked_refl _ _) ⟨nofun, nofun⟩
  · exact .goesOn (worked_refl _ _)

theorem execCksCrc_opStep (h : execCksCrc s = .next t) : OpStep .cksCrc s t := by
  obtain ⟨-, -, rfl⟩ | ⟨-, -, rfl⟩ | ⟨b, -, -, -, rfl⟩ | ⟨-, -, rfl⟩ | ⟨-, -, rfl⟩ := execCksCrc_next h
  · exact .raised nofun
  · exact .goesOn (.mk _ _ _ _ _ (.inl rfl) (.inl rfl) (.inr (.inl rfl)))
  · exact .goesOn (.mk _ _ _ _ _ (.inl rfl) (.inl rfl) (.inr (.inl rfl)))
  · exact .finishedResult _ (worked_refl _ _) ⟨nofun, nofun⟩
  · exact .goesOn (worked_refl _ _)

theorem execEncCmd_opStep (h : execEncCmd s = .next t) : OpStep .encCmd s t := by
  have emits : Emits .encCmd := .inl rfl
  have cmd : ∀ v : Half, v = s.accCmd ∨ Instr.encCmd = .cksCmd ∨ Instr.encCmd = .encCmd ∨ Instr.encCmd = .verCmd :=
    fun _ => .inr (.inr (.inl rfl))
  obtain ⟨-, -, rfl⟩ | ⟨-, -, rfl⟩ | ⟨b, -, -, -, rfl⟩ | ⟨-, -, rfl⟩ | ⟨-, rfl⟩ | ⟨-, rfl⟩ | ⟨j, -, rfl⟩ :=
    execEncCmd_next h
  · exact .raised nofun
  · exact .goesOn (worked_emit emits _ _ _ _ _ (cmd _) (.inl rfl))
  · exact .goesOn (worked_emit emits _ _ _ _ _ (cmd _) (.inl rfl))
  · exact .goesOn (worked_emit emits _ _ _ _ _ (cmd _) (.inl rfl))
  · exact .goesOn (worked_emit emits _ _ _ _ _ (cmd _) (.inl rfl))
  · exact .finishedResult _ (worked_emit emits _ _ _ _ _ (cmd _) (.inl rfl)) ⟨nofun, nofun⟩
  · exact .goesOn (worked_refl _ _)

theorem execEncRaw_opStep (h : execEncRaw s = .next t) : OpStep .encRaw s t := by
  have emits : Emits .encRaw := .inr (.inl rfl)
  obtain ⟨-, -, rfl⟩ | ⟨-, -, -, rfl⟩ | ⟨-, -, -, rfl⟩ | ⟨b, -, -, -, rfl⟩ | ⟨b, -, -, -, rfl⟩ | ⟨-, -, rfl⟩ :=
    execEncRaw_next h
  · exact .raised nofun
  · exact .finished (worked_emit emits _ _ _ _ _ (.inl rfl) (.inl rfl))
  · exact .goesOn (worked_emit emits _ _ _ _ _ (.inl rfl) (.inl rfl))
  · exact .goesOn (worked_emit emits _ _ _ _ _ (.inl rfl) (.inl rfl))
  · exact .finished (worked_emit emits _ _ _ _ _ (.inl rfl) (.inl rfl))
  · exact .goesOn (worked_refl _ _)

theorem execEncChunk_opStep (h : execEncChunk s = .next t) : OpStep .encChunk s t := by
  have emits : Emits .encChunk := .inr (.inr (.inl rfl))
  have crc : ∀ v : Half, v = s.accCrc ∨
      Instr.encChunk = .cksCrc ∨ Instr.encChunk = .encChunk ∨ Instr.encChunk = .verCrc := fun _ => .inr (.inr (.inl rfl))
  obtain ⟨-, -, rfl⟩ | ⟨d, -, -, -, -, -, rfl⟩ | ⟨j, -, rfl⟩ | ⟨b, -, -, -, rfl⟩ | ⟨-, -, rfl⟩ | ⟨-, rfl⟩ | ⟨-, rfl⟩ :=
    execEncChunk_next h
  · exact .raised nofun
  · exact .goesOn (worked_emit emits _ _ _ _ _ (.inl rfl) (crc _))
  · exact .goesOn (worked_emit emits _ _ _ _ _ (.inl rfl) (crc _))
  · exact .goesOn (worked_emit emits _ _ _ _ _ (.inl rfl) (crc _))
  · exact .goesOn (worked_emit emits _ _ _ _ _ (.inl rfl) (crc _))
  · exact .finishedResult _ (worked_emit emits _ _ _ _ _ (.inl rfl) (crc _)) ⟨nofun, nofun⟩
  · exact .goesOn (worked_refl _ _)

theorem execSigTx_opStep {a : Byte} (h : execSigTx a s = .next t) : OpStep (.sigTx a) s t := by
  rw [execSigTx_eq] at h
  cases h
  split
  · exact .raised nofun
  · exact .finished (worked_emit (.inr (.inr (.inr ⟨a, rfl⟩))) _ _ _ _ _ (.inl rfl) (.inl rfl))

theorem execVerCmd_opStep (h : execVerCmd s = .next t) : OpStep .verCmd s t := by
  obtain ⟨-, rfl⟩ | ⟨-, rfl⟩ | ⟨c, hi, lo, -, -, -, -, -, -, -, rfl⟩ := execVerCmd_next h
  · exact .raised nofun
  · exact .raised nofun
  · exact .verified _ _ _ (.mk _ _ _ _ _ (.inl rfl) (.inr (.inr (.inr rfl))) (.inl rfl)) (.inl rfl)

theorem execVerCrc_opStep (h : execVerCrc s = .next t) : OpStep .verCrc s t := by
  obtain ⟨-, rfl⟩ | ⟨-, rfl⟩ | ⟨c, hi, lo, -, -, -, -, -, -, rfl⟩ := execVerCrc_next h
  · exact .raised nofun
  · exact .raised nofun
  · exact .verified _ _ _ (.mk _ _ _ _ _ (.inl rfl) (.inl rfl) (.inr (.inr (.inr rfl)))) (.inr rfl)

/-- Every ENGINE step of an operation other than RX_FRAME has the shape of `OpStep`. -/
theorem exec_opStep {w : Word} (hw : encode i = .word w) (hr : i ≠ .rxFrame) (h : exec i s = .next t) :
    OpStep i s t := by
  cases i with
  | cksCmd => exact execCksCmd_opStep h
  | cksCrc => exact execCksCrc_opStep h
  | encCmd => exact execEncCmd_opStep h
  | encRaw => exact execEncRaw_opStep h
  | encChunk => exact execEncChunk_opStep h
  | sigTx a => exact execSigTx_opStep h
  | rxFrame => exact absurd rfl hr
  | verCmd => exact execVerCmd_opStep h
  | verCrc => exact execVerCrc_opStep h
  | wireM | wireL | wireO | wireW | wireC | wireS | wireSigNak | wireSigAck => cases hw

/-- The operation in flight is one of the nine operation words (30_encoding.md R82). -/
theorem encode_word_of_inFlight (h : s.inFlight = some i) : ∃ w, encode i = .word w := by
  obtain ⟨c, hc⟩ := State.inFlight_word h
  obtain ⟨-, rfl⟩ | ⟨-, rfl⟩ | ⟨-, rfl⟩ | ⟨-, rfl⟩ | ⟨-, rfl⟩ | ⟨-, rfl⟩ | ⟨-, rfl⟩ | ⟨-, rfl⟩ | ⟨-, rfl⟩ :=
    instrOfCode_cases hc <;> exact ⟨_, rfl⟩

/-! ## The HOST -/

/-- One turn of the HOST: nothing of the block but HERR, or, with BUSY = 0, an accepted operation word or a write to
OFFSET, IN_LEN or IN (10_state.md R22, R32; 60_exceptions.md R210). -/
inductive HostStep (s : State) : State → Prop
  | hostOnly {t : State} (h : HostOnly s t) : HostStep s t
  | startOp (hb : s.status.busy = false) (w : Word) : HostStep s (s.startOp w)
  | offset (hb : s.status.busy = false) (v : Word) : HostStep s { s with offset := v }
  | inLen (hb : s.status.busy = false) (n : Half) : HostStep s { s with inLen := n }
  | inByte (hb : s.status.busy = false) {i : Nat} (hi : i < s.cfg.inMax) (b : Byte) :
      HostStep s { s with inBuf := Memory.write s.inBuf i b }

/-- A register write of an idle block (10_state.md R22). -/
theorem writeReg_hostStep (hb : s.status.busy = false) (reg : Nat) (v : Word) : HostStep s (s.writeReg reg v) := by
  simp only [State.writeReg, State.accept, State.unlessBusy, hb, Bool.false_eq_true, if_false]
  split_ifs
  · exact .startOp hb v
  · exact .hostOnly ⟨false, s.hostProg, s.readData, s.draws, rfl⟩
  · exact .hostOnly (hostOnly_refl s)
  · exact .offset hb v
  · exact .inLen hb _
  · exact .hostOnly (hostOnly_refl s)

/-- An IN write of an idle block (10_state.md R32, 20_memory.md R57). -/
theorem writeIn_hostStep (hb : s.status.busy = false) (i : Nat) (b : Byte) : HostStep s (s.writeIn i b) := by
  simp only [State.writeIn, State.unlessBusy, hb, Bool.false_eq_true, if_false]
  split_ifs with hi
  · exact .hostOnly (hostOnly_refl s)
  · exact .inByte hb (by omega) b

/-- Every line that is no write only reads or pushes lines. -/
theorem runLine_hostOnly {line : HostLine} (hreg : ∀ reg v, line ≠ .wr reg v) (hin : ∀ i b, line ≠ .wrb i b)
    (s : State) : ∃ t, runLine line s = .next t ∧ HostOnly s t := by
  cases line with
  | wr reg v => exact absurd rfl (hreg reg v)
  | wrb i b => exact absurd rfl (hin i b)
  | rd | rdbIn | rdbRx => exact ⟨_, rfl, hostOnly_returnRead s _⟩
  | load | sendCmd | sendRaw | recvf => exact ⟨_, rfl, hostOnly_pushLines s _⟩
  | poll =>
    refine ⟨s.poll, rfl, ?_⟩
    unfold State.poll
    split
    · exact hostOnly_returnRead s _
    · exact ⟨s.status.herr, _, _, _, rfl⟩
  | wire u =>
    simp only [runLine]
    split
    · next i hi =>
      obtain ⟨p, hp⟩ := decodeWire_ok hi
      obtain ⟨lines, hl⟩ := exec_wire hp s
      exact ⟨_, hl, hostOnly_pushLines s lines⟩
    · exact ⟨_, rfl, hostOnly_pushLines s _⟩

/-- A line of the HOST's program never stops the machine. -/
theorem runLine_hostStep (line : HostLine) (s : State) : ∃ t, runLine line s = .next t ∧ HostStep s t := by
  by_cases hb : s.status.busy = true
  · obtain ⟨t, ht, h⟩ := runLine_busy line s hb
    exact ⟨t, ht, .hostOnly h⟩
  have hb : s.status.busy = false := by simpa using hb
  cases line with
  | wr reg v => exact ⟨_, rfl, writeReg_hostStep hb reg v⟩
  | wrb i b => exact ⟨_, rfl, writeIn_hostStep hb i b⟩
  | _ => exact (runLine_hostOnly (by simp) (by simp) s).imp fun _ h => ⟨h.1, .hostOnly h.2⟩

/-- Nor does a HOST turn. -/
theorem hostTurn_hostStep (s : State) : ∃ t, hostTurn s = .next t ∧ HostStep (s.setProg s.hostProg.tail) t := by
  cases hp : s.hostProg with
  | nil => exact ⟨s, by simp only [hostTurn, hp], .hostOnly ⟨s.status.herr, s.hostProg, s.readData, s.draws, rfl⟩⟩
  | cons line rest =>
    obtain ⟨t, ht, h⟩ := runLine_hostStep line (s.setProg rest)
    exact ⟨t, by rw [hostTurn_cons hp, ht], h⟩

/-- Only the ENGINE's turn can stop the machine. -/
theorem takeTurn_next_of_ne_engine {turn : Turn} (ht : turn ≠ .engine) (s : State) :
    ∃ t, takeTurn turn s = .next t := by
  cases turn with
  | engine => exact absurd rfl ht
  | host =>
    obtain ⟨t, h, -⟩ := hostTurn_hostStep s
    exact ⟨t, h⟩
  | channel | timer | reset => exact ⟨_, rfl⟩

end Sys2Proof.Machine
end

section
/-! SUPPORT. What each operation leaves unchanged (10_state.md R42), from the shape of its step. -/

namespace Sys2Proof.Machine

variable {s t : State} {i : Instr}

/-- The items every operation leaves alone. -/
abbrev Untouched (s t : State) : Prop :=
  t.cfg = s.cfg ∧ t.opword = s.opword ∧ t.offset = s.offset ∧ t.inLen = s.inLen ∧ t.inBuf = s.inBuf ∧
  t.hostProg = s.hostProg ∧ t.agenda = s.agenda ∧ t.readData = s.readData ∧ t.draws = s.draws ∧
  t.status.herr = s.status.herr

theorem OpStep.untouched (h : OpStep i s t) : Untouched s t := by
  cases h with
  | raised => exact ⟨rfl, rfl, rfl, rfl, rfl, rfl, rfl, rfl, rfl, rfl⟩
  | goesOn hu | finished hu | finishedResult v hu =>
    cases hu
    exact ⟨rfl, rfl, rfl, rfl, rfl, rfl, rfl, rfl, rfl, rfl⟩
  | verified c r p hu =>
    cases hu
    exact ⟨rfl, rfl, rfl, rfl, rfl, rfl, rfl, rfl, rfl, by simp⟩

theorem rxTake_untouched (b : Byte) (s : State) : Untouched s (rxTake b s) := by
  obtain ⟨-, -, e⟩ | ⟨-, -, e⟩ | ⟨-, -, -, -, e⟩ | ⟨-, -, -, e⟩ | ⟨-, -, -, e⟩ | ⟨-, -, -, e⟩ := rxTake_cases b s <;>
    rw [e]
  case inr.inr.inr.inl => exact ⟨rfl, rfl, rfl, rfl, rfl, rfl, rfl, rfl, rfl, by simp [verifyRx, rxAppend]⟩
  all_goals exact ⟨rfl, rfl, rfl, rfl, rfl, rfl, rfl, rfl, rfl, rfl⟩

/-- Only RX_FRAME changes what the reader writes. -/
theorem OpStep.reader_kept (h : OpStep i s t) : t.rxLen = s.rxLen ∧ t.signal = s.signal ∧ t.rxBuf = s.rxBuf ∧
    t.rxInf = s.rxInf ∧ t.rxq = s.rxq ∧ t.status.kind = s.status.kind := by
  cases h with
  | raised => exact ⟨rfl, rfl, rfl, rfl, rfl, rfl⟩
  | goesOn hu | finished hu | finishedResult v hu => cases hu; exact ⟨rfl, rfl, rfl, rfl, rfl, rfl⟩
  | verified c r p hu => cases hu; exact ⟨rfl, rfl, rfl, rfl, rfl, by simp⟩

/-- Only a verification changes what a verdict writes. -/
theorem OpStep.verdict_kept (h : OpStep i s t) (h1 : i ≠ .verCmd) (h2 : i ≠ .verCrc) : t.recv = s.recv ∧
    t.plen = s.plen ∧ t.status.ckValid = s.status.ckValid ∧ t.status.ckOk = s.status.ckOk := by
  cases h with
  | raised => exact ⟨rfl, rfl, rfl, rfl⟩
  | goesOn hu | finished hu | finishedResult v hu => cases hu; exact ⟨rfl, rfl, rfl, rfl⟩
  | verified c r p hu hv => exact absurd hv (by tauto)

/-- ENC_RAW and SIG_TX keep RESULT. -/
theorem OpStep.result_kept (h : OpStep i s t) (hi : i = .encRaw ∨ ∃ a, i = .sigTx a) : t.result = s.result := by
  cases h with
  | raised => rfl
  | goesOn hu | finished hu => cases hu; rfl
  | finishedResult v hu hr => obtain rfl | ⟨a, rfl⟩ := hi <;> simp at hr
  | verified c r p hu hv => obtain rfl | ⟨a, rfl⟩ := hi <;> simp at hv

/-- TXS and the accumulators are what the work of the step left, however the step ended. -/
theorem OpStep.worked (h : OpStep i s t) :
    ∃ u, Worked i s u ∧ t.txs = u.txs ∧ t.accCmd = u.accCmd ∧ t.accCrc = u.accCrc := by
  cases h with
  | raised => exact ⟨s, worked_refl i s, rfl, rfl, rfl⟩
  | goesOn hu | finished hu | finishedResult v hu | verified c r p hu => exact ⟨_, hu, rfl, rfl, rfl⟩

/-- A step of an operation emits at most one byte, and only where the operation emits. -/
theorem OpStep.txs_cases (h : OpStep i s t) : t.txs = s.txs ∨ Emits i ∧ ∃ b, t.txs = s.txs ++ [b] := by
  obtain ⟨u, hu, htxs, -, -⟩ := h.worked
  rw [htxs]
  cases hu
  assumption

theorem OpStep.accCmd_cases (h : OpStep i s t) : t.accCmd = s.accCmd ∨ i = .cksCmd ∨ i = .encCmd ∨ i = .verCmd := by
  obtain ⟨u, hu, -, hcmd, -⟩ := h.worked
  rw [hcmd]
  cases hu
  assumption

theorem OpStep.accCrc_cases (h : OpStep i s t) : t.accCrc = s.accCrc ∨ i = .cksCrc ∨ i = .encChunk ∨ i = .verCrc := by
  obtain ⟨u, hu, -, -, hcrc⟩ := h.worked
  rw [hcrc]
  cases hu
  assumption

/-- A step that fails other than by CK_MISMATCH writes no result register and emits nothing (60_exceptions.md R211). -/
theorem OpStep.failed_kept (h : OpStep i s t) (h0 : s.status.err = 0) (ht : t.status.err ≠ 0)
    (h7 : t.status.err ≠ 7) :
    t.result = s.result ∧ t.recv = s.recv ∧ t.plen = s.plen ∧ t.signal = s.signal ∧ t.txs = s.txs := by
  cases h with
  | raised => exact ⟨rfl, rfl, rfl, rfl, rfl⟩
  | goesOn hu | finished hu | finishedResult v hu => cases hu; exact absurd h0 ht
  | verified c r p hu =>
    cases hu
    have herr : (s.status.compared c r).err = 0 ∨ (s.status.compared c r).err = 7 := by
      rw [Status.compared_err]
      split
      · exact .inl h0
      · exact .inr rfl
    exact absurd herr (by tauto)

/-! ## RX_FRAME -/

/-- A byte taken leaves the streams alone, and RX_FRAME computes no CRC. -/
theorem rxTake_streams_accCrc_kept (b : Byte) (s : State) :
    (rxTake b s).txs = s.txs ∧ (rxTake b s).rxq = s.rxq ∧ (rxTake b s).accCrc = s.accCrc := by
  obtain ⟨-, -, e⟩ | ⟨-, -, e⟩ | ⟨-, -, -, -, e⟩ | ⟨-, -, -, e⟩ | ⟨-, -, -, e⟩ | ⟨-, -, -, e⟩ := rxTake_cases b s <;>
    rw [e] <;> exact ⟨rfl, rfl, rfl⟩

/-- A byte that completes no frame writes nothing a verdict writes (42_decode.md R177). -/
theorem rxTake_verdict_kept {b : Byte} (hk : (rxTake b s).status.kind ≠ 2) :
    (rxTake b s).result = s.result ∧ (rxTake b s).recv = s.recv ∧ (rxTake b s).plen = s.plen ∧
    (rxTake b s).status.ckValid = s.status.ckValid ∧ (rxTake b s).status.ckOk = s.status.ckOk ∧
    (rxTake b s).accCmd = s.accCmd := by
  obtain ⟨-, -, e⟩ | ⟨-, -, e⟩ | ⟨-, -, -, -, e⟩ | ⟨-, -, -, e⟩ | ⟨-, -, -, e⟩ | ⟨-, -, -, e⟩ := rxTake_cases b s
  case inr.inr.inr.inl => rw [e] at hk; exact absurd (by simp [verifyRx, kindFrame]) hk
  all_goals rw [e]; exact ⟨rfl, rfl, rfl, rfl, rfl, rfl⟩

/-- A byte that fails the operation, other than by CK_MISMATCH, fills RX_BUF (42_decode.md R175): it writes no result
register. -/
theorem rxTake_failed_kept {b : Byte} (h0 : s.status.err = 0) (ht : (rxTake b s).status.err ≠ 0)
    (h7 : (rxTake b s).status.err ≠ 7) :
    (rxTake b s).result = s.result ∧ (rxTake b s).recv = s.recv ∧ (rxTake b s).plen = s.plen ∧
    (rxTake b s).signal = s.signal ∧ (rxTake b s).txs = s.txs := by
  obtain ⟨-, -, e⟩ | ⟨-, -, e⟩ | ⟨-, -, -, -, e⟩ | ⟨-, -, -, e⟩ | ⟨-, -, -, e⟩ | ⟨-, -, -, e⟩ := rxTake_cases b s
  case inl => rw [e] at ht; exact absurd h0 ht
  case inr.inr.inr.inl =>
    rw [e] at ht h7
    simp only [verifyRx, State.verdict_status, Status.finish_err, Status.compared_err, Status.withKind_err] at ht h7
    split at ht
    · exact absurd h0 ht
    · simp_all [ErrCode.bits]
  all_goals rw [e]; exact ⟨rfl, rfl, rfl, rfl, rfl⟩

/-- A step of RX_FRAME waits for a byte or takes the oldest (42_decode.md R171, R176). -/
theorem execRxFrame_next (h : execRxFrame s = .next t) :
    (s.rxq = [] ∧ t = s) ∨ ∃ b rest, s.rxq = b :: rest ∧ t = rxTake b { s with rxq := rest } := by
  rw [execRxFrame_eq] at h
  cases h
  cases hq : s.rxq with
  | nil => exact .inl ⟨rfl, rfl⟩
  | cons b rest => exact .inr ⟨b, rest, rfl, rfl⟩

/-- Settles O54: the clauses of R42, for RX_FRAME by what one byte taken does, for the others by the shape of a step. -/
theorem operationsWriteOnlyTheirItems : Obligations.OperationsWriteOnlyTheirItems := by
  intro s t i h ⟨w, hw⟩
  by_cases hr : i = .rxFrame
  · subst hr
    obtain ⟨-, rfl⟩ | ⟨b, rest, -, rfl⟩ := execRxFrame_next h
    · simp
    · obtain ⟨htxs, -, hcrc⟩ := rxTake_streams_accCrc_kept b { s with rxq := rest }
      exact ⟨rxTake_untouched b _, absurd rfl, absurd rfl, nofun, fun _ _ _ _ => htxs, fun _ => rxTake_verdict_kept,
        fun _ _ _ => absurd rfl, fun _ _ _ => hcrc,
        rxTake_failed_kept (s := { s with rxq := rest })⟩
  · have hs := exec_opStep hw hr h
    refine ⟨hs.untouched, fun _ => hs.reader_kept, fun _ => hs.verdict_kept, hs.result_kept, fun h1 h2 h3 h4 => ?_,
      fun h => absurd h hr, fun h1 h2 h3 _ => hs.accCmd_cases.resolve_right (by tauto),
      fun h1 h2 h3 => hs.accCrc_cases.resolve_right (by tauto), hs.failed_kept⟩
    obtain htxs | ⟨rfl | rfl | rfl | ⟨a, rfl⟩, -⟩ := hs.txs_cases
    · exact htxs
    · exact absurd rfl h1
    · exact absurd rfl h2
    · exact absurd rfl h3
    · exact absurd rfl (h4 a)

end Sys2Proof.Machine
end

section
/-! SUPPORT. Every step keeps the machine's invariant (Safety.lean): the HOST's writes, the Frame Reader and the other
operations one after the other, then a turn of each agent. -/

namespace Sys2Proof.Machine

variable {s t : State} {i : Instr}

/-! ## What an idle block does -/

theorem State.Inv.rest (h : s.Inv) (hb : s.status.busy = false) : s.opcur = none ∧ s.idx = 0 ∧ s.phase = .start := by
  simpa [FlightOk, hb] using h.flight

/-- With BUSY = 0 the invariant says nothing of an operation in flight. -/
theorem State.Inv.of_idle (hb : t.status.busy = false) (hc : t.cfg.wf) (hst : StatusOk t.status)
    (ho : t.opcur = none ∧ t.idx = 0 ∧ t.phase = .start) (hi : InBufOk t) (hr : StoredOk t) (hs : SignalOk t) :
    t.Inv := by
  obtain ⟨hbuf, hlen, hfirst⟩ := hr
  have hf := State.inFlight_of_idle hb
  refine ⟨hc, hst, ?_, ?_, hi, ⟨hbuf, hlen, hfirst, ?_⟩, hs⟩
  · simpa [FlightOk, hb] using ho
  · simp only [ProgressOk, hf]
  · simp [hf]

/-- The HOST's writes to OFFSET, IN_LEN and IN with BUSY = 0. -/
theorem State.Inv.inputs (h : s.Inv) (hb : s.status.busy = false) (offset : Word) (inLen : Half) {inBuf : Memory}
    (hi : InBufOk { s with inBuf := inBuf }) : State.Inv { s with offset := offset, inLen := inLen, inBuf := inBuf } :=
  .of_idle hb h.cfg h.status (h.rest hb) hi h.stored h.signal

/-- A write below IN_MAX keeps IN canonical and within its bound. -/
theorem InBufOk.write (h : InBufOk s) {i : Nat} (hi : i < s.cfg.inMax) (b : Byte) :
    InBufOk { s with inBuf := Memory.write s.inBuf i b } := by
  obtain ⟨hwf, hlt⟩ := h
  refine ⟨Memory.write_wf hwf i b, fun c hc => ?_⟩
  obtain rfl | hc := Memory.mem_write hc
  · exact hi
  · exact hlt c hc

theorem State.Inv.assertReset (h : s.Inv) : s.assertReset.Inv :=
  .of_idle rfl h.cfg (by decide : StatusOk Status.zero) ⟨rfl, rfl, rfl⟩ ⟨.nil, nofun⟩ ⟨rfl, Nat.zero_le _, nofun⟩
    (.inl rfl)

/-! ## Accepting an operation word (60_exceptions.md R210) -/

theorem statusOk_started (st : Status) : StatusOk st.cleared.started := by simp [StatusOk, ErrCode.bits]

theorem statusOk_illegal (st : Status) : StatusOk (st.cleared.withErr .illegal).finish := by
  simp [StatusOk, ErrCode.bits]

/-- An operation before its first line is at a place of its rule. -/
theorem progressOf_fresh {w : Word} (hw : encode i = .word w) (hs : s.fresh) : ProgressOf i s := by
  obtain ⟨hp, hz⟩ := hs
  have fits : phaseFits i .start = true := by
    cases i with
    | wireM | wireL | wireO | wireW | wireC | wireS | wireSigNak | wireSigAck => cases hw
    | _ => rfl
  simp [ProgressOf, hp, hz, fits]

/-- A legal word is in flight from the invariant's buffers; for RX_FRAME, from a fresh reader (42_decode.md R170). -/
theorem State.Inv.launch (hd : decodeWord s.opword = .ok i) {st : Status} (hst : s.status = st.cleared) (hc : s.cfg.wf)
    (hi : InBufOk s) (hr : StoredOk s) (hfresh : i = .rxFrame → s.rxFresh) (hs : SignalOk s) :
    (s.launch (opField s.opword)).Inv := by
  obtain ⟨hbuf, hlen, hfirst⟩ := hr
  have hf : (s.launch (opField s.opword)).inFlight = some i := State.inFlight_of_decode rfl rfl hd
  obtain ⟨w, hw⟩ := encode_word_of_inFlight hf
  refine ⟨hc, ?_, ?_, ?_, hi, ⟨hbuf, hlen, hfirst, fun hrx => ?_⟩, hs⟩
  · rw [State.launch_status, hst]
    exact statusOk_started st
  · simp [FlightOk, hd, Except.isOk, Except.toBool]
  · simpa only [ProgressOk, hf] using progressOf_fresh hw ⟨rfl, rfl⟩
  · obtain ⟨hinf, hzero, -⟩ := hfresh (by simpa [hf] using hrx)
    simp [hinf, hzero]

theorem State.Inv.startOp (h : s.Inv) (w : Word) : (s.startOp w).Inv := by
  unfold State.startOp
  dsimp only
  split
  · exact .of_idle rfl h.cfg (statusOk_illegal s.status) ⟨rfl, rfl, rfl⟩ h.inBuf h.stored h.signal
  · next hd => exact .launch hd rfl h.cfg h.inBuf ⟨rfl, Nat.zero_le _, nofun⟩ (fun _ => ⟨rfl, rfl, rfl⟩) h.signal
  · next i hr hd => exact .launch hd rfl h.cfg h.inBuf h.stored (fun hi => absurd hi (by tauto)) h.signal

theorem State.Inv.hostStep (h : s.Inv) (ht : HostStep s t) : t.Inv := by
  cases ht with
  | hostOnly ht => exact h.hostOnly ht
  | startOp hb w => exact h.startOp w
  | offset hb v => exact h.inputs hb v s.inLen h.inBuf
  | inLen hb n => exact h.inputs hb s.offset n h.inBuf
  | inByte hb hi b => exact h.inputs hb s.offset s.inLen (h.inBuf.write hi b)

/-! ## The Frame Reader (42_decode.md R170 to R179) -/

/-- The reader is inside a frame, with other bytes stored. -/
theorem State.Inv.reads (h : s.Inv) {buf : Memory} {len : Half}
    (hr : StoredOk { s with rxBuf := buf, rxLen := len }) (hroom : 1 ≤ len.toNat ∧ len.toNat < s.cfg.rxMax) :
    State.Inv { s with rxBuf := buf, rxLen := len, rxInf := true } := by
  obtain ⟨hbuf, hlen, hfirst⟩ := hr
  exact ⟨h.cfg, h.status, h.flight, h.progress, h.inBuf, ⟨hbuf, hlen, hfirst, fun _ => ⟨fun _ => hroom, nofun⟩⟩,
    h.signal⟩

/-- One more byte is stored, inside a frame, where there is room for it. -/
theorem State.Inv.stored_rxAppend (h : s.Inv) (hf : s.inFlight = some .rxFrame) (hinf : s.rxInf = true) (b : Byte) :
    StoredOk (rxAppend b s) ∧ (rxAppend b s).rxLen.toNat = s.rxLen.toNat + 1 := by
  obtain ⟨hbuf, -, hfirst, hroom⟩ := h.reader
  obtain ⟨hpos, hlt⟩ := (hroom hf).1 hinf
  obtain ⟨-, -, hmax⟩ := h.cfg
  have hsucc : (s.rxLen + 1).toNat = s.rxLen.toNat + 1 := by
    rw [BitVec.toNat_add, show (1 : Half).toNat = 1 from rfl]
    omega
  have hbelow : ∀ c ∈ s.rxBuf, c.1 < s.rxLen.toNat := fun c hc =>
    List.mem_range.1 (hbuf ▸ List.mem_map_of_mem hc)
  refine ⟨⟨?_, ?_, fun _ => ?_⟩, hsucc⟩
  · simp only [rxAppend, hsucc, Memory.write_append _ _ _ hbelow, List.map_append, hbuf, List.range_succ]
    rfl
  · show (s.rxLen + 1).toNat ≤ s.cfg.rxMax
    omega
  · show Memory.read (Memory.write s.rxBuf s.rxLen.toNat b) 0 = some 0x02
    rw [Memory.read_write_other _ _ (by omega), hfirst hpos]

theorem statusOk_signal {st : Status} (h : StatusOk st) : StatusOk (st.withKind kindSignal).finish := by
  obtain ⟨-, -, herr, hok, hmis, -⟩ := h
  exact ⟨by simp, by simp [kindSignal], herr, hok, hmis, by simp⟩

theorem inv_rxTake (h : s.Inv) (hf : s.inFlight = some .rxFrame) (b : Byte) : (rxTake b s).Inv := by
  have busy := State.busy_of_inFlight hf
  obtain ⟨-, hmin, -⟩ := h.cfg
  obtain ⟨-, hb, e⟩ | ⟨hinf, -, e⟩ | ⟨-, -, -, -, e⟩ | ⟨hinf, -, -, e⟩ | ⟨hinf, -, -, e⟩ | ⟨hinf, -, hne, e⟩ :=
    rxTake_cases b s <;> rw [e]
  · exact h.ended rfl (statusOk_signal h.status) rfl ⟨rfl, rfl, rfl⟩ rfl h.stored (.inr (hb.symm.imp id id))
  · obtain ⟨hbuf, -, -, hroom⟩ := h.reader
    have hempty : s.rxLen = 0 := (hroom hf).2 hinf
    rw [hempty] at hbuf
    rw [List.map_eq_nil_iff.1 hbuf]
    exact h.reads ⟨rfl, (by omega : 1 ≤ s.cfg.rxMax), fun _ => rfl⟩ ⟨le_refl 1, (by omega : 1 < s.cfg.rxMax)⟩
  · exact h
  · obtain ⟨stored, -⟩ := h.stored_rxAppend hf hinf b
    exact h.ended rfl (statusOk_compared h.status busy _ _ (by decide)) rfl ⟨rfl, rfl, rfl⟩ rfl stored h.signal
  · obtain ⟨stored, -⟩ := h.stored_rxAppend hf hinf b
    exact h.ended rfl (statusOk_raise h.status busy nofun) rfl ⟨rfl, rfl, rfl⟩ rfl stored h.signal
  · obtain ⟨stored, hlen⟩ := h.stored_rxAppend hf hinf b
    have hmax : (rxAppend b s).rxLen.toNat ≤ s.cfg.rxMax := stored.2.1
    have hin : rxAppend b s = { rxAppend b s with rxInf := true } := by rw [← hinf]; rfl
    rw [hin]
    exact h.reads stored ⟨by omega, by omega⟩

/-- `rx_timeout` (60_exceptions.md R215). -/
theorem State.Inv.timeout (h : s.Inv) : s.timeout.Inv := by
  unfold State.timeout
  split
  · next hf => exact h.raise (State.busy_of_inFlight hf) nofun
  · exact h

/-! ## The ENGINE -/

theorem State.Inv.progressOf (h : s.Inv) (hf : s.inFlight = some i) : ProgressOf i s := by
  simpa only [ProgressOk, hf] using h.progress

/-- A step of an operation other than RX_FRAME: it has ended the operation, or left it at a place of its rule. -/
theorem State.Inv.opStep (h : s.Inv) (hf : s.inFlight = some i) (ht : OpStep i s t) (hp : Ended t ∨ ProgressOf i t) :
    t.Inv := by
  have busy := State.busy_of_inFlight hf
  cases ht with
  | raised he => exact h.raise busy he
  | goesOn hu =>
    cases hu
    obtain ⟨-, hidle⟩ | hp := hp
    · exact absurd (busy.symm.trans hidle) (by simp)
    · exact h.goesOn hf rfl rfl rfl rfl rfl ⟨rfl, rfl, rfl⟩ rfl hp
  | finished hu | finishedResult v hu =>
    cases hu
    exact h.ended rfl (statusOk_finish h.status) rfl ⟨rfl, rfl, rfl⟩ rfl h.stored h.signal
  | verified c r p hu =>
    cases hu
    obtain ⟨-, hkind, -⟩ := h.status
    exact h.ended rfl (statusOk_compared h.status busy c r (k := s.status.kind) hkind) rfl ⟨rfl, rfl, rfl⟩ rfl h.stored
      h.signal

theorem inv_of_exec (h : s.Inv) (hf : s.inFlight = some i) (ht : exec i s = .next t) : t.Inv := by
  by_cases hr : i = .rxFrame
  · subst hr
    obtain ⟨-, rfl⟩ | ⟨b, rest, -, rfl⟩ := execRxFrame_next ht
    · exact h
    · have hu : State.Inv { s with rxq := rest } :=
        h.untouched ⟨s.status.herr, rfl⟩ rfl ⟨rfl, rfl, rfl⟩ rfl ⟨rfl, rfl⟩ ⟨rfl, rfl, rfl⟩ rfl
      exact inv_rxTake hu hf b
  · obtain ⟨w, hw⟩ := encode_word_of_inFlight hf
    exact h.opStep hf (exec_opStep hw hr ht) ((exec_advances (h.progressOf hf) hr ht).imp_right Advances.progress)

/-! ## A step of the machine -/

theorem State.Inv.setAgenda (h : s.Inv) (turns : List Turn) : (s.setAgenda turns).Inv :=
  h.untouched ⟨s.status.herr, rfl⟩ rfl ⟨rfl, rfl, rfl⟩ rfl ⟨rfl, rfl⟩ ⟨rfl, rfl, rfl⟩ rfl

theorem State.Inv.setProg (h : s.Inv) (lines : List HostLine) : (s.setProg lines).Inv :=
  h.untouched ⟨s.status.herr, rfl⟩ rfl ⟨rfl, rfl, rfl⟩ rfl ⟨rfl, rfl⟩ ⟨rfl, rfl, rfl⟩ rfl

theorem State.Inv.arrive (h : s.Inv) (b : Byte) : (s.arrive b).Inv :=
  h.untouched ⟨s.status.herr, rfl⟩ rfl ⟨rfl, rfl, rfl⟩ rfl ⟨rfl, rfl⟩ ⟨rfl, rfl, rfl⟩ rfl

theorem inv_of_takeTurn (h : s.Inv) {turn : Turn} (ht : takeTurn turn s = .next t) : t.Inv := by
  cases turn with
  | engine =>
    cases hf : s.inFlight with
    | none => cases (engineTurn_of_none hf).symm.trans ht; exact h
    | some i => exact inv_of_exec h hf ((engineTurn_of_inFlight hf).symm.trans ht)
  | host =>
    obtain ⟨u, hu, hstep⟩ := hostTurn_hostStep s
    cases hu.symm.trans ht
    exact (h.setProg _).hostStep hstep
  | channel b => cases ht; exact h.arrive b
  | timer => cases ht; exact h.timeout
  | reset => cases ht; exact h.assertReset

/-- Settles O59, by the agent whose turn the step is. -/
theorem everyStepKeepsTheMachineInvariant : Obligations.EveryStepKeepsTheMachineInvariant := by
  intro s t h ht
  obtain ⟨turn, hstep, -⟩ := step_takes_turn s
  exact inv_of_takeTurn (h.setAgenda _) (hstep.symm.trans ht)

end Sys2Proof.Machine
end

section
/-! SUPPORT. Where the machine stops, and what a step does to the streams of the CHANNEL. -/

namespace Sys2Proof.Machine

variable {s t : State} {i : Instr}

/-! ## Stops -/

/-- A turn from the invariant stops the machine only at an unwritten IN byte below IN_LEN that the operation in flight
reads (10_state.md R32). -/
theorem takeTurn_stops (h : s.Inv) {turn : Turn} (hn : ∀ t, takeTurn turn s ≠ .next t) :
    ∃ e, takeTurn turn s = .fault (.unwrittenIn e) ∧ e < s.len ∧ s.readIn e = none ∧
      ∃ op, s.inFlight = some op ∧ op ≠ .rxFrame ∧ ∀ a, op ≠ .sigTx a := by
  by_cases ht : turn = .engine
  · subst ht
    cases hf : s.inFlight with
    | none => exact absurd (engineTurn_of_none hf) (hn s)
    | some op =>
      have hturn : takeTurn .engine s = exec op s := engineTurn_of_inFlight hf
      obtain ⟨-, -, -, -, -, raw, -⟩ := h.progressOf hf
      cases hx : exec op s with
      | next t => exact absurd (hturn.trans hx) (hn t)
      | refused r => exact absurd hx (exec_not_refused op s r)
      | fault f =>
        obtain ⟨e, rfl, hnone, hwhere, hop⟩ := exec_fault hx
        refine ⟨e, hturn.trans hx, ?_, hnone, op, rfl, ?_, ?_⟩
        · obtain he | ⟨hi, hp, rfl⟩ := hwhere
          · exact he
          · exact raw hi hp
        · rintro rfl; simp at hop
        · rintro a rfl; simp at hop
  · obtain ⟨t, ht⟩ := takeTurn_next_of_ne_engine ht s
    exact absurd ht (hn t)

/-- Settles O57: only the ENGINE's turn can stop the machine, and over prepared IN it does not. -/
theorem onlyUnwrittenInputStopsTheMachine : Obligations.OnlyUnwrittenInputStopsTheMachine := by
  intro s h
  obtain ⟨turn, hstep, -⟩ := step_takes_turn s
  have stops := takeTurn_stops (h.setAgenda s.agenda.tail) (turn := turn)
  rw [← hstep] at stops
  refine ⟨fun r hr => ?_, fun f hf => ?_, fun ⟨bytes, hbytes⟩ => ?_⟩
  · obtain ⟨e, he, -⟩ := stops (by simp [hr])
    cases hr.symm.trans he
  · obtain ⟨e, he, hrest⟩ := stops (by simp [hf])
    cases hf.symm.trans he
    exact ⟨e, rfl, hrest⟩
  · by_contra hn
    obtain ⟨e, -, hlt, hnone, -⟩ := stops (not_exists.1 hn)
    have hread : s.readIn e = bytes[e]? := State.readIn_of_loaded hbytes hlt
    have hlen := Memory.span_length hbytes
    have hnone : bytes[e]? = none := hread.symm.trans hnone
    rw [List.getElem?_eq_none_iff] at hnone
    exact absurd hlt (by show ¬ e < s.len; omega)

/-! ## The streams of the CHANNEL -/

/-- A HOST turn leaves both streams alone. -/
theorem HostStep.streams_kept (h : HostStep s t) : t.txs = s.txs ∧ t.rxq = s.rxq := by
  cases h with
  | hostOnly h => obtain ⟨a, b, c, d, rfl⟩ := h; exact ⟨rfl, rfl⟩
  | startOp hb w =>
    unfold State.startOp
    dsimp only
    split <;> exact ⟨rfl, rfl⟩
  | offset | inLen | inByte => exact ⟨rfl, rfl⟩

/-- An ENGINE step appends at most one byte to TXS and takes at most the oldest byte of RXQ, for RX_FRAME. -/
theorem exec_streams {w : Word} (hw : encode i = .word w) (h : exec i s = .next t) :
    (∃ l : List Byte, l.length ≤ 1 ∧ t.txs = s.txs ++ l) ∧
    (t.rxq = s.rxq ∨ i = .rxFrame ∧ ∃ b, s.rxq = b :: t.rxq) := by
  by_cases hr : i = .rxFrame
  · subst hr
    obtain ⟨-, rfl⟩ | ⟨b, rest, hq, rfl⟩ := execRxFrame_next h
    · exact ⟨⟨[], by simp⟩, .inl rfl⟩
    · obtain ⟨htxs, hrxq, -⟩ := rxTake_streams_accCrc_kept b { s with rxq := rest }
      exact ⟨⟨[], by simp, by simpa using htxs⟩, .inr ⟨rfl, b, by rw [hrxq]; exact hq⟩⟩
  · have hs := exec_opStep hw hr h
    obtain ⟨-, -, -, -, hq, -⟩ := hs.reader_kept
    refine ⟨?_, .inl hq⟩
    obtain htxs | ⟨-, b, htxs⟩ := hs.txs_cases
    · exact ⟨[], by simp [htxs]⟩
    · exact ⟨[b], by simp [htxs]⟩

theorem timeout_streams_kept (s : State) : s.timeout.txs = s.txs ∧ s.timeout.rxq = s.rxq := by
  unfold State.timeout
  split <;> exact ⟨rfl, rfl⟩

/-- What a turn does to the streams: the CHANNEL's appends its byte to RXQ (10_state.md R39). -/
theorem takeTurn_streams {turn : Turn} (h : takeTurn turn s = .next t) :
    (∃ l : List Byte, l.length ≤ 1 ∧ t.txs = s.txs ++ l) ∧
    (t.rxq = s.rxq ∨ (∃ b, turn = .channel b ∧ t.rxq = s.rxq ++ [b]) ∨
      (s.inFlight = some .rxFrame ∧ ∃ b, s.rxq = b :: t.rxq)) := by
  have kept : ∀ {u : State}, u.txs = s.txs → ∃ l : List Byte, l.length ≤ 1 ∧ u.txs = s.txs ++ l :=
    fun hu => ⟨[], by simp [hu]⟩
  cases turn with
  | engine =>
    cases hf : s.inFlight with
    | none =>
      cases (engineTurn_of_none hf).symm.trans h
      exact ⟨kept rfl, .inl rfl⟩
    | some i =>
      obtain ⟨w, hw⟩ := encode_word_of_inFlight hf
      obtain ⟨htxs, hrxq⟩ := exec_streams hw ((engineTurn_of_inFlight hf).symm.trans h)
      exact ⟨htxs, hrxq.imp_right fun ⟨hi, hb⟩ => .inr ⟨congrArg some hi, hb⟩⟩
  | host =>
    obtain ⟨u, hu, hs⟩ := hostTurn_hostStep s
    cases hu.symm.trans h
    obtain ⟨htxs, hrxq⟩ := hs.streams_kept
    exact ⟨kept htxs, .inl hrxq⟩
  | channel b =>
    cases h
    exact ⟨kept rfl, .inr (.inl ⟨b, rfl, rfl⟩)⟩
  | timer =>
    cases h
    obtain ⟨htxs, hrxq⟩ := timeout_streams_kept s
    exact ⟨kept htxs, .inl hrxq⟩
  | reset =>
    cases h
    exact ⟨kept rfl, .inl rfl⟩

/-- Settles O56, by the agent whose turn the step is: the CHANNEL moves only where the agenda names it (log 3). -/
theorem channelStreamsAreFifos : Obligations.ChannelStreamsAreFifos := by
  intro s t h
  obtain ⟨turn, hstep, hturn⟩ := step_takes_turn s
  obtain ⟨htxs, hrxq⟩ := takeTurn_streams (hstep.symm.trans h)
  refine ⟨htxs, hrxq.imp_right (Or.imp_left fun ⟨b, hb, hq⟩ => ⟨b, ?_, hq⟩)⟩
  subst hb
  exact hturn.resolve_right (by simp)

/-- Settles O10: the turn is taken off the agenda, and the rest is `State.arrive`. -/
theorem channelAppendsAtAnyStep : Obligations.ChannelAppendsAtAnyStep := by
  intro s b rest ha
  rw [step_of_agenda ha]
  rfl

end Sys2Proof.Machine
end

section
/-! SUPPORT. Operations over IN with an unwritten byte (10_state.md R32): the loops over IN stop at it, and a
verification stops at the first one its tests or its checksum read (log 12). -/

namespace Sys2Proof.Machine

variable {s : State} {i : Instr} {e : Nat}

/-! ## The loops over IN -/

/-- An operation that comes to its loop over IN at once stops at the first unwritten byte. A pass of the loop may rely
on a byte of IN after its own, as ENC_RAW's does. -/
theorem loop_faults {f : Byte → State → State} (keeps : PassKeeps f)
    (pass : ∀ u b, u.phase = .body → u.idx.toNat + 1 < u.len → u.readIn u.idx.toNat = some b → exec i u = .next (f b u))
    (stop : ∀ u, u.phase = .body → u.idx.toNat < u.len → u.readIn u.idx.toNat = none →
      exec i u = .fault (.unwrittenIn u.idx.toNat))
    {u : State} (start : exec i s = .next u)
    (hu : u.phase = .body ∧ u.idx = 0 ∧ u.inLen = s.inLen ∧ u.inBuf = s.inBuf) (he : s.spanIn 0 s.len = .error e)
    {k : Nat} (hk : s.len ≤ k) : execTimes (k + 1) i s = .fault (.unwrittenIn e) := by
  obtain ⟨hp, hz, hlen, hbuf⟩ := hu
  obtain ⟨-, hlt, hnone⟩ := Memory.span_error he
  have hidx : u.idx.toNat = 0 := by rw [hz]; rfl
  have below : ∀ v : State, v.inLen = s.inLen → v.idx.toNat < e + 1 → v.idx.toNat < v.len := by
    intro v hv hi
    unfold State.len at hlt ⊢
    rw [hv]
    omega
  rw [execTimes_succ start, show k = (e + 1) + (k - (e + 1)) by omega]
  refine byte_loop_fault (n := e + 1) (by unfold State.len at hlt; omega) keeps ?_ ?_ _ _ u e hp hlen hbuf (by omega) ?_
  · intro v b hvp hvl hvb hi hr
    have hne : v.idx.toNat ≠ e := by
      intro h
      rw [State.readIn, hvb, h, hnone] at hr
      cases hr
    refine pass v b hvp ?_ hr
    unfold State.len at hlt ⊢
    rw [hvl]
    omega
  · intro v hvp hvl hvb hi hr
    exact stop v hvp (below v hvl hi) hr
  · rw [hidx, State.spanIn, hbuf]
    exact Memory.span_stops (Nat.zero_le e) (by omega) (fun j => Memory.span_error_before he) hnone

theorem cksCmd_stop (hp : s.phase = .body) (hi : s.idx.toNat < s.len) (hr : s.readIn s.idx.toNat = none) :
    exec .cksCmd s = .fault (.unwrittenIn s.idx.toNat) := by
  simp only [exec, execCksCmd, hp, State.more_of_lt hi, if_true, hr]

theorem cksCrc_stop (hp : s.phase = .body) (hi : s.idx.toNat < s.len) (hr : s.readIn s.idx.toNat = none) :
    exec .cksCrc s = .fault (.unwrittenIn s.idx.toNat) := by
  simp only [exec, execCksCrc, hp, State.more_of_lt hi, if_true, hr]

theorem encCmd_stop (hp : s.phase = .body) (hi : s.idx.toNat < s.len) (hr : s.readIn s.idx.toNat = none) :
    exec .encCmd s = .fault (.unwrittenIn s.idx.toNat) := by
  simp only [exec, execEncCmd, hp, State.more_of_lt hi, if_true, hr]

theorem encRaw_stop (hp : s.phase = .body) (hr : s.readIn s.idx.toNat = none) :
    exec .encRaw s = .fault (.unwrittenIn s.idx.toNat) := by
  simp only [exec, execEncRaw, hp, hr]

section

variable (hf : s.fresh) (hl : s.len ≤ s.cfg.inMax) (he : s.spanIn 0 s.len = .error e)

include hf hl he

theorem cksCmd_faults : execTimes (s.len + 2) .cksCmd s = .fault (.unwrittenIn e) :=
  loop_faults cksCmdPass_keeps (fun _ _ hp hi hr => cksCmd_pass hp (by omega) hr) (fun _ => cksCmd_stop)
    (cksCmd_start hf.1 hl) ⟨rfl, hf.2, rfl, rfl⟩ he (Nat.le_add_right s.len 1)

theorem cksCrc_faults : execTimes (s.len + 2) .cksCrc s = .fault (.unwrittenIn e) :=
  loop_faults cksCrcPass_keeps (fun _ _ hp hi hr => cksCrc_pass hp (by omega) hr) (fun _ => cksCrc_stop)
    (cksCrc_start hf.1 hl) ⟨rfl, hf.2, rfl, rfl⟩ he (Nat.le_add_right s.len 1)

theorem encCmd_faults : execTimes (s.len + 4) .encCmd s = .fault (.unwrittenIn e) :=
  loop_faults encCmdPass_keeps (fun _ _ hp hi hr => encCmd_pass hp (by omega) hr) (fun _ => encCmd_stop)
    (encCmd_start hf.1 hl) ⟨rfl, hf.2, rfl, rfl⟩ he (Nat.le_add_right s.len 3)

theorem encRaw_faults : execTimes (s.len + 1) .encRaw s = .fault (.unwrittenIn e) := by
  obtain ⟨-, hlt, -⟩ := Memory.span_error he
  exact loop_faults encRawPass_keeps (fun _ _ => encRaw_pass) (fun _ hp _ => encRaw_stop hp)
    (encRaw_start hf.1 hl (by omega)) ⟨rfl, hf.2, rfl, rfl⟩ he (le_refl s.len)

/-- ENC_CHUNK reads its whole data in its first step (log 13). -/
theorem encChunk_faults (hm : s.len ≤ Config.chunkMax) : exec .encChunk s = .fault (.unwrittenIn e) := by
  obtain ⟨-, hlt, -⟩ := Memory.span_error he
  have hlen : ¬(s.len = 0 ∨ Config.chunkMax < s.len) := by omega
  simp only [exec, execEncChunk, hf.1, State.not_tooLong hl, Bool.false_eq_true, if_false, hlen, he]

end

/-! ## The verifications -/

/-! A verification's tests in their order (42_decode.md R180, R181), each with the earlier ones passed. -/

section

variable (hl : s.len ≤ s.cfg.inMax)

include hl

theorem verCmd_short (h4 : s.len < 4) : exec .verCmd s = .next (s.raise .badFrame) := by
  simp only [exec, execVerCmd, State.not_tooLong hl, Bool.false_eq_true, if_false, h4, if_true]

theorem verCmd_first_unwritten (h4 : 4 ≤ s.len) (h0 : s.readIn 0 = none) :
    exec .verCmd s = .fault (.unwrittenIn 0) := by
  simp only [exec, execVerCmd, State.not_tooLong hl, Bool.false_eq_true, if_false, Nat.not_lt.2 h4, h0]

theorem verCmd_first_bad (h4 : 4 ≤ s.len) {b : Byte} (h0 : s.readIn 0 = some b) (hb : b ≠ 0x02) :
    exec .verCmd s = .next (s.raise .badFrame) := by
  simp only [exec, execVerCmd, State.not_tooLong hl, Bool.false_eq_true, if_false, Nat.not_lt.2 h4, h0, hb, ne_eq,
    not_false_eq_true, if_true]

theorem verCmd_marker_unwritten (h4 : 4 ≤ s.len) (h0 : s.readIn 0 = some 0x02) (h3 : s.readIn (s.len - 3) = none) :
    exec .verCmd s = .fault (.unwrittenIn (s.len - 3)) := by
  simp only [exec, execVerCmd, State.not_tooLong hl, Bool.false_eq_true, if_false, Nat.not_lt.2 h4, h0, h3, ne_eq,
    not_true_eq_false]

theorem verCmd_marker_bad (h4 : 4 ≤ s.len) (h0 : s.readIn 0 = some 0x02) {b : Byte}
    (h3 : s.readIn (s.len - 3) = some b) (hb : b ≠ 0x03) : exec .verCmd s = .next (s.raise .badFrame) := by
  simp only [exec, execVerCmd, State.not_tooLong hl, Bool.false_eq_true, if_false, Nat.not_lt.2 h4, h0, h3, hb, ne_eq,
    not_true_eq_false, not_false_eq_true, if_true]

theorem verCmd_faults (h4 : 4 ≤ s.len) (h0 : s.readIn 0 = some 0x02) (h3 : s.readIn (s.len - 3) = some 0x03)
    (he : s.spanIn 0 s.len = .error e) : exec .verCmd s = .fault (.unwrittenIn e) := by
  simp only [exec, execVerCmd, State.not_tooLong hl, Bool.false_eq_true, if_false, Nat.not_lt.2 h4, h0, h3, ne_eq,
    not_true_eq_false]
  exact verifyIn_fault he (by simp [h0]) (by omega)

theorem verCrc_short (h3 : s.len < 3) : exec .verCrc s = .next (s.raise .badFrame) := by
  simp only [exec, execVerCrc, State.not_tooLong hl, Bool.false_eq_true, if_false, h3, if_true]

theorem verCrc_first_unwritten (h3 : 3 ≤ s.len) (h0 : s.readIn 0 = none) :
    exec .verCrc s = .fault (.unwrittenIn 0) := by
  simp only [exec, execVerCrc, State.not_tooLong hl, Bool.false_eq_true, if_false, Nat.not_lt.2 h3, h0]

theorem verCrc_first_bad (h3 : 3 ≤ s.len) {b : Byte} (h0 : s.readIn 0 = some b) (hb : b ≠ 0x02) :
    exec .verCrc s = .next (s.raise .badFrame) := by
  simp only [exec, execVerCrc, State.not_tooLong hl, Bool.false_eq_true, if_false, Nat.not_lt.2 h3, h0, hb, ne_eq,
    not_false_eq_true, if_true]

theorem verCrc_faults (h3 : 3 ≤ s.len) (h0 : s.readIn 0 = some 0x02) (he : s.spanIn 0 s.len = .error e) :
    exec .verCrc s = .fault (.unwrittenIn e) := by
  simp only [exec, execVerCrc, State.not_tooLong hl, Bool.false_eq_true, if_false, Nat.not_lt.2 h3, h0, ne_eq,
    not_true_eq_false]
  exact verifyIn_fault he (by simp [h0]) h3

end

/-- Settles O33: the loops by `loop_faults`, ENC_CHUNK by its first step, the verifications test by test. -/
theorem unwrittenInputFaults : Obligations.UnwrittenInputFaults := by
  intro s e hf hl he
  refine ⟨cksCmd_faults hf hl he, cksCrc_faults hf hl he, encCmd_faults hf hl he, encRaw_faults hf hl he,
    encChunk_faults hf hl he, fun h4 => ⟨verCmd_first_unwritten hl h4, verCmd_marker_unwritten hl h4,
      fun h0 h3 => verCmd_faults hl h4 h0 h3 he⟩,
    fun h3 => ⟨verCrc_first_unwritten hl h3, fun h0 => verCrc_faults hl h3 h0 he⟩, ?_⟩
  rintro i (⟨rfl, hbad⟩ | ⟨rfl, hbad⟩)
  · rcases Nat.lt_or_ge s.len 4 with h4 | h4
    · exact verCmd_short hl h4
    obtain h | ⟨b, h0, hb⟩ | ⟨h0, b, h3, hb⟩ := hbad
    · exact absurd h (Nat.not_lt.2 h4)
    · exact verCmd_first_bad hl h4 h0 hb
    · exact verCmd_marker_bad hl h4 h0 h3 hb
  · rcases Nat.lt_or_ge s.len 3 with h3 | h3
    · exact verCrc_short hl h3
    obtain h | ⟨b, h0, hb⟩ := hbad
    · exact absurd h (Nat.not_lt.2 h3)
    · exact verCrc_first_bad hl h3 h0 hb

end Sys2Proof.Machine
end

section
/-! SUPPORT. What the HOST reads and writes (10_state.md R22 to R33, R41): the registers, the fields of STATUS and the
two buffers, each by the value it has and by whether BUSY = 1. -/

namespace Sys2Proof.Machine

variable {s : State}

/-! ## Registers -/

/-- A result register with BUSY = 0. -/
theorem resultView_idle (hb : s.status.busy = false) (v : Half) : s.resultView v = v.setWidth 32 := by
  simp [State.resultView, hb]

/-- A result register while BUSY: the draw, whatever it holds (10_state.md R41; log 6, log 7). -/
theorem resultView_busy (hb : s.status.busy = true) (v : Half) :
    s.resultView v = ((Config.draw s.draws).setWidth 16 : Half).setWidth 32 := by
  simp only [State.resultView, hb, if_true, State.draw]

theorem signalView_idle (hb : s.status.busy = false) : s.signalView = s.signal.setWidth 32 := by
  simp [State.signalView, hb]

theorem signalView_busy (hb : s.status.busy = true) :
    s.signalView = ((Config.draw s.draws).setWidth 8 : Byte).setWidth 32 := by
  simp only [State.signalView, hb, if_true, State.draw]

theorem toNat_setWidth_lt {n : Nat} (v : BitVec n) (hn : n ≤ 32) : (v.setWidth 32).toNat < 2 ^ n := by
  rw [BitVec.toNat_setWidth_of_le hn]
  exact v.isLt

/-- A result register uses 16 bits (10_state.md R22; log 7). -/
theorem resultView_lt (s : State) (v : Half) : (s.resultView v).toNat < 2 ^ 16 := by
  unfold State.resultView
  split <;> exact toNat_setWidth_lt _ (by decide)

theorem signalView_lt (s : State) : (s.signalView).toNat < 2 ^ 8 := by
  unfold State.signalView
  split <;> exact toNat_setWidth_lt _ (by decide)

/-- Registers from 9 on are reserved (10_state.md R22). -/
theorem regValue_reserved {reg : Nat} (h : 9 ≤ reg) (s : State) : s.regValue reg = 0 := by
  unfold State.regValue
  iterate 9 rw [if_neg (by omega)]

theorem writeReg_ignored {reg : Nat} (h : reg = 2 ∨ reg = 3 ∨ 6 ≤ reg) (s : State) (v : Word) :
    s.writeReg reg v = s := by
  unfold State.writeReg
  iterate 4 rw [if_neg (by omega)]

/-- STATUS uses twelve bits (10_state.md R24). -/
theorem Status.word_lt (st : Status) : st.word.toNat < 2 ^ 12 := by
  apply Nat.lt_pow_two_of_testBit
  intro i hi
  rw [BitVec.testBit_toNat, Status.word_getLsbD, if_neg (by omega)]

/-- STATUS as the sum of its fields at their places (10_state.md R24). -/
theorem Status.word_toNat (st : Status) : st.word.toNat =
    st.err.toNat * 256 + st.herr.toNat * 64 + st.ckOk.toNat * 32 + st.ckValid.toNat * 16 + st.kind.toNat * 4 +
      st.done.toNat * 2 + st.busy.toNat := by
  simp only [Status.word, bit, toNat_append, BitVec.toNat_ofBool, BitVec.ofNat_eq_ofNat, BitVec.toNat_ofNat]
  omega

theorem Status.word_kind (st : Status) : st.word.extractLsb' 2 2 = st.kind := by
  have := st.kind.isLt
  have := Bool.toNat_le st.done
  have := Bool.toNat_le st.busy
  apply BitVec.eq_of_toNat_eq
  rw [toNat_extract, Status.word_toNat]
  omega

theorem Status.word_err (st : Status) : st.word.extractLsb' 8 4 = st.err := by
  have := st.err.isLt
  have := Bool.toNat_le st.herr
  have := Bool.toNat_le st.ckOk
  have := Bool.toNat_le st.ckValid
  have := st.kind.isLt
  have := Bool.toNat_le st.done
  have := Bool.toNat_le st.busy
  apply BitVec.eq_of_toNat_eq
  rw [toNat_extract, Status.word_toNat]
  omega

theorem Status.word_reserved (st : Status) : st.word.extractLsb' 12 20 = 0 := by
  apply BitVec.eq_of_toNat_eq
  rw [toNat_extract, Nat.div_eq_of_lt st.word_lt]
  rfl

/-- A write to STATUS clears HERR when bit 6 is 1, and changes nothing else (10_state.md R24). -/
theorem writeReg_status (s : State) (v : Word) :
    s.writeReg 1 v = { s with status := { s.status with herr := s.status.herr && !v.getLsbD 6 } } := by
  have hreg : s.writeReg 1 v = if v.getLsbD 6 then { s with status := s.status.herrCleared } else s := rfl
  rw [hreg]
  split
  · next h => simp only [Status.herrCleared, h, Bool.not_true, Bool.and_false]
  · next h => simp only [h, Bool.not_false, Bool.and_true]

theorem regValue_reset (reg : Nat) : State.reset.regValue reg = 0 := by
  by_cases h : 9 ≤ reg
  · exact regValue_reserved h _
  · interval_cases reg <;> rfl

/-- Settles O19, register by register. -/
theorem registerMap : Obligations.RegisterMap := by
  refine ⟨fun s => ⟨rfl, rfl, rfl, fun hb => ?_⟩, fun s reg h => regValue_reserved h s, fun s => ?_,
    fun s reg v h => writeReg_ignored h s v, fun s v hb => ?_, regValue_reset⟩
  · exact ⟨resultView_idle hb _, resultView_idle hb _, resultView_idle hb _, resultView_idle hb _, signalView_idle hb⟩
  · exact ⟨s.status.word_lt, resultView_lt s _, resultView_lt s _, toNat_setWidth_lt s.inLen (by decide),
      resultView_lt s _, resultView_lt s _, signalView_lt s⟩
  · simp [State.writeReg, State.unlessBusy, hb]

/-- Settles O20: the one-bit fields by their bit, KIND, ERR and the reserved bits by their part of the number. -/
theorem statusFieldsLieAtTheirBits : Obligations.StatusFieldsLieAtTheirBits := by
  intro s
  have hread : s.regValue 1 = s.status.word := rfl
  rw [hread, Status.word_kind, Status.word_err, Status.word_reserved]
  simp only [Status.word_getLsbD, BitVec.getLsbD_append, bit]
  simp [writeReg_status]

/-! ## Buffers -/

theorem inValue_written {i : Nat} {b : Byte} (hi : i < s.cfg.inMax) (hr : Memory.read s.inBuf i = some b) :
    s.inValue i = b := by
  simp [State.inValue, Nat.not_le.2 hi, hr]

theorem inValue_unwritten {i : Nat} (hi : i < s.cfg.inMax) (hr : Memory.read s.inBuf i = none) :
    s.inValue i = (Config.draw s.draws).setWidth 8 := by
  simp [State.inValue, Nat.not_le.2 hi, hr, State.draw]

/-- RX_BUF while BUSY, and from RX_LEN on at any time, reads as the draw (10_state.md R33, R41). -/
theorem rxValue_free {i : Nat} (hi : i < s.cfg.rxMax) (hf : s.status.busy = true ∨ s.rxLen.toNat ≤ i) :
    s.rxValue i = (Config.draw s.draws).setWidth 8 := by
  simp only [State.rxValue, Nat.not_le.2 hi, if_false, hf, if_true, State.draw]

theorem rxValue_outside {i : Nat} (hi : s.cfg.rxMax ≤ i) : s.rxValue i = 0 := by
  simp only [State.rxValue, hi, if_true]

/-- Settles O22: each read by the rule for its register or byte. -/
theorem busyResultReadsAreFree : Obligations.BusyResultReadsAreFree := by
  have regs : ∀ s : State, s.status.busy = true → ∀ reg, reg = 2 ∨ reg = 3 ∨ reg = 6 ∨ reg = 7 →
      s.regValue reg = ((Config.draw s.draws).setWidth 16 : Half).setWidth 32 := by
    rintro s hb _ (rfl | rfl | rfl | rfl) <;> exact resultView_busy hb _
  refine ⟨fun s s' hb hst hc hd => ⟨?_, fun i => ?_⟩,
    fun s hb => ⟨regs s hb, signalView_busy hb, ?_, rfl, rfl, rfl, rfl, ?_⟩,
    fun s i => ⟨fun hl hi => rxValue_free hi (.inr hl), inValue_unwritten⟩⟩
  · have hb' : s'.status.busy = true := by rw [hst, hb]
    intro reg hreg
    by_cases h8 : reg = 8
    · subst h8
      calc s'.regValue 8 = ((Config.draw s'.draws).setWidth 8 : Byte).setWidth 32 := signalView_busy hb'
        _ = s.regValue 8 := by rw [hd]; exact (signalView_busy hb).symm
    · rw [regs s hb reg (by omega), regs s' hb' reg (by omega), hd]
  · rcases Nat.lt_or_ge i s.cfg.rxMax with hi | hi
    · rw [rxValue_free hi (.inl hb), rxValue_free (hc ▸ hi) (.inl (by rw [hst, hb])), hd]
    · rw [rxValue_outside hi, rxValue_outside (hc ▸ hi)]
  · exact fun i hi => rxValue_free hi (.inl hb)
  · exact fun i b => inValue_written

/-- A write to IN with BUSY = 0, below IN_MAX. -/
theorem writeIn_idle (hb : s.status.busy = false) {i : Nat} (hi : i < s.cfg.inMax) (b : Byte) :
    s.writeIn i b = { s with inBuf := Memory.write s.inBuf i b } := by
  simp [State.writeIn, State.unlessBusy, Nat.not_le.2 hi, hb]

/-- Settles O24, by the laws of a buffer's write. -/
theorem writtenInByteReadsBack : Obligations.WrittenInByteReadsBack := by
  intro s i b hb hi
  refine ⟨fun j => ?_, ?_, ?_, fun hwf => State.writeIn_wf hwf i b⟩
  · rw [writeIn_idle hb hi]
    exact Memory.read_write s.inBuf i j b
  · rw [writeIn_idle hb hi]
    exact inValue_written hi (Memory.read_write_same s.inBuf i b)
  · rw [writeIn_idle hb hi]

end Sys2Proof.Machine
end

section
/-! SUPPORT. The HOST's reads, its accesses outside the buffers, and what the turns of the other agents leave of an
operation in flight (20_memory.md R56, R57, R60). -/

namespace Sys2Proof.Machine

variable {s t : State} {i : Instr}

/-! ## Reads -/

/-- The HOST's turn is named and it has a line: the line runs, with the turn and the line taken off. -/
theorem step_hostLine {line : HostLine} {lines : List HostLine} {rest : List Turn} (ha : s.agenda = .host :: rest)
    (hp : s.hostProg = line :: lines) : step s = runLine line ((s.setAgenda rest).setProg lines) := by
  calc step s = hostTurn (s.setAgenda rest) := step_of_agenda ha
    _ = runLine line ((s.setAgenda rest).setProg lines) := hostTurn_cons hp

/-- Settles O21: the three reads are `State.returnRead`, and what they return looks at neither the agenda nor the
program. -/
theorem hostReadsHaveNoSideEffects : Obligations.HostReadsHaveNoSideEffects := by
  intro s line v lines rest hread hp ha
  refine ⟨((s.setAgenda rest).setProg lines).returnRead v, (step_hostLine ha hp).trans ?_, rfl⟩
  obtain ⟨n, rfl, rfl⟩ | ⟨n, rfl, rfl⟩ | ⟨n, rfl, rfl⟩ := hread
  · rfl
  · rfl
  · rfl

/-! ## Buffer indices out of range -/

/-- Ignored while BUSY too, without HERR (log 10). -/
theorem writeIn_outside {n : Nat} (hn : s.cfg.inMax ≤ n) (b : Byte) : s.writeIn n b = s := if_pos hn

theorem inValue_outside {n : Nat} (hn : s.cfg.inMax ≤ n) : s.inValue n = 0 := if_pos hn

/-- Settles O23: the bound is tested before BUSY. -/
theorem outOfRangeBufferIndices : Obligations.OutOfRangeBufferIndices := by
  intro s n b
  exact ⟨fun hn => ⟨writeIn_outside hn b, inValue_outside hn⟩, rxValue_outside⟩

/-! ## An operation in flight -/

/-- While an operation other than RX_FRAME is in flight, the HOST's writes are dropped (70_reset_and_hazards.md R251),
the CHANNEL reaches RXQ alone and the TIMER nothing (60_exceptions.md R215). -/
theorem takeTurn_hostOnly {turn : Turn} (hf : s.inFlight = some i) (hr : i ≠ .rxFrame) (he : turn ≠ .engine)
    (hreset : turn ≠ .reset) (h : takeTurn turn s = .next t) : ∃ rxq, HostOnly { s with rxq := rxq } t := by
  cases turn with
  | engine => exact absurd rfl he
  | host =>
    obtain ⟨u, hu, hhost⟩ := hostTurn_busy s (State.busy_of_inFlight hf)
    cases hu.symm.trans h
    exact ⟨s.rxq, hhost⟩
  | channel b =>
    cases h
    exact ⟨s.rxq ++ [b], hostOnly_refl _⟩
  | timer =>
    have hreader : s.inFlight ≠ some .rxFrame := by simpa [hf] using hr
    cases h
    rw [State.timeout_of_not_reader hreader]
    exact ⟨s.rxq, hostOnly_refl s⟩
  | reset => exact absurd rfl hreset

/-- Settles O25, by the agent whose turn the step is: none of them touches BUSY, OPCUR or OPWORD. -/
theorem operationInFlightIsUndisturbed : Obligations.OperationInFlightIsUndisturbed := by
  intro s t turn rest i hf hr ha he hreset h
  obtain ⟨rxq, hkept⟩ := takeTurn_hostOnly (s := s.setAgenda rest) hf hr he hreset ((step_of_agenda ha).symm.trans h)
  refine ⟨hkept.inFlight.trans hf, ?_⟩
  obtain ⟨herr, hostProg, readData, draws, rfl⟩ := hkept
  exact ⟨herr, rxq, hostProg, readData, draws, rfl⟩

end Sys2Proof.Machine
end

section
/-! SUPPORT. The encoder and the decoder agree (30_encoding.md R73 to R85): each is the other's inverse, on operation
words by their four fields (R81), on wire units by their first byte. -/

namespace Sys2Proof

variable {w : Word} {i : Instr}

/-! ## Decoding an encoding -/

/-- R77's layout, from its check. -/
theorem wellFormed_wireO {kind : Byte} {unknown1 timestamp unknown2 name : List Byte}
    (h : (Instr.wireO kind unknown1 timestamp unknown2 name).wellFormed = true) :
    (kind = 0x43 ∨ kind = 0x44) ∧ unknown1.length = 8 ∧ timestamp.length = 14 ∧ unknown2.length = 8 := by
  simp only [Instr.wellFormed, Bool.and_eq_true, Bool.or_eq_true, beq_iff_eq] at h
  obtain ⟨⟨⟨⟨hkind, h1⟩, hts⟩, -⟩, h2⟩ := h
  exact ⟨hkind, h1, hts, h2⟩

/-- R78's layout, from its check. -/
theorem wellFormed_wireW {off : Word} {data : List Byte} (h : (Instr.wireW off data).wellFormed = true) :
    1 ≤ data.length ∧ data.length ≤ 1000 := of_decide_eq_true h

/-- The length field of a `W` payload says its data's length, as long as 16 bits hold it. -/
theorem ofNat_length_toNat {data : List Byte} (h : data.length < 2 ^ 16) :
    (BitVec.ofNat 16 data.length).toNat = data.length := by
  rw [BitVec.toNat_ofNat, Nat.mod_eq_of_lt h]

/-- A slice of a list that is cut into what comes before the slice, the slice and what comes after. -/
theorem take_drop_of_append {l before mid after : List Byte} {i n : Nat} (hl : l = before ++ mid ++ after)
    (hi : before.length = i) (hn : mid.length = n) : (l.drop i).take n = mid := by
  subst hl hi hn
  simp

theorem decodeO_fields {unknown1 timestamp unknown2 : List Byte} (kind : Byte) (name : List Byte)
    (h1 : unknown1.length = 8) (hts : timestamp.length = 14) (h2 : unknown2.length = 8) :
    decodeO (kind :: (unknown1 ++ timestamp ++ unknown2 ++ name)) =
      .ok (.wireO kind unknown1 timestamp unknown2 name) := by
  have hlong : ¬ (unknown1 ++ timestamp ++ unknown2 ++ name).length < 30 := by simp; omega
  generalize hl : unknown1 ++ timestamp ++ unknown2 ++ name = l at hlong
  have hu1 : l.take 8 = unknown1 :=
    take_drop_of_append (before := []) (after := timestamp ++ unknown2 ++ name) (i := 0) (by simp [← hl]) rfl h1
  have hst : (l.drop 8).take 14 = timestamp :=
    take_drop_of_append (after := unknown2 ++ name) (by simp [← hl]) h1 hts
  have hu2 : (l.drop 22).take 8 = unknown2 := take_drop_of_append hl.symm (by simp [h1, hts]) h2
  have hname : l.drop 30 = name := hl ▸ List.drop_left' (by simp [h1, hts, h2])
  rw [decodeO, if_neg hlong, hu1, hst, hu2, hname]

theorem decodeW_fields (off : Word) {data : List Byte} (h : data.length < 2 ^ 16) :
    decodeW (be16 (BitVec.ofNat 16 data.length) ++ be32 off ++ data) = .ok (.wireW off data) := by
  simp [be16, be32, decodeW, ofNat_length_toNat h, ofBe32_bytes]

theorem decodeWire_wireL {name : List Byte} (value : List Byte) (h : ¬ (0x1C : Byte) ∈ name) :
    decodeWire (0x4C :: (name ++ 0x1C :: value)) = .ok (.wireL name (some value)) := by
  have hsplit := splitSeparator_name name value h
  calc decodeWire (0x4C :: (name ++ 0x1C :: value))
      = .ok (.wireL (splitSeparator (name ++ 0x1C :: value)).1 (splitSeparator (name ++ 0x1C :: value)).2) := rfl
    _ = .ok (.wireL name (some value)) := by rw [hsplit]

/-- Settles O3, row by row; the rows with operands by the lemmas above and `decodeWord_sigTx`. -/
theorem decodeOfEncodeIsIdentity : Obligations.DecodeOfEncodeIsIdentity := by
  intro i hi
  cases i with
  | cksCmd | cksCrc | encCmd | encRaw | encChunk | rxFrame | verCmd | verCrc => decide
  | wireC | wireS | wireSigNak | wireSigAck => rfl
  | wireM text => rfl
  | sigTx a => exact decodeWord_sigTx a
  | wireL name value =>
    cases value with
    | none => cases hi
    | some value => exact decodeWire_wireL value (by simpa [Instr.wellFormed] using hi)
  | wireO kind unknown1 timestamp unknown2 name =>
    obtain ⟨-, h1, hts, h2⟩ := wellFormed_wireO hi
    exact decodeO_fields kind name h1 hts h2
  | wireW off data =>
    obtain ⟨-, hdata⟩ := wellFormed_wireW hi
    exact decodeW_fields off (by omega)

/-! ## Encoding what was decoded -/

/-- A word whose reserved fields and ARG8 are 0 is its OP (R81). -/
theorem word_eq_opField (h0 : rsv0Field w = 0) (h1 : rsv1Field w = 0) (ha : arg8Field w = 0) :
    w = (opField w).setWidth 32 := by
  have hw := word_fields w
  have := (opField w).isLt
  apply BitVec.eq_of_toNat_eq
  rw [BitVec.toNat_setWidth, Nat.mod_eq_of_lt (by omega)]
  simpa [h0, h1, ha] using hw

/-- A word whose reserved fields are 0 and whose OP is 6 is its ARG8 in a SIG_TX word (R81, R82). -/
theorem word_eq_sigTx (h0 : rsv0Field w = 0) (h1 : rsv1Field w = 0) (h6 : opField w = 6) :
    ((arg8Field w).setWidth 32 <<< 8) ||| 0x6 = w := by
  have hw := word_fields w
  apply BitVec.eq_of_toNat_eq
  rw [sigTx_word_toNat, hw]
  simp [h0, h1, h6]

theorem encode_of_decodeWord (h : decodeWord w = .ok i) : encode i = .word w := by
  obtain ⟨h0, h1, harg, hcode⟩ := decodeWord_ok h
  have plain {c : BitVec 4} (hc : opField w = c) (h6 : c ≠ 6) : w = c.setWidth 32 :=
    hc ▸ word_eq_opField h0 h1 (harg.resolve_left (hc ▸ h6))
  obtain ⟨hc, rfl⟩ | ⟨hc, rfl⟩ | ⟨hc, rfl⟩ | ⟨hc, rfl⟩ | ⟨hc, rfl⟩ | ⟨hc, rfl⟩ | ⟨hc, rfl⟩ | ⟨hc, rfl⟩ | ⟨hc, rfl⟩ :=
    instrOfCode_cases hcode
  case inr.inr.inr.inr.inr.inl => exact congrArg Code.word (word_eq_sigTx h0 h1 hc)
  all_goals exact congrArg Code.word (plain hc (by decide)).symm

theorem encode_of_decodeO {rest : List Byte} (h : decodeO rest = .ok i) : encode i = .wire (0x4F :: rest) := by
  cases rest with
  | nil => cases h
  | cons kind rest =>
    simp only [decodeO] at h
    split at h
    · cases h
    · cases h
      rw [encode, splitO_append]

theorem encode_of_decodeW {rest : List Byte} (h : decodeW rest = .ok i) : encode i = .wire (0x57 :: rest) := by
  unfold decodeW at h
  split at h
  · next l1 l0 o3 o2 o1 o0 data =>
    split at h
    · next hlen =>
      cases h
      rw [encode, chunkPayload, ← hlen, BitVec.ofNat_toNat, BitVec.setWidth_eq, be32_ofBe32, be16, hiByte_ofBe16,
        loByte_ofBe16]
      rfl
    · cases h
  · cases h

theorem encode_of_decodeWire {unit : List Byte} (h : decodeWire unit = .ok i) : encode i = .wire unit := by
  cases unit with
  | nil => cases h
  | cons b rest =>
    simp only [decodeWire] at h
    split_ifs at h with hM hL hO hW <;> subst b
    · cases h; rfl
    · cases h; rw [encode, splitSeparator_append]
    · exact encode_of_decodeO h
    · exact encode_of_decodeW h
    all_goals (obtain ⟨rfl, rfl⟩ := decodeBare_ok h; rfl)

/-- Settles O4, for words and for wire units. -/
theorem encodeOfDecodeIsIdentity : Obligations.EncodeOfDecodeIsIdentity := by
  intro c i h
  cases c with
  | word w => exact encode_of_decodeWord h
  | wire unit => exact encode_of_decodeWire h

/-! ## Operation words -/

/-- The decoder reads a well-formed instruction from its own code and from no other. -/
theorem decode_eq_ok_iff {c : Code} (hi : i.wellFormed = true) : decode c = .ok i ↔ encode i = c := by
  constructor
  · exact encodeOfDecodeIsIdentity c i
  · rintro rfl
    exact decodeOfEncodeIsIdentity i hi

/-- A row with no operand has a full mask. -/
theorem decodeWord_iff_fullMask {code : Word} (he : encode i = .word code) (hi : i.wellFormed = true) (w : Word) :
    decodeWord w = .ok i ↔ w &&& 0xFFFFFFFF = code := by
  calc decodeWord w = .ok i ↔ encode i = .word w := decode_eq_ok_iff (c := .word w) hi
    _ ↔ code = w := by rw [he, Code.word.injEq]
    _ ↔ w &&& BitVec.allOnes 32 = code := by rw [BitVec.and_allOnes, eq_comm]

/-- A word is what SIG_TX's mask keeps of it and its ARG8. -/
theorem word_eq_mask_or_arg8 (w : Word) : w = ((arg8Field w).setWidth 32 <<< 8) ||| (w &&& 0xFFFF00FF) := by
  apply BitVec.eq_of_getLsbD_eq
  intro k hk
  interval_cases k <;> simp [arg8Field]

theorem decodeWord_sigTx_iff_mask (w : Word) :
    (∃ a, decodeWord w = .ok (.sigTx a)) ↔ w &&& 0xFFFF00FF = 0x00000006 := by
  constructor
  · rintro ⟨a, h⟩
    obtain ⟨v, hv, hmask⟩ := Laws.RowFit.sigTx a
    rw [encode_of_decodeWord h] at hv
    cases hv
    exact hmask
  · intro h
    refine ⟨arg8Field w, ?_⟩
    have hw := word_eq_mask_or_arg8 w
    rw [h] at hw
    exact (congrArg decodeWord hw).trans (decodeWord_sigTx (arg8Field w))

/-- Settles O1: eight rows have a full mask, and SIG_TX's leaves out ARG8. -/
theorem operationSelectedByMatchAndMask : Obligations.OperationSelectedByMatchAndMask := by
  intro w
  exact ⟨decodeWord_iff_fullMask rfl rfl w, decodeWord_iff_fullMask rfl rfl w, decodeWord_iff_fullMask rfl rfl w,
    decodeWord_iff_fullMask rfl rfl w, decodeWord_iff_fullMask rfl rfl w, decodeWord_sigTx_iff_mask w,
    decodeWord_iff_fullMask rfl rfl w, decodeWord_iff_fullMask rfl rfl w, decodeWord_iff_fullMask rfl rfl w⟩

/-- Settles O5, by running the decoder. -/
theorem writtenOutWordsDecode : Obligations.WrittenOutWordsDecode := by
  unfold Obligations.WrittenOutWordsDecode
  decide

/-- Settles O6: each field by what stands before and after it. -/
theorem payloadFieldsLieAtTheirOffsets : Obligations.PayloadFieldsLieAtTheirOffsets := by
  constructor
  · intro kind u1 ts u2 name h
    obtain ⟨hkind, h1, hts, h2⟩ := wellFormed_wireO h
    refine ⟨_, rfl, by simp [h1, hts, h2]; omega, rfl, rfl, hkind, ?_, ?_, ?_, ?_⟩
    · exact take_drop_of_append (before := [0x4F, kind]) (after := ts ++ u2 ++ name) (by simp) rfl h1
    · exact take_drop_of_append (before := 0x4F :: kind :: u1) (after := u2 ++ name) (by simp) (by simp [h1]) hts
    · exact take_drop_of_append (before := 0x4F :: kind :: (u1 ++ ts)) (after := name) (by simp) (by simp [h1, hts]) h2
    · exact List.drop_left' (l₁ := 0x4F :: kind :: (u1 ++ ts ++ u2)) (by simp [h1, hts, h2])
  · intro off d h
    obtain ⟨-, hd⟩ := wellFormed_wireW h
    exact ⟨_, rfl, by simp [chunkPayload]; omega, rfl, rfl, ofNat_length_toNat (by omega), rfl, rfl⟩

end Sys2Proof

namespace Sys2Proof.Machine

variable {s : State} {w : Word}

/-! ## Illegal words (30_encoding.md R83) -/

theorem decodeWord_error_iff (w : Word) : (∃ e, decodeWord w = .error e) ↔
    (opField w = 0 ∨ 0xA ≤ (opField w).toNat) ∨ (rsv0Field w ≠ 0 ∨ rsv1Field w ≠ 0) ∨
      (opField w ≠ 6 ∧ arg8Field w ≠ 0) := by
  rw [← instrOfCode_none (opField w) (arg8Field w)]
  unfold decodeWord
  split
  · next hbad => exact ⟨fun _ => .inr (by tauto), fun _ => ⟨_, rfl⟩⟩
  · next hgood =>
    split
    · next j hj => simp only [hj, reduceCtorEq, exists_false, false_or, false_iff]; tauto
    · next hn => exact ⟨fun _ => .inl hn, fun _ => ⟨_, rfl⟩⟩

theorem startOp_illegal {e : DecodeError} (h : decodeWord w = .error e) :
    s.startOp w = { s with opword := w, status := s.status.cleared }.raise .illegal := by
  simp only [State.startOp, h]

/-- Settles O2: with the hidden in-flight state at rest, `raise` clears nothing that was not clear. -/
theorem illegalWordEndsAtOnce : Obligations.IllegalWordEndsAtOnce := by
  refine ⟨decodeWord_error_iff, ⟨_, rfl⟩, ?_⟩
  rintro s w hb hrest ⟨e, he⟩
  obtain ⟨hopcur, hidx, hphase⟩ : s.opcur = none ∧ s.idx = 0 ∧ s.phase = .start := by simpa [FlightOk, hb] using hrest
  have hwrite : s.writeReg 0 w = s.startOp w := by simp [State.writeReg, State.accept, hb]
  rw [hwrite, startOp_illegal he]
  simp [State.raise, State.finish, Status.withErr, Status.finish, Status.cleared, ErrCode.bits, hopcur, hidx, hphase,
    hb]

end Sys2Proof.Machine
end

section
/-! SUPPORT. What a HOST turn does with the next line of the program (30_encoding.md R86, R87). -/

namespace Sys2Proof.Machine

variable {s : State} {w : Word} {lines : List HostLine}

/-- `load`'s lines, each byte with its index. -/
theorem loadLines_eq (bytes : List Byte) : loadLines bytes =
    bytes.zipIdx.map (fun c => HostLine.wrb c.2 c.1) ++ [HostLine.wr 5 (BitVec.ofNat 32 bytes.length)] := by
  rw [loadLines, wrbLines_eq]

/-- `poll` reads STATUS once more and is over when DONE reads 1. -/
theorem poll_done (hd : s.status.done = true) : s.poll = s.readReg 1 := if_pos hd

/-- `poll` stays on the program while DONE reads 0. -/
theorem poll_waits (hd : s.status.done = false) : s.poll = (s.readReg 1).pushLines [.poll] := by
  simp [State.poll, hd]

/-- Settles O8, by the line the HOST's turn takes off the program. -/
theorem hostTurnRunsDecodedWireUnit : Obligations.HostTurnRunsDecodedWireUnit := by
  refine ⟨fun s unit lines rest hp ha => ⟨fun i hi => ?_, fun e he => ?_⟩, fun s bytes lines load rest ha hload => ?_,
    fun s lines rest ha => ⟨step_hostLine ha, fun hp => ?_, fun reg v => step_hostLine ha, fun n b => step_hostLine ha⟩⟩
  · rw [step_hostLine ha hp]
    simp only [runLine, hi]
    rfl
  · rw [step_hostLine ha hp]
    simp only [runLine, he]
    rfl
  · rw [hload, ← loadLines_eq]
    exact ⟨step_hostLine ha, step_hostLine ha, step_hostLine ha⟩
  · refine ⟨_, step_hostLine ha hp, ?_⟩
    cases hd : s.status.done with
    | true => rw [poll_done (s := (s.setAgenda rest).setProg lines) hd]; rfl
    | false => rw [poll_waits (s := (s.setAgenda rest).setProg lines) hd]; rfl

/-- The `wr OPWORD` line of an idle block. -/
theorem step_wr_opword (ha : s.agenda = []) (hb : s.status.busy = false) (hp : s.hostProg = .wr 0 w :: lines) :
    step s = .next ((s.setProg lines).startOp w) := by
  rw [step_host ha (State.inFlight_of_idle hb), hostTurn_cons hp]
  simp [runLine, State.writeReg, State.accept, hb]

/-- The `wr OFFSET` line of an idle block. -/
theorem step_wr_offset (ha : s.agenda = []) (hb : s.status.busy = false) (hp : s.hostProg = .wr 4 w :: lines) :
    step s = .next { s with hostProg := lines, offset := w } := by
  rw [step_host ha (State.inFlight_of_idle hb), hostTurn_cons hp]
  simp [runLine, State.writeReg, State.unlessBusy, State.setProg, hb]

/-- The `poll` line once the operation has ended. -/
theorem step_poll (ha : s.agenda = []) (he : Ended s) (hp : s.hostProg = .poll :: lines) :
    step s = .next ((s.setProg lines).readReg 1) := by
  obtain ⟨hdone, hb⟩ := he
  rw [step_host ha (State.inFlight_of_idle hb), hostTurn_cons hp, runLine, poll_done (s := s.setProg lines) hdone]

end Sys2Proof.Machine
end

section
/-! SUPPORT. ENC_CMD and ENC_CHUNK run up to the step that emits the seal's last byte, and their failed length checks
(41_encode.md R141, R143). -/

namespace Sys2Proof.Machine

variable {s : State} {p d : List Byte}

/-- The loop over all of IN. -/
theorem loop_over_input {i : Instr} {f : Byte → State → State} (keeps : PassKeeps f)
    (pass : ∀ u b, u.phase = .body → u.idx.toNat < u.len → u.readIn u.idx.toNat = some b → exec i u = .next (f b u))
    (hphase : s.phase = .body) (hidx : s.idx = 0) (hp : s.loaded p) :
    execTimes s.len i s = .next (p.foldl (fun t b => f b t) s) := by
  have hz : s.idx.toNat = 0 := by rw [hidx]; rfl
  refine byte_loop (le_refl s.len) keeps (fun u b hup hul _ hi hr => pass u b hup ?_ hr) s.len s p hphase rfl rfl ?_ ?_
  · rw [State.len, hul]
    exact hi
  · omega
  · rw [hz]
    exact hp

/-- IN_LEN is the number of the bytes it loads. -/
theorem ofNat_length_of_loaded (hp : s.loaded p) : BitVec.ofNat 16 p.length = s.inLen := by
  rw [Memory.span_length hp, State.len, BitVec.ofNat_toNat, BitVec.setWidth_eq]

/-- After the loop ENC_CMD emits the end marker and the seal's first byte (41_encode.md R141). -/
theorem encCmd_marker_sealHi (hphase : s.phase = .body) (hi : s.len ≤ s.idx.toNat) :
    execTimes 2 .encCmd s = .next
      { s with
        txs := s.txs ++ [0x03, hiByte (cmdStep s.accCmd 0x03)], accCmd := cmdStep s.accCmd 0x03,
        phase := .sealLo } := by
  simp [execTimes, exec, execEncCmd, hphase, State.not_more hi, State.emit]

/-- After the loop ENC_CHUNK emits the seal's first byte (41_encode.md R143). -/
theorem encChunk_sealHi (hphase : s.phase = .body) (hi : s.len ≤ s.idx.toNat) :
    exec .encChunk s = .next { s with txs := s.txs ++ [hiByte s.accCrc], phase := .sealLo } := by
  simp [exec, execEncChunk, hphase, State.not_more hi, State.emit]

/-- ENC_CMD, all but its last step. -/
theorem encCmd_until_sealLo (hs : s.fresh) (hl : s.len ≤ s.cfg.inMax) (hp : s.loaded p) {c : Half}
    (hc : c = cmdChecksum (p ++ [0x03])) :
    execTimes (s.len + 3) .encCmd s = .next
      { s with
        txs := s.txs ++ 0x02 :: (p ++ [0x03, hiByte c]), accCmd := c, idx := s.inLen, phase := .sealLo } := by
  obtain ⟨hphase, hidx⟩ := hs
  have hloop := loop_over_input (s := { s.emit 0x02 with accCmd := 0, phase := .body }) encCmdPass_keeps
    (fun _ _ => encCmd_pass) rfl hidx hp
  rw [foldl_encCmdPass, ofNat_length_of_loaded hp] at hloop
  rw [show s.len + 3 = (s.len + 2) + 1 by omega, execTimes_succ (encCmd_start hphase hl)]
  refine (execTimes_add hloop 2).trans ((encCmd_marker_sealHi rfl ?_).trans ?_)
  · simp [hidx, State.len]
  · simp [hidx, hc, cmdChecksum]

theorem encCmd_at_sealLo (hp : s.phase = .sealLo) :
    exec .encCmd s = .next ((s.emit (loByte s.accCmd)).finishResult s.accCmd) := by
  simp only [exec, execEncCmd, hp]

/-- ENC_CHUNK, all but its last step, with `q` the chunk payload it sends. -/
theorem encChunk_until_sealLo (hs : s.fresh) (hl : s.len ≤ s.cfg.inMax) (h0 : s.len ≠ 0)
    (hm : s.len ≤ Config.chunkMax) (hd : s.loaded d) {q : List Byte} (hq : q = chunkHeader s.inLen s.offset ++ d) :
    execTimes (s.len + 9) .encChunk s = .next
      { s with
        txs := s.txs ++ 0x02 :: (q ++ [hiByte (crc16 q)]), accCrc := crc16 q, idx := s.inLen, phase := .sealLo } := by
  obtain ⟨hphase, hidx⟩ := hs
  have hheader := encChunk_header (s := { s.emit 0x02 with accCrc := 0, phase := .header 0 }) rfl
  have hloop := loop_over_input encChunkPass_keeps (fun _ _ => encChunk_pass) rfl hidx hd
    (s := { s.emit 0x02 with
      txs := (s.emit 0x02).txs ++ chunkHeader s.inLen s.offset,
      accCrc := (chunkHeader s.inLen s.offset).foldl crcStep 0, phase := .body })
  rw [foldl_encChunkPass, ofNat_length_of_loaded hd] at hloop
  rw [show s.len + 9 = (7 + (s.len + 1)) + 1 by omega, execTimes_succ (encChunk_start hphase hl h0 hm hd),
    execTimes_add hheader (s.len + 1)]
  refine (execTimes_add hloop 1).trans ((execTimes_succ (encChunk_sealHi rfl ?_) 0).trans ?_)
  · simp [hidx, State.len]
  · simp [execTimes, hidx, hq, crc16]

theorem encChunk_at_sealLo (hp : s.phase = .sealLo) :
    exec .encChunk s = .next ((s.emit (loByte s.accCrc)).finishResult s.accCrc) := by
  simp only [exec, execEncChunk, hp]

/-! ## Failed length checks -/

theorem encCmd_tooLong (hp : s.phase = .start) (hl : s.cfg.inMax < s.len) :
    exec .encCmd s = .next (s.raise .badLen) := by
  simp only [exec, execEncCmd, hp, State.tooLong_of_lt hl, if_true]

/-- The length check of ENC_CHUNK (41_encode.md R143). -/
theorem encChunk_badLen (hp : s.phase = .start) (hl : s.len = 0 ∨ Config.chunkMax < s.len) :
    exec .encChunk s = .next (s.raise .badLen) := by
  simp only [exec, execEncChunk, hp, hl, if_true, ite_self]

end Sys2Proof.Machine
end

section
/-! SUPPORT. The whole runs of the wire rows (30_encoding.md R73 to R80, R87) from an idle block in the default order
(log 3): `load`, the operation word, the operation's steps and the `poll` that finds it ended. -/

namespace Sys2Proof.Machine

variable {s t u : State} {i : Instr} {w : Word} {bytes : List Byte} {buf : Memory}

/-! ## From the operation word to the end of `poll` -/

/-- An operation that goes on was in flight before. -/
theorem OpStep.inFlight_before (h : OpStep i s t) {j : Instr} (ht : t.inFlight = some j) : s.inFlight = some j := by
  cases h with
  | raised => simp at ht
  | goesOn hu => cases hu; exact ht
  | finished hu | finishedResult v hu | verified c r p hu => simp at ht

/-- With an empty agenda the machine runs the operation in flight, as long as it has not ended. -/
theorem run_of_execTimes (hr : i ≠ .rxFrame) (hu : u.inFlight = some i) (k : Nat) : ∀ s : State, s.agenda = [] →
    execTimes k i s = .next u → Host.Core.run Sys2Proof.core k s = .next u ∧ s.inFlight = some i ∧ u.agenda = [] := by
  obtain ⟨word, hword⟩ := encode_word_of_inFlight hu
  induction k with
  | zero =>
    intro s ha h
    cases h
    exact ⟨rfl, hu, ha⟩
  | succ k ih =>
    intro s ha h
    obtain ⟨v, hv, hk⟩ := execTimes_succ_next h
    have hstep := exec_opStep hword hr hv
    obtain ⟨-, -, -, -, -, -, hva, -⟩ := hstep.untouched
    obtain ⟨hrun, hvf, hua⟩ := ih v (hva.trans ha) hk
    have hf := hstep.inFlight_before hvf
    exact ⟨(run_succ ((step_engine ha hf hr).trans hv) k).trans hrun, hf, hua⟩

/-- The lines of an operation: its word is accepted, `k` of its steps run, its next step ends it, and `poll` reads
STATUS once. -/
theorem run_operation (hidle : s.idle) (hr : i ≠ .rxFrame) {k : Nat}
    (hk : execTimes k i ((s.pushLines [.poll]).startOp w) = .next u) (hu : u.inFlight = some i)
    (ht : exec i u = .next t) (he : Ended t) (htp : t.hostProg = .poll :: s.hostProg) :
    Host.Core.run Sys2Proof.core (k + 3) (s.pushLines [.wr 0 w, .poll]) = .next ((t.setProg s.hostProg).readReg 1) := by
  obtain ⟨hb, ha⟩ := hidle
  obtain ⟨hrun, -, hua⟩ := run_of_execTimes hr hu k _ (by simpa using ha) hk
  obtain ⟨word, hword⟩ := encode_word_of_inFlight hu
  obtain ⟨-, -, -, -, -, -, hta, -⟩ := (exec_opStep hword hr ht).untouched
  calc Host.Core.run Sys2Proof.core (k + 3) (s.pushLines [.wr 0 w, .poll])
      = Host.Core.run Sys2Proof.core (k + 2) ((s.pushLines [.poll]).startOp w) :=
        run_succ (step_wr_opword (s := s.pushLines [.wr 0 w, .poll]) ha hb rfl) (k + 2)
    _ = Host.Core.run Sys2Proof.core 2 u := run_add hrun 2
    _ = Host.Core.run Sys2Proof.core 1 t := run_succ ((step_engine hua hu hr).trans ht) 1
    _ = .next ((t.setProg s.hostProg).readReg 1) := run_succ (step_poll (hta.trans hua) he htp) 0

/-! ## `load` and an operation -/

/-- `buf` is IN after `load bytes`: the bytes below IN_MAX, and what was there elsewhere (20_memory.md R57). -/
def LoadedBuf (s : State) (bytes : List Byte) (buf : Memory) : Prop :=
  ∀ j, Memory.read buf j = if j < bytes.length ∧ j < s.cfg.inMax then bytes[j]? else Memory.read s.inBuf j

/-- Operation word `w` has been accepted after `load bytes`, and `poll` comes next (60_exceptions.md R210; IN_LEN:
log 28). -/
def launched (s : State) (w : Word) (bytes : List Byte) (buf : Memory) : State :=
  { s with
    hostProg := .poll :: s.hostProg, inBuf := buf, inLen := BitVec.ofNat 16 bytes.length, opword := w,
    status := s.status.cleared }.launch (opField w)

/-- An accepted word of an operation other than RX_FRAME is in flight (60_exceptions.md R210). -/
theorem startOp_legal (hd : decodeWord w = .ok i) (hr : i ≠ .rxFrame) :
    s.startOp w = { s with opword := w, status := s.status.cleared }.launch (opField w) := by
  unfold State.startOp
  rw [hd]
  cases i with
  | rxFrame => exact absurd rfl hr
  | _ => rfl

theorem launched_fresh (s : State) (w : Word) (bytes : List Byte) (buf : Memory) : (launched s w bytes buf).fresh :=
  ⟨rfl, rfl⟩

theorem launched_inFlight (hd : decodeWord w = .ok i) : (launched s w bytes buf).inFlight = some i :=
  State.inFlight_of_decode rfl rfl hd

theorem launched_len (s : State) (w : Word) (bytes : List Byte) (buf : Memory) :
    (launched s w bytes buf).len = bytes.length % 2 ^ 16 := by
  rw [State.len, launched, State.launch_inLen, BitVec.toNat_ofNat]

/-- What an operation reads of IN after `load bytes`: the bytes IN_LEN counts, when it is not above IN_MAX. -/
theorem launched_loaded (hbuf : LoadedBuf s bytes buf) (hl : bytes.length % 2 ^ 16 ≤ s.cfg.inMax) :
    (launched s w bytes buf).loaded (bytes.take (bytes.length % 2 ^ 16)) := by
  have hle : bytes.length % 2 ^ 16 ≤ bytes.length := Nat.mod_le ..
  have htake : (bytes.take (bytes.length % 2 ^ 16)).length = bytes.length % 2 ^ 16 := by simpa using hle
  have hspan : Memory.span buf 0 (bytes.take (bytes.length % 2 ^ 16)).length =
      .ok (bytes.take (bytes.length % 2 ^ 16)) := by
    refine Memory.span_of_read fun j hj => ?_
    rw [htake] at hj
    rw [Nat.zero_add, hbuf j, if_pos ⟨by omega, by omega⟩, List.getElem_take, List.getElem?_eq_getElem]
  rw [State.loaded, launched_len]
  rwa [htake] at hspan

/-- `load bytes` and the lines of an operation, from an idle block. -/
theorem run_load_operation (hidle : s.idle) (hd : decodeWord w = .ok i) (hr : i ≠ .rxFrame) (bytes : List Byte) :
    ∃ buf, LoadedBuf s bytes buf ∧ ∀ {k : Nat} {u t : State},
      execTimes k i (launched s w bytes buf) = .next u → u.inFlight = some i →
      exec i u = .next t → Ended t → t.hostProg = .poll :: s.hostProg →
      Host.Core.run Sys2Proof.core (bytes.length + k + 4)
          (s.pushLines (loadLines bytes ++ [HostLine.wr 0 w, HostLine.poll])) =
        .next ((t.setProg s.hostProg).readReg 1) := by
  obtain ⟨hb, ha⟩ := hidle
  obtain ⟨buf, hrun, hbuf⟩ := run_loadLines (s := s.pushLines (loadLines bytes ++ [HostLine.wr 0 w, HostLine.poll]))
    (bytes := bytes) (lines := .wr 0 w :: .poll :: s.hostProg) ha hb (by simp)
  refine ⟨buf, hbuf, fun {k u t} hk hu ht he htp => ?_⟩
  rw [show bytes.length + k + 4 = (bytes.length + 1) + (k + 3) by omega, run_add hrun]
  refine run_operation (s := { s with inBuf := buf, inLen := BitVec.ofNat 16 bytes.length }) ⟨hb, ha⟩ hr ?_ hu ht he htp
  rw [startOp_legal hd hr]
  exact hk

/-! ## The rows -/

/-- The command rows are `send.cmd` of their payload (30_encoding.md R75 to R77, R79, R80, R87). -/
theorem exec_command {p : List Byte} (he : encode i = .wire p)
    (hi : (∃ text, i = .wireM text) ∨ (∃ name value, i = .wireL name value) ∨
      (∃ kind u1 ts u2 name, i = .wireO kind u1 ts u2 name) ∨ i = .wireC ∨ i = .wireS) :
    exec i s = .next (s.pushLines (sendCmdLines p)) := by
  obtain ⟨_, rfl⟩ | ⟨_, _, rfl⟩ | ⟨_, _, _, _, _, rfl⟩ | rfl | rfl := hi <;> cases he <;> rfl

/-- Settles O50: `load`, ENC_CMD up to its last step or its failed check, and `poll`. -/
theorem wireCommandSendsItsCommandFrame : Obligations.WireCommandSendsItsCommandFrame := by
  intro s i p he hi
  refine ⟨exec_command he hi, fun n hn _ hidle => ?_⟩
  subst hn
  have hd : decodeWord 0x00000003 = .ok .encCmd := by decide
  obtain ⟨buf, hbuf, hrun⟩ := run_load_operation hidle hd nofun p
  have hlen := launched_len s 0x00000003 p buf
  have hfresh := launched_fresh s 0x00000003 p buf
  constructor
  · intro hmax
    have hu := encCmd_until_sealLo hfresh (hlen.trans_le hmax) (launched_loaded hbuf hmax) rfl
    rw [hlen] at hu
    have hall := hrun hu (launched_inFlight hd) (encCmd_at_sealLo rfl) (ended_finishResult _ _) rfl
    rw [show p.length + (p.length % 2 ^ 16 + 3) + 4 = p.length + p.length % 2 ^ 16 + 7 by omega] at hall
    refine ⟨_, hall, ?_, rfl, hlen, rfl, rfl, hbuf, rfl, rfl, rfl, rfl, rfl, rfl, rfl, rfl⟩
    simp [State.readReg, launched, cmdFrame, be16]
  · intro hmax
    have hstep := encCmd_tooLong (s := launched s 0x00000003 p buf) rfl (hlen ▸ hmax)
    exact ⟨_, hrun (k := 0) rfl (launched_inFlight hd) hstep (ended_raise _ _) rfl, rfl, rfl, hlen, rfl, rfl, hbuf, rfl,
      rfl, rfl, rfl, rfl, rfl, rfl, rfl⟩

/-- The header ENC_CHUNK makes of IN_LEN and OFFSET is that of the chunk payload of the bytes it reads. -/
theorem chunkPayload_take (off : Word) (d : List Byte) : chunkPayload off (d.take (d.length % 2 ^ 16)) =
    chunkHeader (BitVec.ofNat 16 d.length) off ++ d.take (d.length % 2 ^ 16) := by
  have hlen : BitVec.ofNat 16 (d.take (d.length % 2 ^ 16)).length = BitVec.ofNat 16 d.length := by
    apply BitVec.eq_of_toNat_eq
    simp [Nat.mod_le]
  rw [chunkPayload_eq, hlen]

/-- Settles O51: `wr OFFSET`, `load`, ENC_CHUNK up to its last step or its failed check, and `poll`. -/
theorem wireChunkSendsItsChunkFrame : Obligations.WireChunkSendsItsChunkFrame := by
  intro s off d
  refine ⟨rfl, fun m hm hcfg hidle => ?_⟩
  subst hm
  obtain ⟨⟨hin, -⟩, -⟩ := hcfg
  have hd : decodeWord 0x00000005 = .ok .encChunk := by decide
  have hoffset : step (s.pushLines (chunkLines off d)) =
      .next ({ s with offset := off }.pushLines (loadLines d ++ [HostLine.wr 0 0x00000005, HostLine.poll])) :=
    step_wr_offset (s := s.pushLines (chunkLines off d)) hidle.2 hidle.1 rfl
  obtain ⟨buf, hbuf, hrun⟩ := run_load_operation (s := { s with offset := off }) hidle hd nofun d
  have hlen := launched_len { s with offset := off } 0x00000005 d buf
  have hfresh := launched_fresh { s with offset := off } 0x00000005 d buf
  constructor
  · intro h1 hmax
    have hq := chunkPayload_take off d
    have hu := encChunk_until_sealLo hfresh (hlen.trans_le (hmax.trans hin)) (by omega) (hlen.trans_le hmax)
      (launched_loaded hbuf (hmax.trans hin)) hq
    rw [hlen] at hu
    have hall := (run_succ hoffset _).trans
      (hrun hu (launched_inFlight hd) (encChunk_at_sealLo rfl) (ended_finishResult _ _) rfl)
    rw [show d.length + (d.length % 2 ^ 16 + 9) + 4 + 1 = d.length + d.length % 2 ^ 16 + 14 by omega] at hall
    refine ⟨_, hall, ?_, ?_, hlen, rfl, rfl, hbuf, rfl, rfl, rfl, rfl, rfl, rfl, rfl, rfl⟩
    · simp [State.readReg, launched, chunkFrame, be16]
    · simp [State.readReg]
  · intro hbad
    have hstep := encChunk_badLen (s := launched { s with offset := off } 0x00000005 d buf) rfl (hlen ▸ hbad)
    have hall := (run_succ hoffset _).trans (hrun (k := 0) rfl (launched_inFlight hd) hstep (ended_raise _ _) rfl)
    exact ⟨_, hall, rfl, rfl, hlen, rfl, rfl, hbuf, rfl, rfl, rfl, rfl, rfl, rfl, rfl, rfl⟩

/-- `sig.tx` and `poll` from an idle block (41_encode.md R144). -/
theorem run_sigTxLines (hidle : s.idle) {a : Byte} (ha : a = 0x05 ∨ a = 0x06) :
    Host.Core.run Sys2Proof.core 3 (s.pushLines (sigTxLines a)) = .next
      ((((s.pushLines [.poll]).startOp ((a.setWidth 32 <<< 8) ||| 0x6)).emit a).finish.setProg s.hostProg |>.readReg 1)
    := by
  have hd := decodeWord_sigTx a
  have hsend : ∀ u : State, exec (.sigTx a) u = .next (u.emit a).finish := by
    intro u
    obtain rfl | rfl := ha <;> rfl
  exact run_operation (i := .sigTx a) (k := 0) hidle nofun rfl (State.startOp_inFlight _ hd) (hsend _) (ended_finish _)
    (State.startOp_hostProg ..)

/-- Settles O52: SIG_TX's one step, and `poll`. -/
theorem wireSignalSendsItsByte : Obligations.WireSignalSendsItsByte := by
  intro s i a hrow
  have hexec : exec i s = .next (s.pushLines (sigTxLines a)) := by obtain ⟨rfl, rfl⟩ | ⟨rfl, rfl⟩ := hrow <;> rfl
  refine ⟨hexec, fun hidle => ⟨_, run_sigTxLines hidle (by tauto), ?_⟩⟩
  rw [startOp_legal (decodeWord_sigTx a) nofun]
  exact ⟨rfl, rfl, rfl, rfl, rfl, rfl, rfl⟩

end Sys2Proof.Machine
end

section
/-! SUPPORT. The algebra of the checksums (40_checksum.md R110 to R119): the fold, the entry of the table and the step
are linear over exclusive or, and a step moves the accumulator up by a byte and adds one entry. -/

namespace Sys2Proof.Machine

/-! ## The fold (R110, R113) -/

/-- The fold gathers all eight right shifts. -/
theorem fold_eq_xor_shifts (x : Byte) :
    fold x = x ^^^ x >>> 1 ^^^ x >>> 2 ^^^ x >>> 3 ^^^ x >>> 4 ^^^ x >>> 5 ^^^ x >>> 6 ^^^ x >>> 7 := by
  simp only [fold, Byte, BitVec.ushiftRight_xor_distrib, ← BitVec.shiftRight_add, Nat.reduceAdd]
  ac_rfl

/-- Bits from 8 on are 0, so that the eight terms are those of R113 for every `i`. -/
theorem fold_getLsbD (x : Byte) (i : Nat) :
    (fold x).getLsbD i = ((List.range 8).map (fun j => x.getLsbD (i + j))).foldl Bool.xor false := by
  simp [fold_eq_xor_shifts, List.range_succ, Nat.add_comm i]

theorem fold_xor (x y : Byte) : fold (x ^^^ y) = fold x ^^^ fold y := by
  simp only [fold_eq_xor_shifts, BitVec.ushiftRight_xor_distrib]
  ac_rfl

/-- A bit of the byte at or above index 8 adds nothing to R113's sum. -/
theorem fold_getLsbD_of_lt (x : Byte) {i : Nat} (hi : i < 8) :
    (fold x).getLsbD i = ((List.range (8 - i)).map (fun j => x.getLsbD (i + j))).foldl Bool.xor false := by
  rw [fold_getLsbD]
  interval_cases i <;> simp [List.range_succ, BitVec.getLsbD_of_ge]

/-! ## The masks of R111 -/

theorem toNat_and_mask16 (w : Word) : (w &&& 0xFFFF).toNat = w.toNat % 65536 :=
  Nat.and_two_pow_sub_one_eq_mod w.toNat 16

theorem toNat_shiftLeft {n : Nat} (w : BitVec n) (k : Nat) : (w <<< k).toNat = w.toNat * 2 ^ k % 2 ^ n := by
  rw [BitVec.toNat_shiftLeft, Nat.shiftLeft_eq]

/-- A 16-bit shift by 15 keeps bit 0 only. -/
theorem shiftLeft_15_eq (x : Half) : x <<< 15 = (x &&& 1) <<< 15 := by
  have hbit : (x &&& 1).toNat = x.toNat % 2 := Nat.and_one_is_mod x.toNat
  apply BitVec.eq_of_toNat_eq
  rw [toNat_shiftLeft, toNat_shiftLeft, hbit]
  omega

/-- What the masks keep of a folded byte. -/
theorem masks_of_byte {y : Word} (hy : y.toNat ≤ 0xFF) :
    (y <<< 15) &&& (0xFFFF : Word) = (y &&& 1) <<< 15 ∧ (y <<< 2) &&& (0xFFFF : Word) = y <<< 2 ∧
      (y <<< 2).toNat ≤ 0x3FC ∧ y &&& (0xFFFF : Word) = y := by
  have hbit : (y &&& 1).toNat = y.toNat % 2 := Nat.and_one_is_mod y.toNat
  refine ⟨BitVec.eq_of_toNat_eq ?_, BitVec.eq_of_toNat_eq ?_, ?_, BitVec.eq_of_toNat_eq ?_⟩
  · rw [toNat_and_mask16, toNat_shiftLeft, toNat_shiftLeft, hbit]
    omega
  · rw [toNat_and_mask16, toNat_shiftLeft]
    omega
  · rw [toNat_shiftLeft]
    omega
  · rw [toNat_and_mask16]
    omega

/-- What the mask keeps of the accumulator moved up by a byte: its low byte. -/
theorem mask_of_accumulator (acc : Half) :
    ((acc.setWidth 32 : Word) <<< 8) &&& (0xFFFF : Word) = ((acc.extractLsb' 0 8).setWidth 32 : Word) <<< 8 := by
  apply BitVec.eq_of_toNat_eq
  rw [toNat_and_mask16, toNat_shiftLeft, toNat_shiftLeft, BitVec.toNat_setWidth, BitVec.toNat_setWidth, toNat_extract]
  omega

/-! ## The entry of the table (R117) and one step (R111, R114) -/

theorem xor_xor_swap {n : Nat} (a b c d : BitVec n) : a ^^^ b ^^^ (c ^^^ d) = a ^^^ c ^^^ (b ^^^ d) := by
  ac_rfl

/-- What a step adds to the accumulator for index `i`: the closed form of a table entry (R117). -/
def foldEntry (i : Byte) : Half :=
  (fold i).setWidth 16 <<< 15 ^^^ (fold i).setWidth 16 <<< 2 ^^^ (fold i).setWidth 16

theorem foldEntry_zero : foldEntry 0#8 = 0#16 := rfl

theorem foldEntry_xor (i j : Byte) : foldEntry (i ^^^ j) = foldEntry i ^^^ foldEntry j := by
  unfold foldEntry
  rw [fold_xor, BitVec.setWidth_xor, BitVec.shiftLeft_xor_distrib, BitVec.shiftLeft_xor_distrib,
    xor_xor_swap ((fold i).setWidth 16 <<< 15), xor_xor_swap]

/-- The table's entries (R116) against their closed form (R117), all 256 of them. -/
theorem crcEntry_eq_foldEntry : ∀ i : Byte, crcEntry i = foldEntry i := by decide +kernel

/-- A step of the Command Checksum has the shape of R114: the accumulator moved up by a byte, and one entry. -/
theorem cmdStep_eq (acc : Half) (b : Byte) : cmdStep acc b = acc <<< 8 ^^^ foldEntry (b ^^^ hiByte acc) := by
  unfold cmdStep foldEntry
  rw [BitVec.xor_assoc, BitVec.xor_assoc, BitVec.xor_assoc]

/-- The two steps are equal (R118): the same shift, and the table entry is the closed form. -/
theorem cmdStep_eq_crcStep (acc : Half) (b : Byte) : cmdStep acc b = crcStep acc b := by
  rw [cmdStep_eq, crcStep, crcEntry_eq_foldEntry, BitVec.xor_comm b]

theorem cmdStep_zero (b : Byte) : cmdStep 0 b = foldEntry b := by
  rw [cmdStep_eq, show hiByte 0 = 0#8 from rfl, BitVec.xor_zero]
  exact BitVec.zero_xor

theorem hiByte_xor (v w : Half) : hiByte (v ^^^ w) = hiByte v ^^^ hiByte w := BitVec.extractLsb'_xor ..

theorem cmdStep_xor (v w : Half) (a b : Byte) : cmdStep (v ^^^ w) (a ^^^ b) = cmdStep v a ^^^ cmdStep w b := by
  rw [cmdStep_eq, cmdStep_eq, cmdStep_eq, hiByte_xor, xor_xor_swap a, foldEntry_xor, BitVec.shiftLeft_xor_distrib,
    xor_xor_swap (v <<< 8)]

/-- The accumulator's high byte cancels its index. -/
theorem cmdStep_hiByte (acc : Half) : cmdStep acc (hiByte acc) = acc <<< 8 := by
  rw [cmdStep_eq, BitVec.xor_self, foldEntry_zero, BitVec.xor_zero]

theorem hiByte_shiftLeft (v : Half) : hiByte (v <<< 8) = loByte v := by
  apply BitVec.eq_of_toNat_eq
  rw [hiByte, loByte, toNat_extract, toNat_extract, toNat_shiftLeft]
  omega

/-! ## Sequences (R118, R119) -/

theorem cmdChecksum_eq_crc16 (s : List Byte) : cmdChecksum s = crc16 s := by
  rw [cmdChecksum, crc16, show cmdStep = crcStep from funext₂ cmdStep_eq_crcStep]

/-- A sequence sealed with its checksum has residue 0. -/
theorem cmdChecksum_append_be16 (s : List Byte) : cmdChecksum (s ++ be16 (cmdChecksum s)) = 0 := by
  generalize hacc : cmdChecksum s = acc
  have hsecond : cmdStep (acc <<< 8) (loByte acc) = acc <<< 8 <<< 8 := by
    rw [← hiByte_shiftLeft, cmdStep_hiByte]
  calc cmdChecksum (s ++ be16 acc)
      = cmdStep (cmdStep acc (hiByte acc)) (loByte acc) := by rw [cmdChecksum_append, hacc]; rfl
    _ = acc <<< 8 <<< 8 := by rw [cmdStep_hiByte, hsecond]
    _ = 0 := by rw [← BitVec.shiftLeft_add]; exact BitVec.shiftLeft_eq_zero (by decide)

/-- A leading 0x00 leaves the accumulator at 0x0000. -/
theorem cmdChecksum_zero_cons (s : List Byte) : cmdChecksum (0x00 :: s) = cmdChecksum s := by
  have hstep : cmdStep 0 0x00 = 0 := rfl
  rw [cmdChecksum, List.foldl_cons, hstep, cmdChecksum]

/-- Linearity from any two accumulators. -/
theorem foldl_cmdStep_xor (a : List Byte) : ∀ (b : List Byte) (v w : Half), a.length = b.length →
    (List.zipWith (· ^^^ ·) a b).foldl cmdStep (v ^^^ w) = a.foldl cmdStep v ^^^ b.foldl cmdStep w := by
  induction a with
  | nil =>
    intro b v w h
    rw [List.length_eq_zero_iff.mp h.symm]
    rfl
  | cons x a ih =>
    intro b v w h
    cases b with
    | nil => cases h
    | cons y b =>
      rw [List.zipWith_cons_cons, List.foldl_cons, cmdStep_xor, ih b _ _ (Nat.succ.inj h)]
      rfl

theorem cmdChecksum_xor {a b : List Byte} (h : a.length = b.length) :
    cmdChecksum (List.zipWith (· ^^^ ·) a b) = cmdChecksum a ^^^ cmdChecksum b :=
  foldl_cmdStep_xor a b 0 0 h

/-! ## The statements -/

/-- Settles O28: the table entry is the closed form of what the Command Checksum's step adds. -/
theorem theTwoChecksumsAreOneFunction : Obligations.TheTwoChecksumsAreOneFunction :=
  ⟨cmdStep_eq_crcStep, cmdChecksum_eq_crc16⟩

/-- Settles O29: each law for the Command Checksum, and by R118 for CRC-16/BUYPASS. -/
theorem checksumLaws : Obligations.ChecksumLaws := by
  have hresidue := cmdChecksum_append_be16
  have hcheck : cmdChecksum [0x31, 0x32, 0x33, 0x34, 0x35, 0x36, 0x37, 0x38, 0x39] = 0xFEE8 := by
    decide +kernel
  simp only [Obligations.ChecksumLaws, ← cmdChecksum_eq_crc16, and_self]
  refine ⟨hresidue, fun p => ⟨hresidue (p ++ [0x03]), ?_⟩, ⟨rfl, cmdChecksum_zero_cons⟩, fun a b => cmdChecksum_xor,
    hcheck⟩
  rw [chunkFrame, ← cmdChecksum_eq_crc16]
  exact hresidue p

/-- Settles O26, by the eight shifts of the fold, and the masks as remainders. -/
theorem foldBitIsXorOfHigherBits : Obligations.FoldBitIsXorOfHigherBits := by
  refine ⟨fun x i => fold_getLsbD_of_lt x, fun x y hy => ?_, mask_of_accumulator⟩
  have hbyte : y.toNat ≤ 0xFF := by
    rw [hy, BitVec.toNat_setWidth]
    omega
  obtain ⟨hfirst, hsecond, hbound, hthird⟩ := masks_of_byte hbyte
  exact ⟨hfirst, hsecond, hbound, hthird, hbyte⟩

/-- Settles O27: a step from 0x0000 is a table entry. -/
theorem crcTableIsRecovered : Obligations.CrcTableIsRecovered := by
  refine ⟨by decide +kernel, fun i => ?_⟩
  have hentry : crcEntry i = cmdStep 0 i := by rw [cmdStep_zero, crcEntry_eq_foldEntry]
  refine ⟨?_, hentry, hentry, ?_⟩
  · rw [hentry, cmdStep_eq_crcStep]
  · rw [crcEntry_eq_foldEntry, foldEntry, shiftLeft_15_eq]

end Sys2Proof.Machine
end

section
/-! SUPPORT. The whole runs of CKS_CMD and CKS_CRC (40_checksum.md R121, R122) and their failed length checks. -/

namespace Sys2Proof.Machine

variable {s : State} {bytes : List Byte}

/-- An operation over IN of one step, one pass for each byte of IN and one step that ends it (log 1). -/
theorem execTimes_start_loop_end {i : Instr} {f : Byte → State → State} {u t : State} (keeps : PassKeeps f)
    (pass : ∀ v b, v.phase = .body → v.idx.toNat < v.len → v.readIn v.idx.toNat = some b → exec i v = .next (f b v))
    (start : exec i s = .next u) (hphase : u.phase = .body) (hidx : u.idx = 0) (hlen : u.len = s.len)
    (hloaded : u.loaded bytes) (last : exec i (bytes.foldl (fun v b => f b v) u) = .next t) :
    execTimes (s.len + 2) i s = .next t := by
  have hloop := loop_over_input keeps pass hphase hidx hloaded
  calc execTimes (s.len + 2) i s
      = execTimes (u.len + 1) i u := by rw [hlen]; exact execTimes_succ start (s.len + 1)
    _ = execTimes 1 i (bytes.foldl (fun v b => f b v) u) := execTimes_add hloop 1
    _ = .next t := execTimes_succ last 0

theorem cksCmd_tooLong (hp : s.phase = .start) (hl : s.cfg.inMax < s.len) :
    exec .cksCmd s = .next (s.raise .badLen) := by
  simp only [exec, execCksCmd, hp, State.tooLong_of_lt hl, if_true]

theorem cksCrc_tooLong (hp : s.phase = .start) (hl : s.cfg.inMax < s.len) :
    exec .cksCrc s = .next (s.raise .badLen) := by
  simp only [exec, execCksCrc, hp, State.tooLong_of_lt hl, if_true]

theorem cksCmd_run (hs : s.fresh) (hl : s.len ≤ s.cfg.inMax) (hb : s.loaded bytes) :
    execTimes (s.len + 2) .cksCmd s =
      .next ({ s with accCmd := cmdChecksum bytes }.finishResult (cmdChecksum bytes)) := by
  obtain ⟨hphase, hidx⟩ := hs
  refine execTimes_start_loop_end cksCmdPass_keeps (fun _ _ => cksCmd_pass) (cksCmd_start hphase hl) rfl hidx rfl hb ?_
  rw [foldl_cksCmdPass, ofNat_length_of_loaded hb]
  exact cksCmd_end rfl (by simp [hidx, State.len])

theorem cksCrc_run (hs : s.fresh) (hl : s.len ≤ s.cfg.inMax) (hb : s.loaded bytes) :
    execTimes (s.len + 2) .cksCrc s = .next ({ s with accCrc := crc16 bytes }.finishResult (crc16 bytes)) := by
  obtain ⟨hphase, hidx⟩ := hs
  refine execTimes_start_loop_end cksCrcPass_keeps (fun _ _ => cksCrc_pass) (cksCrc_start hphase hl) rfl hidx rfl hb ?_
  rw [foldl_cksCrcPass, ofNat_length_of_loaded hb]
  exact cksCrc_end rfl (by simp [hidx, State.len])

/-- Settles O30: the length check, or the loop over IN from a cleared accumulator. -/
theorem cksCmdComputesCommandChecksum : Obligations.CksCmdComputesCommandChecksum :=
  fun _ hs => ⟨cksCmd_tooLong hs.1, fun hl _ => cksCmd_run hs hl⟩

/-- Settles O31: the length check, or the loop over IN from a cleared accumulator. -/
theorem cksCrcComputesCrc : Obligations.CksCrcComputesCrc :=
  fun _ hs => ⟨cksCrc_tooLong hs.1, fun hl _ => cksCrc_run hs hl⟩

/-- Settles O32: the first step, a pass of the loop and the last step of each operation. -/
theorem checksumOperationsStepByStep : Obligations.ChecksumOperationsStepByStep :=
  fun _ =>
    ⟨fun hp hl => ⟨cksCmd_start hp hl, cksCrc_start hp hl⟩,
      fun _ hp hi hr => ⟨cksCmd_pass hp hi hr, cksCrc_pass hp hi hr⟩,
      fun hp hi => ⟨cksCmd_end hp hi, cksCrc_end hp hi⟩⟩

end Sys2Proof.Machine
end

section
/-! SUPPORT. The encoders (41_encode.md R140 to R145): the steps the files above do not name yet, the whole run of each
operation, and what every step of them emits and keeps. -/

namespace Sys2Proof.Machine

variable {s t : State} {i : Instr} {p d bytes : List Byte} {b : Byte}

/-! ## Single steps -/

theorem encRaw_start_empty (hp : s.phase = .start) (hl : s.len ≤ s.cfg.inMax) (h0 : s.len = 0) :
    exec .encRaw s = .next (s.emit 0x02).finish := by
  simp only [exec, execEncRaw, hp, State.not_tooLong hl, Bool.false_eq_true, if_false, h0, if_true]

theorem encCmd_marker (hp : s.phase = .body) (hi : s.len ≤ s.idx.toNat) :
    exec .encCmd s = .next { s.emit 0x03 with accCmd := cmdStep s.accCmd 0x03, phase := .sealHi } := by
  simp only [exec, execEncCmd, hp, State.not_more hi, Bool.false_eq_true, if_false]

theorem encCmd_at_sealHi (hp : s.phase = .sealHi) :
    exec .encCmd s = .next { s.emit (hiByte s.accCmd) with phase := .sealLo } := by
  simp only [exec, execEncCmd, hp]

/-- One header step of ENC_CHUNK: the header has 7 bytes, so byte 6 is its last (41_encode.md R143). -/
theorem encChunk_headerByte {j : Nat} (hp : s.phase = .header j) (hb : (chunkHeader s.inLen s.offset)[j]? = some b) :
    exec .encChunk s = .next
      { s.emit b with accCrc := crcStep s.accCrc b, phase := if j = 6 then .body else .header (j + 1) } := by
  have hj : j < 7 := (List.getElem?_eq_some_iff.1 hb).1
  have hbyte : s.headerByte j = b := by rw [State.headerByte, List.getD_eq_getElem?_getD, hb, Option.getD_some]
  have hphase : (if j < 6 then Phase.header (j + 1) else .body) = if j = 6 then .body else .header (j + 1) := by
    obtain hlt | rfl : j < 6 ∨ j = 6 := by omega
    · rw [if_pos hlt, if_neg (Nat.ne_of_lt hlt)]
    · rfl
  simp only [exec, execEncChunk, hp, hbyte, hphase]

theorem encRaw_tooLong (hp : s.phase = .start) (hl : s.cfg.inMax < s.len) :
    exec .encRaw s = .next (s.raise .badLen) := by
  simp only [exec, execEncRaw, hp, State.tooLong_of_lt hl, if_true]

theorem encChunk_tooLong (hp : s.phase = .start) (hl : s.cfg.inMax < s.len) :
    exec .encChunk s = .next (s.raise .badLen) := by
  simp only [exec, execEncChunk, hp, State.tooLong_of_lt hl, if_true]

/-! ## Whole runs -/

/-- ENC_CMD sends the command frame of IN[0:IN_LEN], and RESULT and ACC_CMD are its seal (41_encode.md R141). -/
theorem encCmd_run (hs : s.fresh) (hl : s.len ≤ s.cfg.inMax) (hp : s.loaded p) :
    execTimes (s.len + 4) .encCmd s = .next
      ({ s with txs := s.txs ++ cmdFrame p, accCmd := cmdChecksum (p ++ [0x03]) }.finishResult
        (cmdChecksum (p ++ [0x03]))) := by
  refine (execTimes_add (encCmd_until_sealLo hs hl hp rfl) 1).trans ((execTimes_succ (encCmd_at_sealLo rfl) 0).trans ?_)
  simp [execTimes, State.finishResult, State.finish, State.emit, cmdFrame, be16]

/-- The loop of ENC_RAW over all bytes of IN but the last. -/
theorem encRaw_loop {init : List Byte} (hphase : s.phase = .body) (hidx : s.idx = 0)
    (hinit : s.spanIn 0 init.length = .ok init) (hlen : init.length < s.len) :
    execTimes init.length .encRaw s = .next (init.foldl (fun t b => encRawPass b t) s) := by
  have hz : s.idx.toNat = 0 := by rw [hidx]; rfl
  refine byte_loop (len := s.inLen) (Nat.le_of_lt hlen) encRawPass_keeps ?_ init.length s init hphase rfl rfl
    (by omega) (by rw [hz]; exact hinit)
  intro u b hu hul _ hi hr
  have hulen : u.len = s.len := by unfold State.len; rw [hul]
  exact encRaw_pass hu (by omega) hr

/-- ENC_RAW sends 0x02 and the bytes of IN (41_encode.md R142). -/
theorem encRaw_run (hs : s.fresh) (hl : s.len ≤ s.cfg.inMax) (hb : s.loaded bytes) :
    execTimes (s.len + 1) .encRaw s = .next (State.finish { s with txs := s.txs ++ 0x02 :: bytes }) := by
  obtain ⟨hphase, hidx⟩ := hs
  have hlen := Memory.span_length hb
  obtain rfl | ⟨init, last, rfl⟩ := bytes.eq_nil_or_concat'
  · have h0 : s.len = 0 := hlen.symm
    rw [h0]
    exact execTimes_succ (encRaw_start_empty hphase hl h0) 0
  · rw [List.length_append, List.length_singleton] at hlen
    have hinit : s.spanIn 0 init.length = .ok init := by
      simpa [State.spanIn] using Memory.span_sub hb 0 init.length (by omega)
    have hlast : s.readIn init.length = some last := by
      simpa using State.readIn_of_loaded hb (j := init.length) (by omega)
    have hn : (s.idx + BitVec.ofNat 16 init.length).toNat = init.length := by
      have := s.inLen.isLt
      rw [hidx, zero_add, BitVec.toNat_ofNat]
      unfold State.len at hlen
      omega
    have hloop := encRaw_loop (s := { s.emit 0x02 with phase := .body }) rfl hidx hinit (by show _ < s.len; omega)
    rw [foldl_encRawPass] at hloop
    rw [← hlen, execTimes_succ (encRaw_start hphase hl (by omega))]
    refine (execTimes_add hloop 1).trans ((execTimes_succ (encRaw_end (b := last) rfl ?_ ?_) 0).trans ?_)
    · show s.len ≤ (s.idx + BitVec.ofNat 16 init.length).toNat + 1
      omega
    · show s.readIn (s.idx + BitVec.ofNat 16 init.length).toNat = some last
      rw [hn, hlast]
    · simp [execTimes, State.finish, State.emit]

/-- ENC_CHUNK sends the chunk-write frame of its payload `q`, and RESULT and ACC_CRC are its seal (41_encode.md
R143). -/
theorem encChunk_run (hs : s.fresh) (hl : s.len ≤ s.cfg.inMax) (h0 : s.len ≠ 0) (hm : s.len ≤ Config.chunkMax)
    (hd : s.loaded d) {q : List Byte} (hq : q = chunkHeader s.inLen s.offset ++ d) :
    execTimes (s.len + 10) .encChunk s = .next
      ({ s with txs := s.txs ++ chunkFrame q, accCrc := crc16 q }.finishResult (crc16 q)) := by
  refine (execTimes_add (encChunk_until_sealLo hs hl h0 hm hd hq) 1).trans
    ((execTimes_succ (encChunk_at_sealLo rfl) 0).trans ?_)
  simp [execTimes, State.finishResult, State.finish, State.emit, chunkFrame, be16]

/-! ## What a step emits -/

/-- One byte has been emitted, or the operation's first check has failed and nothing has (41_encode.md R140). -/
def EmitsOrFails (s t : State) : Prop :=
  (∃ b, t.txs = s.txs ++ [b]) ∨
    (s.phase = .start ∧ t.txs = s.txs ∧ t.status.done = true ∧ (t.status.err = 2 ∨ t.status.err = 3))

theorem emitsOrFails_badLen (hp : s.phase = .start) : EmitsOrFails s (s.raise .badLen) :=
  .inr ⟨hp, rfl, rfl, .inl rfl⟩

theorem execEncCmd_emits (hp : phaseFits .encCmd s.phase = true) (h : execEncCmd s = .next t) : EmitsOrFails s t := by
  obtain ⟨hs, -, rfl⟩ | ⟨-, -, rfl⟩ | ⟨b, -, -, -, rfl⟩ | ⟨-, -, rfl⟩ | ⟨-, rfl⟩ | ⟨-, rfl⟩ | ⟨j, hj, -⟩ :=
    execEncCmd_next h
  · exact emitsOrFails_badLen hs
  · exact .inl ⟨_, rfl⟩
  · exact .inl ⟨_, rfl⟩
  · exact .inl ⟨_, rfl⟩
  · exact .inl ⟨_, rfl⟩
  · exact .inl ⟨_, rfl⟩
  · simp [hj, phaseFits] at hp

theorem execEncRaw_emits (hp : phaseFits .encRaw s.phase = true) (h : execEncRaw s = .next t) : EmitsOrFails s t := by
  obtain ⟨hs, -, rfl⟩ | ⟨-, -, -, rfl⟩ | ⟨-, -, -, rfl⟩ | ⟨b, -, -, -, rfl⟩ | ⟨b, -, -, -, rfl⟩ | ⟨hn, hn', -⟩ :=
    execEncRaw_next h
  · exact emitsOrFails_badLen hs
  · exact .inl ⟨_, rfl⟩
  · exact .inl ⟨_, rfl⟩
  · exact .inl ⟨_, rfl⟩
  · exact .inl ⟨_, rfl⟩
  · simp [hn, hn', phaseFits] at hp

theorem execEncChunk_emits (hp : phaseFits .encChunk s.phase = true) (h : execEncChunk s = .next t) :
    EmitsOrFails s t := by
  obtain ⟨hs, -, rfl⟩ | ⟨d, -, -, -, -, -, rfl⟩ | ⟨j, -, rfl⟩ | ⟨b, -, -, -, rfl⟩ | ⟨-, -, rfl⟩ | ⟨-, rfl⟩ |
    ⟨hn, -⟩ := execEncChunk_next h
  · exact emitsOrFails_badLen hs
  · exact .inl ⟨_, rfl⟩
  · exact .inl ⟨_, rfl⟩
  · exact .inl ⟨_, rfl⟩
  · exact .inl ⟨_, rfl⟩
  · exact .inl ⟨_, rfl⟩
  · simp [hn, phaseFits] at hp

theorem execSigTx_emits {a : Byte} (hp : phaseFits (.sigTx a) s.phase = true) (h : execSigTx a s = .next t) :
    EmitsOrFails s t := by
  rw [execSigTx_eq] at h
  cases h
  split
  · exact .inr ⟨by simpa [phaseFits] using hp, rfl, rfl, .inr rfl⟩
  · exact .inl ⟨_, rfl⟩

/-- An encoder keeps what the reader and the verifications write (10_state.md R42). -/
theorem OpStep.reader_verdict_kept (h : OpStep i s t) (hi : Emits i) :
    t.rxq = s.rxq ∧ t.rxBuf = s.rxBuf ∧ t.rxLen = s.rxLen ∧ t.plen = s.plen ∧ t.signal = s.signal ∧
    t.recv = s.recv ∧ t.status.kind = s.status.kind := by
  have hver : i ≠ .verCmd ∧ i ≠ .verCrc := by
    obtain rfl | rfl | rfl | ⟨a, rfl⟩ := hi <;> exact ⟨nofun, nofun⟩
  obtain ⟨hlen, hsignal, hbuf, -, hq, hkind⟩ := h.reader_kept
  obtain ⟨hrecv, hplen, -, -⟩ := h.verdict_kept hver.1 hver.2
  exact ⟨hq, hbuf, hlen, hplen, hsignal, hrecv, hkind⟩

/-! ## The statements -/

/-- Settles O34: the length check, or the run of ENC_CMD. -/
theorem encCmdEmitsTheCommandFrame : Obligations.EncCmdEmitsTheCommandFrame := by
  intro s hs
  refine ⟨encCmd_tooLong hs.1, fun hl p hp => ?_⟩
  rw [show s.txs ++ [0x02] ++ p ++ [0x03] ++ be16 (cmdChecksum (p ++ [0x03])) = s.txs ++ cmdFrame p by simp [cmdFrame]]
  exact encCmd_run hs hl hp

/-- Settles O35: the length check, or the run of ENC_RAW. -/
theorem encRawEmitsThePresealedBytes : Obligations.EncRawEmitsThePresealedBytes := by
  intro s hs
  refine ⟨encRaw_tooLong hs.1, fun hl bytes hb => ?_⟩
  rw [List.append_assoc s.txs]
  exact encRaw_run hs hl hb

/-- Settles O36: the three parts of the length check, or the run of ENC_CHUNK. -/
theorem encChunkEmitsTheChunkFrame : Obligations.EncChunkEmitsTheChunkFrame := by
  intro s hs
  refine ⟨fun hbad => ?_, fun hl h1 hm d hd q hq => ?_⟩
  · obtain hl | hlen := hbad
    · exact encChunk_tooLong hs.1 hl
    · exact encChunk_badLen hs.1 hlen
  · rw [show s.txs ++ [0x02] ++ q ++ be16 (crc16 q) = s.txs ++ chunkFrame q by simp [chunkFrame]]
    exact encChunk_run hs hl (by omega) hm hd hq

/-- Settles O37: the two branches of SIG_TX. -/
theorem sigTxEmitsOneSignalByte : Obligations.SigTxEmitsOneSignalByte := by
  intro s a
  refine ⟨fun ha => ?_, fun h5 h6 => ?_⟩
  · exact (execSigTx_eq a s).trans (by rw [if_neg (by tauto)]; rfl)
  · exact (execSigTx_eq a s).trans (by rw [if_pos ⟨h5, h6⟩]; rfl)

/-- Settles O38: the byte by each operation's cases, what is kept by the shape of an ENGINE step. -/
theorem encodersEmitOneBytePerStep : Obligations.EncodersEmitOneBytePerStep := by
  intro s t i hi hp h
  obtain rfl | rfl | rfl | ⟨a, rfl⟩ := hi
  · exact ⟨execEncCmd_emits hp h, (execEncCmd_opStep h).reader_verdict_kept (.inl rfl)⟩
  · exact ⟨execEncRaw_emits hp h, (execEncRaw_opStep h).reader_verdict_kept (.inr (.inl rfl))⟩
  · exact ⟨execEncChunk_emits hp h, (execEncChunk_opStep h).reader_verdict_kept (.inr (.inr (.inl rfl)))⟩
  · exact ⟨execSigTx_emits hp h, (execSigTx_opStep h).reader_verdict_kept (.inr (.inr (.inr ⟨a, rfl⟩)))⟩

/-- Settles O39: each step by its lemma; ENC_RAW ends with its 0x02 when IN_LEN = 0, and else with its last byte. -/
theorem encodersStepByStep : Obligations.EncodersStepByStep := by
  intro s
  refine ⟨fun hp hl => ⟨encCmd_start hp hl, ?_, fun ⟨d, hd⟩ h1 hm => encChunk_start hp hl (by omega) hm hd⟩,
    fun j b hp hb => encChunk_headerByte hp hb,
    fun b hp hi hr => ⟨encCmd_pass hp hi hr, ?_, encChunk_pass hp hi hr⟩,
    fun hp hi => ⟨encCmd_marker hp hi, encChunk_sealHi hp hi⟩, encCmd_at_sealHi,
    fun hp => ⟨encCmd_at_sealLo hp, encChunk_at_sealLo hp⟩⟩
  · split
    · next h0 => exact encRaw_start_empty hp hl h0
    · next h0 => exact encRaw_start hp hl h0
  · split
    · next hlast => exact encRaw_end hp (by omega) hr
    · next hmore => exact encRaw_pass hp (by omega) hr

/-- Settles O40: both runs send the chunk-write frame. -/
theorem encRawOfSealedChunkEqualsEncChunk : Obligations.EncRawOfSealedChunkEqualsEncChunk := by
  intro s1 s2 d hs1 hs2 hd h1 hm hl1 hl2 hsealed
  have hlen1 : d.length = s1.len := Memory.span_length hd
  have hlen2 : d.length + 9 = s2.len := by
    rw [← Memory.span_length hsealed]
    simp [chunkPayload, be16, be32]
  have hq : chunkPayload s1.offset d = chunkHeader s1.inLen s1.offset ++ d := by
    simp [chunkPayload, chunkHeader, ofNat_length_of_loaded hd]
  have hchunk := encChunk_run hs1 hl1 (by omega) (hlen1 ▸ hm) hd hq
  have hraw := encRaw_run hs2 hl2 hsealed
  rw [← hlen1] at hchunk
  rw [← hlen2] at hraw
  exact ⟨_, _, chunkFrame (chunkPayload s1.offset d), hchunk, hraw, rfl, rfl⟩

end Sys2Proof.Machine
end

section
/-! SUPPORT. The round trip of command frames (41_encode.md R146): VER_CMD on a frame with its markers, and RX_FRAME on
the bytes up to two after the first 0x03 (42_decode.md R174, R175). -/

namespace Sys2Proof.Machine

variable {s : State} {p pre noise rest : List Byte} {hi lo : Byte}

theorem cmdFrame_eq (p : List Byte) : cmdFrame p =
    0x02 :: (p ++ [0x03, hiByte (cmdChecksum (p ++ [0x03])), loByte (cmdChecksum (p ++ [0x03]))]) := by
  simp [cmdFrame, be16]

theorem cmdFrame_length (p : List Byte) : (cmdFrame p).length = p.length + 4 := by
  simp [cmdFrame_eq]

/-! ## VER_CMD -/

/-- VER_CMD compares the two bytes after a frame's end marker with the checksum of what stands between 0x02 and them
(42_decode.md R180). -/
theorem verCmd_verdict (hl : s.len ≤ s.cfg.inMax) (hF : s.loaded (0x02 :: (p ++ [0x03, hi, lo]))) :
    exec .verCmd s = .next (s.verdictCmd (cmdChecksum (p ++ [0x03])) (ofBe16 hi lo) (s.inLen - 4)) := by
  have hlen : s.len = p.length + 4 := by
    rw [← Memory.span_length hF]
    simp
  have byte : ∀ j, j < s.len → s.readIn j = (0x02 :: (p ++ [0x03, hi, lo]))[j]? := fun j => State.readIn_of_loaded hF
  have hfirst : s.readIn 0 = some 0x02 := byte 0 (by omega)
  have hmarker : s.readIn (p.length + 1) = some 0x03 := by rw [byte _ (by omega)]; simp
  have hhi : s.readIn (p.length + 2) = some hi := by rw [byte _ (by omega)]; simp
  have hlo : s.readIn (p.length + 3) = some lo := by rw [byte _ (by omega)]; simp
  have hcovered : s.spanIn 1 (p.length + 1) = .ok (p ++ [0x03]) := by
    have htake : (p ++ [0x03, hi, lo]).take (p.length + 1) = p ++ [0x03] := List.take_length_add_append 1
    rw [State.spanIn, Memory.span_sub hF 1 (p.length + 1) (by omega), List.drop_one, List.tail_cons, htake]
  simp [exec, execVerCmd, State.not_tooLong hl, verifyIn, hlen, hfirst, hmarker, hhi, hlo, hcovered]

/-! ## RX_FRAME -/

/-- The completion law (42_decode.md R174): the frame ends two bytes after its first 0x03, and the rest stays in RXQ. -/
theorem reader_completes (hw : s.cfg.wf) (hf : s.inFlight = some .rxFrame) (hs : s.rxFresh)
    (hn : ∀ x ∈ noise, x ≠ 0x02 ∧ x ≠ 0x05 ∧ x ≠ 0x06) (hpre : ¬ (0x03 : Byte) ∈ pre)
    (hm : pre.length + 4 ≤ s.cfg.rxMax) (hq : s.rxq = noise ++ 0x02 :: (pre ++ 0x03 :: hi :: lo :: rest)) :
    engineTimes (noise.length + (pre.length + 4)) s = .next
      { s with
        rxq := rest, rxInf := true, rxLen := BitVec.ofNat 16 (pre.length + 4),
        rxBuf := Memory.ofBytes ([0x02] ++ pre ++ [0x03, hi, lo]), result := cmdChecksum (pre ++ [0x03]),
        accCmd := cmdChecksum (pre ++ [0x03]), recv := ofBe16 hi lo, plen := BitVec.ofNat 16 pre.length, opcur := none,
        idx := 0, phase := .start,
        status :=
          { s.status with
            busy := false, done := true, kind := 2, ckValid := true,
            ckOk := decide (cmdChecksum (pre ++ [0x03]) = ofBe16 hi lo),
            err := if cmdChecksum (pre ++ [0x03]) = ofBe16 hi lo then s.status.err else 7 } } := by
  obtain ⟨-, -, hmax⟩ := hw
  have hopen := reader_to_open (more := pre ++ [0x03, hi]) (rest := lo :: rest) hf hs (by simpa using hq) hn
    (by simp; omega) hmax (by simpa [List.take_append] using hpre)
  have hend := reader_finish (pre := pre) (hi := hi)
    (s := { s with
      rxq := lo :: rest, rxInf := true, rxBuf := Memory.ofBytes ([0x02] ++ (pre ++ [0x03, hi])),
      rxLen := BitVec.ofNat 16 ((pre ++ [0x03, hi]).length + 1) })
    hf rfl ⟨rfl, by simp, by simp; omega⟩ rfl (by omega)
  have hcount : noise.length + (pre.length + 4) = noise.length + ((pre ++ [0x03, hi]).length + 1) + 1 := by
    rw [List.length_append]
    rfl
  rw [hcount]
  exact (engineTimes_add hopen 1).trans (engineTimes_succ hend 0)

/-- The byte that fills RX_BUF without completing the frame (42_decode.md R175). -/
theorem reader_fills {bytes : List Byte} {b : Byte} (hf : s.inFlight = some .rxFrame) (hinf : s.rxInf = true)
    (hst : s.HasStored bytes) (hq : s.rxq = b :: rest) (hc : ¬FrameComplete (bytes ++ [b]))
    (hm : bytes.length + 1 = s.cfg.rxMax) (hmax : s.cfg.rxMax ≤ 65535) :
    engineTurn s = .next
      { s with
        rxq := rest, rxLen := BitVec.ofNat 16 s.cfg.rxMax, rxBuf := Memory.ofBytes (bytes ++ [b]), opcur := none,
        idx := 0, phase := .start, status := { s.status with busy := false, done := true, err := 4 } } := by
  have hst' : State.HasStored { s with rxq := rest } bytes := ⟨hst.buf, hst.len, hst.small⟩
  obtain ⟨hbuf, hlen, -⟩ := hst'.append (by omega) b
  rw [List.length_append, List.length_singleton, hm] at hlen
  rw [engineTurn_of_inFlight hf, rxFrame_take hq, rxTake_overflow hst' hinf (by omega) hc hm, ← hbuf, ← hlen]
  rfl

/-- The overflow law (42_decode.md R175): a frame still open at RX_MAX bytes ends with RX_OVERFLOW, and the rest stays
in RXQ. -/
theorem reader_overflows {body : List Byte} (hw : s.cfg.wf) (hf : s.inFlight = some .rxFrame) (hs : s.rxFresh)
    (hn : ∀ x ∈ noise, x ≠ 0x02 ∧ x ≠ 0x05 ∧ x ≠ 0x06) (hm : body.length + 1 = s.cfg.rxMax)
    (hbody : ¬ (0x03 : Byte) ∈ body.take (body.length - 2)) (hq : s.rxq = noise ++ 0x02 :: (body ++ rest)) :
    engineTimes (noise.length + s.cfg.rxMax) s = .next
      { s with
        rxq := rest, rxInf := true, rxLen := BitVec.ofNat 16 s.cfg.rxMax, rxBuf := Memory.ofBytes ([0x02] ++ body),
        opcur := none, idx := 0, phase := .start,
        status := { s.status with busy := false, done := true, err := 4 } } := by
  obtain ⟨-, hmin, hmax⟩ := hw
  obtain rfl | ⟨init, last, rfl⟩ := body.eq_nil_or_concat'
  · simp at hm
    omega
  · have hincomplete : ¬FrameComplete ([0x02] ++ init ++ [last]) := by
      have h := not_complete (le_refl _) hbody
      rwa [List.take_length, ← List.append_assoc] at h
    rw [List.length_append, List.length_singleton] at hm hbody
    have hstored : ([0x02] ++ init : List Byte).length = init.length + 1 := by simp [Nat.add_comm]
    have hinit : ¬ (0x03 : Byte) ∈ init.take (init.length - 2) := fun h => hbody (by
      rw [List.take_append_of_le_length (by omega)]
      exact List.take_subset_take_left init (by omega) h)
    have hopen := reader_to_open (more := init) (rest := last :: rest) hf hs (by simpa using hq) hn (by omega) hmax hinit
    have hend := reader_fills (bytes := [0x02] ++ init)
      (s := { s with
        rxq := last :: rest, rxInf := true, rxBuf := Memory.ofBytes ([0x02] ++ init),
        rxLen := BitVec.ofNat 16 (init.length + 1) })
      hf rfl ⟨rfl, by rw [hstored], by omega⟩ rfl hincomplete (by rw [hstored]; exact hm) hmax
    rw [List.append_assoc] at hend
    rw [← hm, ← Nat.add_assoc]
    refine (engineTimes_add hopen 1).trans ((engineTimes_succ hend 0).trans ?_)
    rw [hm]
    rfl

/-! ## A frame in RXQ -/

/-- The bytes of a frame up to two after its first 0x03: nothing is left exactly when the payload has no 0x03. -/
theorem first_marker (p : List Byte) (hi lo : Byte) : ∃ pre hi' lo' rest,
    p ++ [0x03, hi, lo] = pre ++ 0x03 :: hi' :: lo' :: rest ∧ ¬ (0x03 : Byte) ∈ pre ∧
    (rest = [] ↔ ¬ (0x03 : Byte) ∈ p) := by
  by_cases hp : (0x03 : Byte) ∈ p
  · obtain ⟨pre, post, rfl, hpre⟩ := List.eq_append_cons_of_mem hp
    obtain ⟨hi', lo', rest, hafter, hrest⟩ :
        ∃ hi' lo' rest, post ++ [0x03, hi, lo] = hi' :: lo' :: rest ∧ rest ≠ [] := by
      match post with
      | [] => exact ⟨0x03, hi, [lo], rfl, nofun⟩
      | [x] => exact ⟨x, 0x03, [hi, lo], rfl, nofun⟩
      | x :: y :: post => exact ⟨x, y, post ++ [0x03, hi, lo], rfl, by simp⟩
    exact ⟨pre, hi', lo', rest, by rw [List.append_assoc, List.cons_append, hafter], hpre,
      iff_of_false hrest (not_not.2 hp)⟩
  · exact ⟨p, hi, lo, [], rfl, hp, iff_of_true rfl hp⟩

/-- A frame that fits RX_BUF up to two bytes after its first 0x03 is returned up to there. -/
theorem reader_returns (hw : s.cfg.wf) (hf : s.inFlight = some .rxFrame) (hs : s.rxFresh)
    (hpre : ¬ (0x03 : Byte) ∈ pre) (hfits : pre.length + 4 ≤ s.cfg.rxMax)
    (hq : s.rxq = 0x02 :: (pre ++ 0x03 :: hi :: lo :: rest)) :
    ∃ t, engineTimes (pre.length + 4) s = .next t ∧ t.inFlight = none ∧ t.status.kind = 2 ∧
      t.rxSpan 0 t.rxLen.toNat = 0x02 :: (pre ++ [0x03, hi, lo]) := by
  have hrun := reader_completes (noise := []) hw hf hs nofun hpre hfits hq
  rw [List.length_nil, Nat.zero_add] at hrun
  obtain ⟨-, -, hmax⟩ := hw
  refine ⟨_, hrun, State.inFlight_of_idle rfl, rfl, ?_⟩
  have hstored := State.HasStored.mk (bytes := 0x02 :: (pre ++ [0x03, hi, lo]))
    (s := { s with
      rxBuf := Memory.ofBytes ([0x02] ++ pre ++ [0x03, hi, lo]), rxLen := BitVec.ofNat 16 (pre.length + 4) })
    rfl (by simp) (by simp; omega)
  have hspan := hstored.span 0 _ (Nat.le_of_eq (Nat.zero_add _))
  rw [List.drop_zero, List.take_length, ← hstored.toNat] at hspan
  exact hspan

/-- A frame that fills RX_BUF before that ends with RX_OVERFLOW, without a KIND. -/
theorem reader_overflows_before_marker (hw : s.cfg.wf) (hf : s.inFlight = some .rxFrame) (hs : s.rxFresh)
    (hpre : ¬ (0x03 : Byte) ∈ pre) (hlong : s.cfg.rxMax < pre.length + 4)
    (hq : s.rxq = 0x02 :: (pre ++ 0x03 :: hi :: lo :: rest)) :
    ∃ t, engineTimes s.cfg.rxMax s = .next t ∧ t.inFlight = none ∧ t.status.kind = s.status.kind := by
  have ⟨_, hmin, _⟩ := hw
  obtain ⟨body, left, hsplit, hm⟩ : ∃ body left, pre ++ 0x03 :: hi :: lo :: rest = body ++ left ∧
      body.length + 1 = s.cfg.rxMax :=
    ⟨_, _, (List.take_append_drop (s.cfg.rxMax - 1) _).symm, by simp; omega⟩
  have hbody : ¬ (0x03 : Byte) ∈ body.take (body.length - 2) := by
    rw [← List.take_append_of_le_length (l₂ := left) (by omega), ← hsplit, List.take_append_of_le_length (by omega)]
    exact fun h => hpre (List.mem_of_mem_take h)
  have hrun := reader_overflows (noise := []) hw hf hs nofun hm hbody (by rw [← hsplit]; exact hq)
  rw [List.length_nil, Nat.zero_add] at hrun
  exact ⟨_, hrun, State.inFlight_of_idle rfl, rfl⟩

/-- RX_FRAME fed exactly a command frame returns it if and only if the payload has no 0x03 and the frame fits RX_BUF
(41_encode.md R146). -/
theorem reader_of_cmdFrame (hw : s.cfg.wf) (hf : s.inFlight = some .rxFrame) (hs : s.rxFresh)
    (hq : s.rxq = cmdFrame p) (hk : s.status.kind = 0) :
    ∃ t, engineTimes (cmdFrame p).length s = .next t ∧
      ((t.status.kind = 2 ∧ t.rxSpan 0 t.rxLen.toNat = cmdFrame p) ↔
        (¬ (0x03 : Byte) ∈ p ∧ (cmdFrame p).length ≤ s.cfg.rxMax)) := by
  obtain ⟨pre, hi, lo, rest, hsplit, hpre, hrest⟩ :=
    first_marker p (hiByte (cmdChecksum (p ++ [0x03]))) (loByte (cmdChecksum (p ++ [0x03])))
  have hframe : cmdFrame p = 0x02 :: (pre ++ 0x03 :: hi :: lo :: rest) := by rw [cmdFrame_eq, hsplit]
  have hlen : (cmdFrame p).length = pre.length + 4 + rest.length := by
    rw [hframe]
    simp
    omega
  rw [hframe] at hq
  rw [← hrest]
  rcases Nat.lt_or_ge s.cfg.rxMax (pre.length + 4) with hlong | hfits
  · obtain ⟨t, hrun, hidle, hkind⟩ := reader_overflows_before_marker hw hf hs hpre hlong hq
    refine ⟨t, engineTimes_done hrun hidle (by omega), iff_of_false (fun h => ?_) (fun h => by omega)⟩
    rw [hkind, hk] at h
    exact absurd h.1 (by decide)
  · obtain ⟨t, hrun, hidle, hkind, hspan⟩ := reader_returns hw hf hs hpre hfits hq
    refine ⟨t, engineTimes_done hrun hidle (by omega), ?_⟩
    have hsame : t.rxSpan 0 t.rxLen.toNat = cmdFrame p ↔ rest = [] := by
      rw [hspan, hframe]
      simp [eq_comm]
    rw [hsame, hlen]
    exact ⟨fun h => ⟨h.2, by rw [h.2]; exact hfits⟩, fun h => ⟨hkind, h.1⟩⟩

/-- Settles O41: the run of ENC_CMD, the verdict of VER_CMD, and the reader up to two bytes after the first 0x03. -/
theorem roundTripOfCommandFrames : Obligations.RoundTripOfCommandFrames := by
  refine ⟨fun s p hs hp hl => ⟨_, encCmd_run hs hl hp, rfl⟩, fun s p _ hmax hF herr => ?_,
    fun s p hw hf hs hq hk => reader_of_cmdFrame hw hf hs hq hk⟩
  have hlen : s.inLen.toNat = p.length + 4 := by
    rw [← cmdFrame_length, Memory.span_length hF, State.len]
  have hpayload : s.spanIn 1 p.length = .ok p := by
    rw [State.spanIn, Memory.span_sub hF 1 p.length (by rw [State.len]; omega), cmdFrame_eq]
    simp
  have hrun := verCmd_verdict (s := s) (hlen.trans_le hmax) (by rwa [cmdFrame_eq] at hF)
  rw [ofBe16_hi_lo] at hrun
  refine ⟨_, hrun, ?_, by simp, by simp, ?_, hpayload⟩
  · simp [herr]
  · show (s.inLen - 4).toNat = p.length
    rw [BitVec.toNat_sub, hlen, show (4 : Half).toNat = 4 from rfl]
    have := s.inLen.isLt
    omega

end Sys2Proof.Machine
end

section
/-! SUPPORT. RX_FRAME one step at a time (42_decode.md R170 to R173, R175): its acceptance, the timeout, and a byte
outside and inside a frame. -/

namespace Sys2Proof.Machine

variable {s : State} {b : Byte} {rest : List Byte}

/-! ## Start and timeout -/

/-- An idle block that accepts RX_FRAME starts the reader and puts it in flight (60_exceptions.md R210, R170). -/
theorem writeReg_rxFrame (hb : s.status.busy = false) :
    s.writeReg 0 0x00000007 = ({ s with opword := 7, status := s.status.cleared }.rxStart.launch 7 : State) := by
  have hdecode : decodeWord 0x00000007 = .ok .rxFrame := by decide
  have hstart : s.writeReg 0 0x00000007 = s.startOp 0x00000007 := by simp [State.writeReg, State.accept, hb]
  rw [hstart, State.startOp, hdecode]
  rfl

/-- Settles O17: the acceptance overwrites what an earlier reader left. -/
theorem readerStartsFresh : Obligations.ReaderStartsFresh := by
  intro s inf len buf hb
  have hstart := writeReg_rxFrame hb
  refine ⟨?_, ?_, ?_⟩
  · exact (writeReg_rxFrame (s := { s with rxInf := inf, rxLen := len, rxBuf := buf }) hb).trans hstart.symm
  · rw [hstart]
    rfl
  · rw [hstart]
    exact ⟨rfl, rfl, rfl⟩

/-- Settles O11: the turn is taken off the agenda, and the rest is `State.timeout`. -/
theorem timeoutEndsTheReaderOnly : Obligations.TimeoutEndsTheReaderOnly := by
  intro s rest ha
  have hstep : step s = .next (s.setAgenda rest).timeout := step_of_agenda ha
  rw [hstep]
  refine ⟨fun hf => ?_, fun hf => ?_⟩
  · rw [State.timeout_of_reader (s := s.setAgenda rest) hf]
    rfl
  · rw [State.timeout_of_not_reader (s := s.setAgenda rest) hf]
    rfl

/-! ## Outside a frame -/

theorem rxFrame_outside (hq : s.rxq = b :: rest) (hinf : s.rxInf = false) :
    exec .rxFrame s = .next (rxOutside b { s with rxq := rest }) := by
  rw [rxFrame_take hq]
  simp only [rxTake, hinf, Bool.false_eq_true, if_false]

/-- Settles O44, by the branches of `rxOutside`. -/
theorem readerOutsideAFrame : Obligations.ReaderOutsideAFrame := by
  intro s b rest hq hinf
  rw [rxFrame_outside hq hinf]
  refine ⟨fun hb => ?_, fun hb => ?_, fun h5 h6 h2 => ?_⟩
  · rw [rxOutside, if_pos hb.symm]
    rfl
  · subst hb
    rfl
  · rw [rxOutside, if_neg (by tauto), if_neg h2]

/-! ## Inside a frame -/

theorem rxFrame_inside (hq : s.rxq = b :: rest) (hinf : s.rxInf = true) :
    exec .rxFrame s = .next (rxSettle (rxAppend b { s with rxq := rest })) := by
  rw [rxFrame_take hq]
  simp only [rxTake, hinf, if_true]

/-- Below 65535 bytes RX_LEN advances without wrapping. -/
theorem rxAppend_rxLen_toNat (hl : s.rxLen.toNat < 65535) : (rxAppend b s).rxLen.toNat = s.rxLen.toNat + 1 := by
  show (s.rxLen + 1).toNat = _
  rw [BitVec.toNat_add, show (1 : Half).toNat = 1 from rfl]
  omega

/-- The completion test of R173 on what has been stored. -/
abbrev State.HasFrame (s : State) : Prop := 4 ≤ s.rxLen.toNat ∧ s.rxByte (s.rxLen.toNat - 3) = 0x03

/-- After an append the completion test looks at a byte stored before it. -/
theorem rxAppend_hasFrame_iff (hl : s.rxLen.toNat < 65535) :
    (rxAppend b s).HasFrame ↔ 3 ≤ s.rxLen.toNat ∧ s.rxByte (s.rxLen.toNat - 2) = 0x03 := by
  have hbyte : 3 ≤ s.rxLen.toNat → (rxAppend b s).rxByte (s.rxLen.toNat - 2) = s.rxByte (s.rxLen.toNat - 2) := by
    intro h3
    have hother : s.rxLen.toNat - 2 ≠ s.rxLen.toNat := by omega
    simp only [State.rxByte, State.draw, rxAppend, Memory.read_write_other _ b hother]
  rw [State.HasFrame, rxAppend_rxLen_toNat hl, show s.rxLen.toNat + 1 - 3 = s.rxLen.toNat - 2 by omega]
  constructor
  · rintro ⟨h4, hm⟩
    exact ⟨by omega, by rwa [hbyte (by omega)] at hm⟩
  · rintro ⟨h3, hm⟩
    exact ⟨by omega, by rwa [hbyte h3]⟩

/-- However the bytes settle, what the reader has stored stays. -/
theorem rxSettle_kept (s : State) : (rxSettle s).rxq = s.rxq ∧ (rxSettle s).rxInf = s.rxInf ∧
    (rxSettle s).signal = s.signal ∧ (rxSettle s).rxLen = s.rxLen ∧ (rxSettle s).rxBuf = s.rxBuf ∧
    (rxSettle s).draws = s.draws := by
  unfold rxSettle
  split_ifs <;> exact ⟨rfl, rfl, rfl, rfl, rfl, rfl⟩

/-- A complete frame, and nothing else, ends the operation with KIND = FRAME (42_decode.md R173, R175, R177). -/
theorem rxSettle_kind (hk : s.status.kind = 0) :
    ((rxSettle s).status.kind = 2 ↔ s.HasFrame) ∧
    ((rxSettle s).status.kind = 2 ∨ (rxSettle s).status.kind = 0) ∧
    ((rxSettle s).status.kind = 2 → (rxSettle s).status.done = true) := by
  by_cases hc : s.HasFrame
  · have hend : (rxSettle s).status.kind = 2 ∧ (rxSettle s).status.done = true := by
      rw [rxSettle, if_pos hc]
      simp [verifyRx, kindFrame]
    exact ⟨iff_of_true hend.1 hc, .inl hend.1, fun _ => hend.2⟩
  · have hkept : (rxSettle s).status.kind = 0 := by
      rw [rxSettle, if_neg hc]
      split <;> exact hk
    have hne : (rxSettle s).status.kind ≠ 2 := by
      rw [hkept]
      decide
    exact ⟨iff_of_false hne hc, .inr hkept, fun h => absurd h hne⟩

/-- Bytes that are neither a frame nor fill RX_BUF leave the reader waiting for the next one. -/
theorem rxSettle_open (hc : ¬s.HasFrame) (hroom : s.rxLen.toNat ≠ s.cfg.rxMax) : rxSettle s = s := by
  rw [rxSettle, if_neg hc, if_neg hroom]

/-- Settles O45: an append, and how it settles. -/
theorem readerInsideAFrame : Obligations.ReaderInsideAFrame := by
  rintro s b rest ⟨-, -, hmax⟩ hq hinf hl
  have hsmall : s.rxLen.toNat < 65535 := Nat.lt_of_lt_of_le hl hmax
  have hlen : (rxAppend b { s with rxq := rest }).rxLen.toNat = s.rxLen.toNat + 1 := rxAppend_rxLen_toNat hsmall
  rw [rxFrame_inside hq hinf]
  refine ⟨fun hk => ?_, fun hincomplete hroom => ?_⟩
  · have ⟨kq, kinf, ksig, klen, kbuf, kdraws⟩ := rxSettle_kept (rxAppend b { s with rxq := rest })
    refine ⟨_, rfl, kq, kinf.trans hinf, ksig, by rw [klen, hlen], fun j => ?_, ?_⟩
    · rw [kbuf]
      exact Memory.read_write s.rxBuf s.rxLen.toNat j b
    · simp only [State.rxByte, State.draw, klen, kbuf, kdraws]
      exact rxSettle_kind (s := rxAppend b { s with rxq := rest }) hk
  · rw [rxSettle_open]
    · rfl
    · exact (rxAppend_hasFrame_iff (s := { s with rxq := rest }) hsmall).not.2 hincomplete
    · rw [hlen]
      exact Nat.ne_of_lt hroom

end Sys2Proof.Machine
end

section
/-! SUPPORT. The verifications over a loaded IN (42_decode.md R180, R181): both read the covered bytes and the last two,
and end with a verdict. -/

namespace Sys2Proof.Machine

variable {s : State} {F p : List Byte} {hi lo : Byte}

/-- The shared part of VER_CMD and VER_CRC, over bytes that have been written. -/
theorem verifyIn_loaded {verdict : List Byte → Half → State} (hF : s.loaded F) (h3 : 3 ≤ F.length)
    (hhi : F[F.length - 2]? = some hi) (hlo : F[F.length - 1]? = some lo) :
    verifyIn s s.len verdict = .next (verdict ((F.drop 1).take (F.length - 3)) (ofBe16 hi lo)) := by
  have hlen : s.len = F.length := (Memory.span_length hF).symm
  have hcovered : s.spanIn 1 (F.length - 3) = .ok ((F.drop 1).take (F.length - 3)) :=
    Memory.span_sub hF 1 _ (by omega)
  have hreadHi := State.readIn_of_loaded hF (j := F.length - 2) (by omega)
  have hreadLo := State.readIn_of_loaded hF (j := F.length - 1) (by omega)
  rw [hhi] at hreadHi
  rw [hlo] at hreadLo
  simp only [verifyIn, hlen, hcovered, hreadHi, hreadLo]

/-- IN_LEN less the bytes around a payload is the payload's length. -/
theorem inLen_sub (hF : s.loaded F) {k : Nat} (hk : k ≤ F.length) :
    s.inLen - BitVec.ofNat 16 k = BitVec.ofNat 16 (F.length - k) := by
  have hlen : F.length = s.inLen.toNat := Memory.span_length hF
  have := s.inLen.isLt
  rw [← BitVec.ofNat_sub_ofNat_of_le _ _ (by omega) hk, ofNat_length_of_loaded hF]

/-- The flags of a verification that has ended (42_decode.md R177). -/
theorem Status.compared_finish_eq (st : Status) (c r : Half) :
    (st.compared c r).finish =
      { st with
        busy := false, done := true, ckValid := true, ckOk := decide (c = r), err := if c = r then st.err else 7 } := by
  rw [Status.compared_eq]
  rfl

/-! ## VER_CMD -/

theorem verCmd_tooLong (hl : s.cfg.inMax < s.len) : exec .verCmd s = .next (s.raise .badLen) := by
  simp only [exec, execVerCmd, State.tooLong_of_lt hl, if_true]

/-- Written bytes that are not shaped as a command frame fail one of the shape tests. -/
theorem verCmd_misshapen (hl : s.len ≤ s.cfg.inMax) (hF : s.loaded F)
    (hshape : ¬(4 ≤ F.length ∧ F[0]? = some 0x02 ∧ F[F.length - 3]? = some 0x03)) :
    exec .verCmd s = .next (s.raise .badFrame) := by
  have hlen : s.len = F.length := (Memory.span_length hF).symm
  rcases Nat.lt_or_ge s.len 4 with hshort | h4
  · exact verCmd_short hl hshort
  have hfirst : s.readIn 0 = some F[0] := by
    rw [State.readIn_of_loaded hF (by omega), List.getElem?_eq_getElem]
  have hmarker : s.readIn (s.len - 3) = some F[F.length - 3] := by
    rw [State.readIn_of_loaded hF (by omega), hlen, List.getElem?_eq_getElem]
  by_cases h0 : F[0] = 0x02
  · refine verCmd_marker_bad hl h4 (hfirst.trans (congrArg some h0)) hmarker fun h3 => hshape ?_
    exact ⟨hlen ▸ h4, List.getElem?_eq_some_iff.2 ⟨_, h0⟩, List.getElem?_eq_some_iff.2 ⟨_, h3⟩⟩
  · exact verCmd_first_bad hl h4 hfirst h0

/-- Written bytes shaped as a command frame get a verdict over all between 0x02 and the last two. -/
theorem verCmd_shaped (hl : s.len ≤ s.cfg.inMax) (hF : s.loaded F) (h4 : 4 ≤ F.length) (h0 : F[0]? = some 0x02)
    (h3 : F[F.length - 3]? = some 0x03) (hhi : F[F.length - 2]? = some hi) (hlo : F[F.length - 1]? = some lo) :
    exec .verCmd s = .next (s.verdictCmd (cmdChecksum ((F.drop 1).take (F.length - 3))) (ofBe16 hi lo)
      (BitVec.ofNat 16 (F.length - 4))) := by
  have hlen : s.len = F.length := (Memory.span_length hF).symm
  have hfirst : s.readIn 0 = some 0x02 := by rw [State.readIn_of_loaded hF (by omega), h0]
  have hmarker : s.readIn (s.len - 3) = some 0x03 := by rw [State.readIn_of_loaded hF (by omega), hlen, h3]
  have hnot : ¬ s.len < 4 := by omega
  rw [← inLen_sub hF h4]
  simp only [exec, execVerCmd, State.not_tooLong hl, Bool.false_eq_true, if_false, hnot, hfirst, hmarker, ne_eq,
    not_true_eq_false]
  exact verifyIn_loaded hF (by omega) hhi hlo

/-- Settles O42: the length check, the shape tests, the verdict. -/
theorem verCmdChecksACommandFrame : Obligations.VerCmdChecksACommandFrame := by
  refine ⟨by decide, fun s => ⟨verCmd_tooLong, fun hl F hF => ⟨verCmd_misshapen hl hF, ?_⟩⟩⟩
  rintro hi lo _ _ h4 h0 h3 hhi hlo rfl rfl
  rw [verCmd_shaped hl hF h4 h0 h3 hhi hlo, ← Status.compared_finish_eq]
  rfl

/-! ## VER_CRC -/

theorem verCrc_tooLong (hl : s.cfg.inMax < s.len) : exec .verCrc s = .next (s.raise .badLen) := by
  simp only [exec, execVerCrc, State.tooLong_of_lt hl, if_true]

/-- Written bytes that are not shaped as a chunk-write frame fail one of the shape tests. -/
theorem verCrc_misshapen (hl : s.len ≤ s.cfg.inMax) (hF : s.loaded F)
    (hshape : ¬(3 ≤ F.length ∧ F[0]? = some 0x02)) : exec .verCrc s = .next (s.raise .badFrame) := by
  have hlen : s.len = F.length := (Memory.span_length hF).symm
  rcases Nat.lt_or_ge s.len 3 with hshort | h3
  · exact verCrc_short hl hshort
  have hfirst : s.readIn 0 = some F[0] := by
    rw [State.readIn_of_loaded hF (by omega), List.getElem?_eq_getElem]
  exact verCrc_first_bad hl h3 hfirst fun h0 => hshape ⟨hlen ▸ h3, List.getElem?_eq_some_iff.2 ⟨_, h0⟩⟩

/-- Written bytes shaped as a chunk-write frame get a verdict over all between 0x02 and the last two. -/
theorem verCrc_shaped (hl : s.len ≤ s.cfg.inMax) (hF : s.loaded F) (h3 : 3 ≤ F.length) (h0 : F[0]? = some 0x02)
    (hhi : F[F.length - 2]? = some hi) (hlo : F[F.length - 1]? = some lo) :
    exec .verCrc s = .next (s.verdictCrc (crc16 ((F.drop 1).take (F.length - 3))) (ofBe16 hi lo)
      (BitVec.ofNat 16 (F.length - 3))) := by
  have hlen : s.len = F.length := (Memory.span_length hF).symm
  have hfirst : s.readIn 0 = some 0x02 := by rw [State.readIn_of_loaded hF (by omega), h0]
  have hnot : ¬ s.len < 3 := by omega
  rw [← inLen_sub hF h3]
  simp only [exec, execVerCrc, State.not_tooLong hl, Bool.false_eq_true, if_false, hnot, hfirst, ne_eq,
    not_true_eq_false]
  exact verifyIn_loaded hF h3 hhi hlo

/-- Settles O43: the length check, the shape tests, the verdict. -/
theorem verCrcChecksAChunkFrame : Obligations.VerCrcChecksAChunkFrame := by
  refine ⟨by decide, fun s => ⟨verCrc_tooLong, fun hl G hG => ⟨verCrc_misshapen hl hG, ?_⟩⟩⟩
  rintro hi lo _ _ h3 h0 hhi hlo rfl rfl
  rw [verCrc_shaped hl hG h3 h0 hhi hlo, ← Status.compared_finish_eq]
  rfl

end Sys2Proof.Machine
end

section
/-! SUPPORT. Whole runs of RX_FRAME (42_decode.md R174, R175, R182, R183): the completion and overflow laws for any
number of further ENGINE turns, where the payload is, and runs in which bytes arrive on the way. -/

namespace Sys2Proof.Machine

variable {s t : State} {p : List Byte} {hi lo : Byte}

/-! ## Completion and overflow -/

/-- Settles O46: the run up to the frame's last byte, and ENGINE turns of an idle block after it. -/
theorem readerCompletionLaw : Obligations.ReaderCompletionLaw := by
  rintro s noise pre rest hi lo _ _ hw hf hs hn hpre hm hq rfl rfl k hk
  have hrun := reader_completes hw hf hs hn hpre hm (hi := hi) (lo := lo) (rest := rest) (by simpa using hq)
  exact engineTimes_done hrun (State.inFlight_of_idle rfl) (by omega)

/-- Settles O47: the overflow law, and the completion law for a frame that fills RX_BUF. -/
theorem readerOverflow : Obligations.ReaderOverflow := by
  refine ⟨fun s noise body rest hw hf hs hn hm hbody hq k hk => ?_, fun s pre hi lo hw hf hs hpre hm hq herr => ?_⟩
  · have hend : s.cfg.rxMax - 3 = body.length - 2 := by omega
    rw [hend] at hbody
    have hrun := reader_overflows (rest := rest) hw hf hs hn hm hbody (by simpa using hq)
    exact engineTimes_done hrun (State.inFlight_of_idle rfl) hk
  · have hrun := reader_completes (noise := []) (rest := []) hw hf hs nofun hpre hm.le (by simpa using hq)
    rw [List.length_nil, Nat.zero_add, hm] at hrun
    obtain ⟨-, -, hmax⟩ := hw
    refine ⟨_, hrun, rfl, by simp only [BitVec.toNat_ofNat]; omega, ?_⟩
    dsimp only
    rw [herr]
    split <;> decide

/-! ## Where the payload is -/

/-- A stored byte below RX_LEN, with BUSY = 0 (10_state.md R33). -/
theorem rxValue_stored {i : Nat} {b : Byte} (hb : s.status.busy = false) (hl : i < s.rxLen.toNat)
    (hi : i < s.cfg.rxMax) (hr : Memory.read s.rxBuf i = some b) : s.rxValue i = b := by
  simp [State.rxValue, Nat.not_le.2 hi, Nat.not_le.2 hl, hb, hr]

theorem State.HasStored.rxValue {bytes : List Byte} (h : s.HasStored bytes) (hb : s.status.busy = false)
    (hm : bytes.length ≤ s.cfg.rxMax) {i : Nat} (hi : i < bytes.length) : some (s.rxValue i) = bytes[i]? := by
  have hread : Memory.read s.rxBuf i = some bytes[i] := by
    rw [h.buf, Memory.read_ofBytes, List.getElem?_eq_getElem hi]
  rw [rxValue_stored hb (by rwa [h.toNat]) (by omega) hread, List.getElem?_eq_getElem hi]

/-- The payload of a loaded frame follows its 0x02. -/
theorem spanIn_payload {after : List Byte} (hF : s.loaded ([0x02] ++ p ++ after)) : s.spanIn 1 p.length = .ok p := by
  have hlen : p.length + after.length + 1 = s.len := by
    rw [← Memory.span_length hF]
    simp
  rw [State.spanIn, Memory.span_sub hF 1 p.length (by omega)]
  simp

/-- The length of a part of what is loaded fits 16 bits. -/
theorem ofNat_toNat_of_loaded {F : List Byte} (hF : s.loaded F) {n : Nat} (hn : n ≤ F.length) :
    (BitVec.ofNat 16 n).toNat = n := by
  have hlen : F.length = s.inLen.toNat := Memory.span_length hF
  have := s.inLen.isLt
  rw [BitVec.toNat_ofNat]
  omega

theorem verCmd_payload (hl : s.len ≤ s.cfg.inMax) (hF : s.loaded ([0x02] ++ p ++ [0x03, hi, lo])) :
    ∃ t, exec .verCmd s = .next t ∧ t.status.ckValid = true ∧ t.plen.toNat = p.length ∧
      t.spanIn 1 t.plen.toNat = .ok p ∧ t.readIn (t.plen.toNat + 1) = some 0x03 := by
  have hlen : ([0x02] ++ p ++ [0x03, hi, lo] : List Byte).length = p.length + 4 := by simp
  have hrun := verCmd_shaped hl hF (hi := hi) (lo := lo) (by omega) rfl (by simp) (by simp) (by simp)
  have hplen := ofNat_toNat_of_loaded hF (n := p.length) (by omega)
  rw [hlen, Nat.add_sub_cancel] at hrun
  refine ⟨_, hrun, by simp, hplen, ?_, ?_⟩
  · rw [State.verdict_plen, hplen]
    exact spanIn_payload hF
  · rw [State.verdict_plen, hplen]
    refine (State.readIn_of_loaded hF ?_).trans ?_
    · rw [← Memory.span_length hF]
      omega
    · simp

theorem verCrc_payload (hl : s.len ≤ s.cfg.inMax) (hF : s.loaded ([0x02] ++ p ++ [hi, lo])) :
    ∃ t, exec .verCrc s = .next t ∧ t.status.ckValid = true ∧ t.plen.toNat = p.length ∧
      t.spanIn 1 t.plen.toNat = .ok p := by
  have hlen : ([0x02] ++ p ++ [hi, lo] : List Byte).length = p.length + 3 := by simp
  have hrun := verCrc_shaped hl hF (hi := hi) (lo := lo) (by omega) rfl (by simp) (by simp)
  have hplen := ofNat_toNat_of_loaded hF (n := p.length) (by omega)
  rw [hlen, Nat.add_sub_cancel] at hrun
  refine ⟨_, hrun, by simp, hplen, ?_⟩
  rw [State.verdict_plen, hplen]
  exact spanIn_payload hF

theorem rxFrame_payload (hw : s.cfg.wf) (hf : s.inFlight = some .rxFrame) (hs : s.rxFresh)
    (hp : ¬ (0x03 : Byte) ∈ p) (hm : p.length + 4 ≤ s.cfg.rxMax) (hq : s.rxq = [0x02] ++ p ++ [0x03, hi, lo]) :
    ∃ t, engineTimes (p.length + 4) s = .next t ∧ t.status.ckValid = true ∧ t.plen.toNat = p.length ∧
      t.rxSpan 1 t.plen.toNat = p ∧ t.rxByte (t.plen.toNat + 1) = 0x03 ∧
      ∀ j, j < p.length + 4 → some (t.rxValue j) = ([0x02] ++ p ++ [0x03, hi, lo])[j]? := by
  have hrun := reader_completes (noise := []) (rest := []) hw hf hs nofun hp hm (by simpa using hq)
  rw [List.length_nil, Nat.zero_add] at hrun
  obtain ⟨-, -, hmax⟩ := hw
  have hlen : ([0x02] ++ p ++ [0x03, hi, lo] : List Byte).length = p.length + 4 := by simp
  obtain ⟨t, ht, hbuf, hrxLen, hcfg, hplen, hbusy, hvalid⟩ : ∃ t, engineTimes (p.length + 4) s = .next t ∧
      t.rxBuf = Memory.ofBytes ([0x02] ++ p ++ [0x03, hi, lo]) ∧ t.rxLen = BitVec.ofNat 16 (p.length + 4) ∧
      t.cfg = s.cfg ∧ t.plen = BitVec.ofNat 16 p.length ∧ t.status.busy = false ∧ t.status.ckValid = true :=
    ⟨_, hrun, rfl, rfl, rfl, rfl, rfl, rfl⟩
  have hstored : t.HasStored ([0x02] ++ p ++ [0x03, hi, lo]) := ⟨hbuf, by rw [hlen, hrxLen], by omega⟩
  have hplen : t.plen.toNat = p.length := by
    rw [hplen, BitVec.toNat_ofNat]
    omega
  refine ⟨t, ht, hvalid, hplen, ?_, ?_, fun j hj => hstored.rxValue hbusy (by rwa [hlen, hcfg]) (by omega)⟩
  · rw [hplen, hstored.span 1 p.length (by omega)]
    simp
  · rw [hplen, hstored.byte (by omega)]
    simp

/-- Settles O49: the HOST's reads by their rules, then the payload of each verification. -/
theorem payloadLocation : Obligations.PayloadLocation :=
  ⟨fun _ _ _ => ⟨rxValue_stored, inValue_written⟩, fun _ _ _ _ _ => verCmd_payload, fun _ _ _ _ _ => verCrc_payload,
    fun _ _ _ _ => rxFrame_payload⟩

/-! ## Arrivals on the way -/

/-- The bytes the CHANNEL delivers in these turns. -/
def arrivals : List Turn → List Byte
  | [] => []
  | .channel b :: turns => b :: arrivals turns
  | _ :: turns => arrivals turns

theorem arrivals_filter (turns : List Turn) : arrivals (turns.filter (· ≠ .engine)) = arrivals turns := by
  induction turns with
  | nil => rfl
  | cons turn turns ih => cases turn <;> simpa [arrivals] using ih

/-- How the stored bytes settle does not depend on the bytes behind them or on the turns to come. -/
theorem rxSettle_waiting (s : State) (q : List Byte) (turns : List Turn) :
    rxSettle { s with rxq := q, agenda := turns } = { rxSettle s with rxq := q, agenda := turns } := by
  by_cases hc : s.HasFrame
  · rw [show rxSettle s = _ from if_pos hc]
    exact if_pos hc
  · by_cases hfull : s.rxLen.toNat = s.cfg.rxMax
    · rw [show rxSettle s = _ from (if_neg hc).trans (if_pos hfull)]
      exact (if_neg hc).trans (if_pos hfull)
    · rw [rxSettle_open hc hfull]
      exact rxSettle_open hc hfull

/-- What a byte taken does depends on neither. -/
theorem rxTake_waiting (b : Byte) (s : State) (q : List Byte) (turns : List Turn) :
    rxTake b { s with rxq := q, agenda := turns } = { rxTake b s with rxq := q, agenda := turns } := by
  unfold rxTake
  split
  · exact rxSettle_waiting (rxAppend b s) q turns
  · unfold rxOutside
    split
    · rfl
    · split <;> rfl

/-- A byte taken leaves RX_FRAME in flight or ends it. -/
theorem rxTake_inFlight (b : Byte) (hf : s.inFlight = some .rxFrame) :
    (rxTake b s).inFlight = some .rxFrame ∨ (rxTake b s).inFlight = none := by
  obtain ⟨-, -, e⟩ | ⟨-, -, e⟩ | ⟨-, -, -, -, e⟩ | ⟨-, -, -, e⟩ | ⟨-, -, -, e⟩ | ⟨-, -, -, e⟩ := rxTake_cases b s <;>
    rw [e]
  · exact .inr State.inFlight_finish
  · exact .inl hf
  · exact .inl hf
  · exact .inr (State.inFlight_verdict ..)
  · exact .inr (State.inFlight_raise _)
  · exact .inl hf

/-- The bytes still to arrive, all in RXQ before the ENGINE's next turn. -/
def State.allArrived (s : State) : State := { s with rxq := s.rxq ++ arrivals s.agenda, agenda := [] }

/-- Taking the oldest byte before the others arrive, or after, is the same (42_decode.md R178, R183). -/
theorem engineTurn_allArrived {b : Byte} {rest : List Byte} (hf : s.inFlight = some .rxFrame)
    (hq : s.rxq = b :: rest) : engineTurn s.allArrived = .next (rxTake b { s with rxq := rest }).allArrived := by
  have htake : exec .rxFrame s.allArrived =
      .next (rxTake b { s with rxq := rest ++ arrivals s.agenda, agenda := [] }) :=
    rxFrame_take (by simp [State.allArrived, hq])
  obtain ⟨-, hrest, -⟩ := rxTake_streams_accCrc_kept b { s with rxq := rest }
  obtain ⟨-, -, -, -, -, -, hagenda, -⟩ := rxTake_untouched b { s with rxq := rest }
  rw [engineTurn_of_inFlight (s := s.allArrived) hf, htake, State.allArrived, hrest, hagenda]
  exact congrArg _ (rxTake_waiting b { s with rxq := rest } (rest ++ arrivals s.agenda) [])

/-- A turn of the ENGINE or the CHANNEL is nothing, or one ENGINE turn, once all bytes have arrived. -/
theorem step_allArrived {u : State} {turn : Turn} {turns : List Turn} (ha : s.agenda = turn :: turns)
    (hf : s.inFlight = some .rxFrame ∨ s.inFlight = none) (hturn : turn = .engine ∨ ∃ b, turn = .channel b)
    (h : step s = .next u) :
    u.agenda = turns ∧ (u.inFlight = some .rxFrame ∨ u.inFlight = none) ∧
      (u.allArrived = s.allArrived ∨ engineTurn s.allArrived = .next u.allArrived) := by
  rw [step_of_agenda ha] at h
  obtain rfl | ⟨b, rfl⟩ := hturn
  · have hsame : (s.setAgenda turns).allArrived = s.allArrived := by
      simp [State.allArrived, State.setAgenda, ha, arrivals]
    obtain hread | hidle := hf
    · have hexec : exec .rxFrame (s.setAgenda turns) = .next u :=
        (engineTurn_of_inFlight (s := s.setAgenda turns) hread).symm.trans h
      obtain ⟨-, rfl⟩ | ⟨b, rest, hq, rfl⟩ := execRxFrame_next hexec
      · exact ⟨rfl, .inl hread, .inl hsame⟩
      · obtain ⟨-, -, -, -, -, -, hagenda, -⟩ := rxTake_untouched b { s.setAgenda turns with rxq := rest }
        rw [← hsame]
        exact ⟨hagenda, rxTake_inFlight b hread, .inr (engineTurn_allArrived (s := s.setAgenda turns) hread hq)⟩
    · cases (engineTurn_of_none (s := s.setAgenda turns) hidle).symm.trans h
      exact ⟨rfl, .inr hidle, .inl hsame⟩
  · cases h
    exact ⟨rfl, hf, .inl (by simp [State.allArrived, State.setAgenda, State.arrive, ha, arrivals])⟩

/-- A run in which bytes arrive on the way comes to a state that the ENGINE alone reaches when they have all arrived. -/
theorem run_reaches_allArrived (turns : List Turn) : ∀ {s : State}, s.agenda = turns →
    s.inFlight = some .rxFrame ∨ s.inFlight = none → (∀ x ∈ turns, x = .engine ∨ ∃ b, x = .channel b) →
    Host.Core.run Sys2Proof.core turns.length s = .next t → ∃ j, engineTimes j s.allArrived = .next t := by
  induction turns with
  | nil =>
    intro s ha _ _ h
    have hsame : s.allArrived = s := by
      rw [State.allArrived, ha, arrivals, List.append_nil, ← ha]
    exact ⟨0, hsame.symm ▸ h⟩
  | cons turn turns ih =>
    intro s ha hf hturns h
    obtain ⟨u, hstep, hrest⟩ := run_succ_next h
    obtain ⟨hturn, hturns⟩ := List.forall_mem_cons.1 hturns
    obtain ⟨hagenda, hf, hsame | hmove⟩ := step_allArrived ha hf hturn hstep
    · rw [← hsame]
      exact ih hagenda hf hturns hrest
    · obtain ⟨j, hj⟩ := ih hagenda hf hturns hrest
      exact ⟨j + 1, (engineTimes_succ hmove j).trans hj⟩

/-- Settles O48: both runs come to where the ENGINE alone ends once all bytes have arrived. -/
theorem readerIsArrivalIndependent : Obligations.ReaderIsArrivalIndependent := by
  intro s t1 t2 a1 a2 hf h1 h2 hsame hrun1 hrun2 hend1 hend2
  have hbytes : arrivals a1 = arrivals a2 := by rw [← arrivals_filter a1, hsame, arrivals_filter]
  obtain ⟨j1, hj1⟩ := run_reaches_allArrived a1 (s := { s with agenda := a1 }) rfl (.inl hf) h1 hrun1
  obtain ⟨j2, hj2⟩ := run_reaches_allArrived a2 (s := { s with agenda := a2 }) rfl (.inl hf) h2 hrun2
  have hstart : State.allArrived { s with agenda := a1 } = State.allArrived { s with agenda := a2 } := by
    simp [State.allArrived, hbytes]
  rw [hstart] at hj1
  have hlong1 := engineTimes_done hj1 (State.inFlight_of_idle hend1) (Nat.le_add_right j1 j2)
  have hlong2 := engineTimes_done hj2 (State.inFlight_of_idle hend2) (Nat.le_add_left j2 j1)
  cases hlong1.symm.trans hlong2
  rfl

end Sys2Proof.Machine
end

section
/-! SUPPORT. Acceptance, idleness and failed checks (60_exceptions.md R210, R211, R216, R225), and a table row's word
placed for the next step (log 18). -/

namespace Sys2Proof.Machine

variable {s t : State} {i : Instr} {w : Word}

/-! ## An idle block -/

/-- Settles O13: with BUSY = 0 nothing is in flight. -/
theorem idleBlockKeepsItsState : Obligations.IdleBlockKeepsItsState := by
  intro s hb
  exact engineTimes_of_none (State.inFlight_of_idle hb)

/-! ## Accepting an operation word -/

theorem writeReg_opword_busy (hb : s.status.busy = true) (w : Word) : s.writeReg 0 w = s.dropWrite := if_pos hb

theorem writeReg_opword_idle (hb : s.status.busy = false) (w : Word) : s.writeReg 0 w = s.startOp w := by
  simp [State.writeReg, State.accept, hb]

theorem startOp_rxFrame (hd : decodeWord w = .ok .rxFrame) :
    s.startOp w = ({ s with opword := w, status := s.status.cleared }.rxStart.launch (opField w) : State) := by
  simp only [State.startOp, hd]

/-- Settles O16, by BUSY and by what the word decodes to. -/
theorem acceptanceOfAnOperationWord : Obligations.AcceptanceOfAnOperationWord := by
  intro s w
  refine ⟨fun hb => writeReg_opword_busy hb w, fun hb => ⟨fun e hrest hd => ?_, fun i hd hr => ?_, fun hd => ?_⟩⟩
  · obtain ⟨-, -, illegal⟩ := illegalWordEndsAtOnce
    rw [illegal s w hb hrest ⟨e, hd⟩]
    simp only [hb]
  · rw [writeReg_opword_idle hb, startOp_legal hd hr]
    rfl
  · rw [writeReg_opword_idle hb, startOp_rxFrame hd]
    rfl

/-! ## A placed word -/

theorem decodeTableWord_some {nbits n : Nat} (h : decodeTableWord nbits n = some i) :
    ∃ c, codeOfTable nbits n = some c ∧ decode c = .ok i := by
  unfold decodeTableWord at h
  split at h
  · cases h
  · next c hc =>
    split at h
    · next j hj =>
      cases h
      exact ⟨c, hc, hj⟩
    · cases h

theorem codeOfTable_word {nbits n : Nat} (h : codeOfTable nbits n = some (.word w)) : w = BitVec.ofNat 32 n := by
  unfold codeOfTable at h
  split_ifs at h
  · cases h
    rfl
  · cases h

/-- A placed operation word has been accepted, and the ENGINE moves next (60_exceptions.md R210). -/
theorem step_place_word (hd : decodeWord w = .ok i) : step (s.place (.word w)) = exec i (s.startOp w) := by
  have hback : (s.startOp w).setAgenda s.agenda = s.startOp w := by
    rw [← State.startOp_agenda s w]
    rfl
  calc step (s.place (.word w)) = engineTurn ((s.startOp w).setAgenda s.agenda) :=
        step_of_agenda (s := s.place (.word w)) rfl
    _ = engineTurn (s.startOp w) := by rw [hback]
    _ = exec i (s.startOp w) := engineTurn_of_inFlight (State.startOp_inFlight s hd)

/-- A placed wire unit is the HOST's next line, and the HOST moves next (30_encoding.md R87). -/
theorem step_place_wire {unit : List Byte} (hd : decodeWire unit = .ok i) :
    step (s.place (.wire unit)) = exec i s := by
  calc step (s.place (.wire unit)) = runLine (.wire unit) s := step_of_agenda (s := s.place (.wire unit)) rfl
    _ = exec i s := by simp only [runLine, hd]

/-- Settles O9, by the two kinds of codes. -/
theorem placedWordRunsNext : Obligations.PlacedWordRunsNext := by
  intro s nbits n i h
  obtain ⟨c, hc, hd⟩ := decodeTableWord_some h
  have hplace : s.withFetchWord nbits n = s.place c := by simp only [State.withFetchWord, hc]
  rw [hplace]
  cases c with
  | word w =>
    obtain rfl := codeOfTable_word hc
    exact ⟨_, .inr rfl, step_place_word hd⟩
  | wire unit => exact ⟨s, .inl rfl, step_place_wire hd⟩

/-! ## Failed checks -/

/-- Past its first line an operation raises nothing: every check comes first (41_encode.md R140, 60_exceptions.md
R213). -/
theorem exec_err_kept_of_started (fits : phaseFits i s.phase = true) (hp : s.phase ≠ .start) (h : exec i s = .next t) :
    t.status.err = s.status.err := by
  cases i with
  | cksCmd =>
    obtain ⟨h0, -⟩ | ⟨-, -, rfl⟩ | ⟨b, -, -, -, rfl⟩ | ⟨-, -, rfl⟩ | ⟨-, -, rfl⟩ := execCksCmd_next h
    · exact absurd h0 hp
    all_goals rfl
  | cksCrc =>
    obtain ⟨h0, -⟩ | ⟨-, -, rfl⟩ | ⟨b, -, -, -, rfl⟩ | ⟨-, -, rfl⟩ | ⟨-, -, rfl⟩ := execCksCrc_next h
    · exact absurd h0 hp
    all_goals rfl
  | encCmd =>
    obtain ⟨h0, -⟩ | ⟨-, -, rfl⟩ | ⟨b, -, -, -, rfl⟩ | ⟨-, -, rfl⟩ | ⟨-, rfl⟩ | ⟨-, rfl⟩ | ⟨j, -, rfl⟩ :=
      execEncCmd_next h
    · exact absurd h0 hp
    all_goals rfl
  | encRaw =>
    obtain ⟨h0, -⟩ | ⟨-, -, -, rfl⟩ | ⟨-, -, -, rfl⟩ | ⟨b, -, -, -, rfl⟩ | ⟨b, -, -, -, rfl⟩ | ⟨-, -, rfl⟩ :=
      execEncRaw_next h
    · exact absurd h0 hp
    all_goals rfl
  | encChunk =>
    obtain ⟨h0, -⟩ | ⟨d, -, -, -, -, -, rfl⟩ | ⟨j, -, rfl⟩ | ⟨b, -, -, -, rfl⟩ | ⟨-, -, rfl⟩ | ⟨-, rfl⟩ | ⟨-, rfl⟩ :=
      execEncChunk_next h
    · exact absurd h0 hp
    all_goals rfl
  | sigTx | rxFrame | verCmd | verCrc => exact absurd (of_decide_eq_true fits) hp
  | wireM | wireL | wireO | wireW | wireC | wireS | wireSigNak | wireSigAck => exact absurd fits nofun

/-- A step that fails other than by CK_MISMATCH is a raise. -/
theorem OpStep.raised_of_failed (h : OpStep i s t) (h0 : s.status.err = 0) (ht : t.status.err ≠ 0)
    (h7 : t.status.err ≠ 7) : ∃ e, t = s.raise e := by
  cases h with
  | raised => exact ⟨_, rfl⟩
  | goesOn hu | finished hu | finishedResult v hu => cases hu; exact absurd h0 ht
  | verified c r p hu =>
    cases hu
    rw [State.verdict_status, Status.finish_err, Status.compared_err] at ht h7
    split at ht
    · exact absurd h0 ht
    · next hne => exact absurd (if_neg hne) h7

/-- The errors of the Frame Reader's ENGINE steps are RX_OVERFLOW and CK_MISMATCH (42_decode.md R175, R177). -/
theorem rxTake_err (b : Byte) (s : State) :
    (rxTake b s).status.err = s.status.err ∨ (rxTake b s).status.err = 4 ∨ (rxTake b s).status.err = 7 := by
  obtain ⟨-, -, e⟩ | ⟨-, -, e⟩ | ⟨-, -, -, -, e⟩ | ⟨-, -, -, e⟩ | ⟨-, -, -, e⟩ | ⟨-, -, -, e⟩ := rxTake_cases b s <;>
    rw [e]
  case inr.inr.inr.inl =>
    rw [verifyRx, State.verdict_status, Status.finish_err, Status.compared_err]
    split
    · exact .inl rfl
    · exact .inr (.inr rfl)
  case inr.inr.inr.inr.inl => exact .inr (.inl rfl)
  all_goals exact .inl rfl

/-- RX_FRAME's ENGINE steps raise none of BAD_LEN, BAD_ARG and BAD_FRAME. -/
theorem rxFrame_no_failed_check (h : exec .rxFrame s = .next t) (h0 : s.status.err = 0) :
    ¬(t.status.err = 2 ∨ t.status.err = 3 ∨ t.status.err = 6) := by
  have herr : t.status.err = 0 ∨ t.status.err = 4 ∨ t.status.err = 7 := by
    obtain ⟨-, rfl⟩ | ⟨b, rest, -, rfl⟩ := execRxFrame_next h
    · exact .inl h0
    · have hkinds := rxTake_err b { s with rxq := rest }
      rwa [show ({ s with rxq := rest } : State).status.err = 0 from h0] at hkinds
  obtain e | e | e := herr <;> rw [e] <;> decide

/-- Settles O55: the step is a raise, since it fails other than by CK_MISMATCH, and the operation's first, since later
ones keep ERR. -/
theorem failedCheckHasNoEffect : Obligations.FailedCheckHasNoEffect := by
  intro s t i hf fits h h0 herr
  have hne : t.status.err ≠ 0 ∧ t.status.err ≠ 7 := by
    obtain e | e | e := herr <;> rw [e] <;> decide
  have hr : i ≠ .rxFrame := by
    rintro rfl
    exact rxFrame_no_failed_check h h0 herr
  have hp : s.phase = .start := by
    by_contra hp
    exact hne.1 ((exec_err_kept_of_started fits hp h).trans h0)
  obtain ⟨w, hw⟩ := encode_word_of_inFlight hf
  obtain ⟨e, rfl⟩ := (exec_opStep hw hr h).raised_of_failed h0 hne.1 hne.2
  exact ⟨hp, rfl⟩

end Sys2Proof.Machine
end

section
/-! SUPPORT. A received byte and `rx_timeout`, both enabled (60_exceptions.md R214, R215): which bytes end RX_FRAME and
how, and what the timeout does after the byte. -/

namespace Sys2Proof.Machine

variable {s u : State} {b : Byte} {bytes : List Byte}

/-! ## One byte -/

theorem rxTake_ended_or_inFlight (b : Byte) (s : State) :
    Ended (rxTake b s) ∨ (rxTake b s).inFlight = s.inFlight := by
  obtain ⟨-, -, e⟩ | ⟨-, -, e⟩ | ⟨-, -, -, -, e⟩ | ⟨-, -, -, e⟩ | ⟨-, -, -, e⟩ | ⟨-, -, -, e⟩ := rxTake_cases b s <;>
    rw [e]
  · exact .inl (ended_finish _)
  · exact .inr rfl
  · exact .inr rfl
  · exact .inl (ended_verdict _ _ _ _)
  · exact .inl (ended_raise _ _)
  · exact .inr rfl

/-- Taking the oldest byte ends RX_FRAME or leaves it in flight (42_decode.md R171). -/
theorem rxFrame_takes_oldest (hq : s.rxq = b :: bytes) (hf : s.inFlight = some .rxFrame) :
    ∃ u, exec .rxFrame s = .next u ∧ u.rxq = bytes ∧ u.agenda = s.agenda ∧
      (Ended u ∨ u.inFlight = some .rxFrame) := by
  obtain ⟨-, -, -, -, -, -, hagenda, -⟩ := rxTake_untouched b { s with rxq := bytes }
  obtain ⟨-, hrxq, -⟩ := rxTake_streams_accCrc_kept b { s with rxq := bytes }
  exact ⟨_, rxFrame_take hq, hrxq, hagenda, (rxTake_ended_or_inFlight b _).imp_right (·.trans hf)⟩

theorem rxSettle_full (hc : ¬s.HasFrame) (hfull : s.rxLen.toNat = s.cfg.rxMax) :
    rxSettle s = s.raise .rxOverflow := by
  rw [rxSettle, if_neg hc, if_pos hfull]

section
variable (hq : s.rxq = b :: bytes) (hu : exec .rxFrame s = .next u)
include hq hu

theorem rxFrame_signal_ends (hinf : s.rxInf = false) (hb : b = 0x05 ∨ b = 0x06) :
    u.status.busy = false ∧ u.status.done = true ∧ u.status.kind = 1 ∧ u.signal = b ∧
      u.status.err = s.status.err := by
  obtain ⟨signal, -, -⟩ := readerOutsideAFrame s b bytes hq hinf
  cases (signal hb).symm.trans hu
  exact ⟨rfl, rfl, rfl, rfl, rfl⟩

theorem rxFrame_nonSignal_keeps_status (hinf : s.rxInf = false) (h5 : b ≠ 0x05) (h6 : b ≠ 0x06) :
    u.status = s.status := by
  obtain ⟨-, opens, noise⟩ := readerOutsideAFrame s b bytes hq hinf
  by_cases h2 : b = 0x02
  · cases (opens h2).symm.trans hu
    rfl
  · cases (noise h5 h6 h2).symm.trans hu
    rfl

/-- The frame is complete: the verdict's flags, with KIND = FRAME (42_decode.md R173, R177). -/
theorem rxFrame_completion_ends (hinf : s.rxInf = true) (hl : s.rxLen.toNat < 65535)
    (hc : 3 ≤ s.rxLen.toNat ∧ s.rxByte (s.rxLen.toNat - 2) = 0x03) :
    u.status.busy = false ∧ u.status.done = true ∧ u.status.kind = 2 ∧ u.status.ckValid = true ∧
      u.status.err = if u.status.ckOk then s.status.err else 7 := by
  have hframe : (rxAppend b { s with rxq := bytes }).HasFrame :=
    (rxAppend_hasFrame_iff (s := { s with rxq := bytes }) hl).2 hc
  cases (rxFrame_inside hq hinf).symm.trans hu
  rw [rxSettle, if_pos hframe]
  simp [verifyRx, kindFrame, rxAppend, ErrCode.bits]

/-- RX_BUF is full without a frame (42_decode.md R175). -/
theorem rxFrame_overflow_ends (hinf : s.rxInf = true) (hl : s.rxLen.toNat < 65535)
    (hc : ¬(3 ≤ s.rxLen.toNat ∧ s.rxByte (s.rxLen.toNat - 2) = 0x03)) (hfull : s.rxLen.toNat + 1 = s.cfg.rxMax) :
    u.status.busy = false ∧ u.status.done = true ∧ u.status.err = 4 := by
  have hframe : ¬(rxAppend b { s with rxq := bytes }).HasFrame :=
    (rxAppend_hasFrame_iff (s := { s with rxq := bytes }) hl).not.2 hc
  have hlen : (rxAppend b { s with rxq := bytes }).rxLen.toNat = s.cfg.rxMax :=
    (rxAppend_rxLen_toNat (s := { s with rxq := bytes }) hl).trans hfull
  cases (rxFrame_inside hq hinf).symm.trans hu
  rw [rxSettle_full hframe hlen]
  exact ⟨rfl, rfl, rfl⟩

theorem rxFrame_open_keeps_status (hw : s.cfg.wf) (hinf : s.rxInf = true)
    (hc : ¬(3 ≤ s.rxLen.toNat ∧ s.rxByte (s.rxLen.toNat - 2) = 0x03)) (hroom : s.rxLen.toNat + 1 < s.cfg.rxMax) :
    u.status = s.status := by
  obtain ⟨-, opened⟩ := readerInsideAFrame s b bytes hw hq hinf (by omega)
  cases (opened hc hroom).symm.trans hu
  rfl

end

/-! ## The timeout before and after it -/

/-- The timeout has ended RX_FRAME, and the ENGINE's turn after it finds nothing in flight. -/
theorem run_timer_engine {rest : List Turn} (hf : s.inFlight = some .rxFrame)
    (ha : s.agenda = .timer :: .engine :: rest) :
    Host.Core.run Sys2Proof.core 2 s = .next ((s.setAgenda rest).raise .rxTimeout) := by
  have htimer : step s = .next ((s.setAgenda (.engine :: rest)).raise .rxTimeout) := by
    rw [step_of_agenda ha, takeTurn, State.timeout_of_reader (s := s.setAgenda (.engine :: rest)) hf]
  have hengine : step ((s.setAgenda (.engine :: rest)).raise .rxTimeout) =
      .next ((s.setAgenda rest).raise .rxTimeout) := by
    rw [step_of_agenda (t := .engine) (rest := rest) rfl]
    exact engineTurn_of_none (State.inFlight_raise (s := s.setAgenda rest) .rxTimeout)
  rw [run_succ htimer, run_succ hengine, run_zero]

/-- The byte has been taken, and the timeout comes after it. -/
theorem run_engine_timer {rest : List Turn} (hf : s.inFlight = some .rxFrame)
    (ha : s.agenda = .engine :: .timer :: rest) (hu : exec .rxFrame (s.setAgenda (.timer :: rest)) = .next u)
    (hagenda : u.agenda = .timer :: rest) :
    Host.Core.run Sys2Proof.core 2 s = .next (u.setAgenda rest).timeout := by
  have hengine : step s = .next u := by
    rw [step_of_agenda ha, takeTurn, engineTurn_of_inFlight (s := s.setAgenda (.timer :: rest)) hf, hu]
  rw [run_succ hengine, run_succ (step_of_agenda hagenda), run_zero]

/-- Settles O15: the timeout first, then the byte first, with the cases of R171 for what the byte does. -/
theorem byteAndTimeoutInEitherOrder : Obligations.ByteAndTimeoutInEitherOrder := by
  intro s b bytes rest hf hq
  refine ⟨fun ha => run_timer_engine hf ha, fun ha => ?_⟩
  have hbusy := State.busy_of_inFlight hf
  have hq : (s.setAgenda (.timer :: rest)).rxq = b :: bytes := hq
  obtain ⟨u, hu, hrxq, hagenda, hends⟩ := rxFrame_takes_oldest hq hf
  have hrun := run_engine_timer hf ha hu hagenda
  have hsignal := rxFrame_signal_ends hq hu
  have hcompletion := rxFrame_completion_ends hq hu
  have hoverflow := rxFrame_overflow_ends hq hu
  refine ⟨u, hu, hrxq, fun hidle => ?_, fun hon => ?_, hsignal, fun hinf h5 h6 => ?_, fun hinf hw hl => ?_⟩
  · have hnone : (u.setAgenda rest).inFlight ≠ some .rxFrame := by simp [State.inFlight_of_idle hidle]
    rw [hrun, State.timeout_of_not_reader hnone]
    rfl
  · have hflight : (u.setAgenda rest).inFlight = some .rxFrame :=
      hends.resolve_left fun ⟨_, hidle⟩ => by simp [hon] at hidle
    rw [hrun, State.timeout_of_reader hflight]
    rfl
  · rw [rxFrame_nonSignal_keeps_status hq hu hinf h5 h6]
    exact hbusy
  · have ⟨_, _, hmax⟩ := hw
    have hsmall : s.rxLen.toNat < 65535 := Nat.lt_of_lt_of_le hl hmax
    refine ⟨hcompletion hinf hsmall, fun hc => ⟨hoverflow hinf hsmall hc, fun hroom => ?_⟩⟩
    rw [rxFrame_open_keeps_status hq hu hw hinf hc hroom]
    exact hbusy

end Sys2Proof.Machine
end

section
/-! SUPPORT. Reset (70_reset_and_hazards.md R240, R241), and a reader with no byte to come (R255). -/

namespace Sys2Proof.Machine

variable {s : State}

/-! ## Reset -/

/-- Settles O12: the whole state of `State.assertReset`, written out. -/
theorem resetInputClearsTheBlock : Obligations.ResetInputClearsTheBlock := by
  intro s rest ha
  exact step_of_agenda ha

/-- Settles O60: an idle block with empty buffers. -/
theorem resetMeetsTheMachineInvariant : Obligations.ResetMeetsTheMachineInvariant :=
  .of_idle rfl (by decide) (by decide : StatusOk Status.zero) ⟨rfl, rfl, rfl⟩ ⟨.nil, nofun⟩
    ⟨rfl, Nat.zero_le _, nofun⟩ (.inl rfl)

/-! ## RX_FRAME with no byte to come -/

/-- RX_FRAME is in flight with no byte to take, and neither a byte, a timeout nor a reset comes. -/
structure State.WaitsForEver (s : State) : Prop where
  reader : s.inFlight = some .rxFrame
  noByte : s.rxq = []
  turns : ∀ turn ∈ s.agenda, turn = .engine ∨ turn = .host

/-- With RXQ empty step RX_BYTE is not enabled (42_decode.md R171, R176). -/
theorem rxFrame_waits (hq : s.rxq = []) : exec .rxFrame s = .next s := by
  rw [exec, execRxFrame_eq, hq]

/-- The ENGINE's turn changes nothing, and the HOST's nothing of the reader. -/
theorem State.WaitsForEver.of_takeTurn (h : s.WaitsForEver) {turn : Turn} (ht : turn = .engine ∨ turn = .host) :
    ∃ t, takeTurn turn s = .next t ∧ t.WaitsForEver := by
  obtain ⟨hf, hq, hturns⟩ := h
  obtain rfl | rfl := ht
  · exact ⟨s, (engineTurn_of_inFlight hf).trans (rxFrame_waits hq), hf, hq, hturns⟩
  · obtain ⟨t, ht, hhost⟩ := hostTurn_busy s (State.busy_of_inFlight hf)
    exact ⟨t, ht, hhost.inFlight.trans hf, hhost.rxq.trans hq, by rwa [hhost.agenda]⟩

theorem State.WaitsForEver.of_step (h : s.WaitsForEver) : ∃ t, step s = .next t ∧ t.WaitsForEver := by
  obtain ⟨turn, hstep, hturn⟩ := step_takes_turn s
  have hnext : turn = .engine ∨ turn = .host := hturn.elim (fun hhead => h.turns _ (List.mem_of_mem_head? hhead)) id
  rw [hstep]
  exact State.WaitsForEver.of_takeTurn (s := s.setAgenda s.agenda.tail)
    ⟨h.reader, h.noByte, fun turn hm => h.turns turn (List.mem_of_mem_tail hm)⟩ hnext

theorem State.WaitsForEver.of_run (k : Nat) (h : s.WaitsForEver) :
    ∃ t, Host.Core.run Sys2Proof.core k s = .next t ∧ t.WaitsForEver := by
  induction k generalizing s with
  | zero => exact ⟨s, run_zero s, h⟩
  | succ k ih =>
    obtain ⟨u, hu, hwaits⟩ := h.of_step
    rw [run_succ hu]
    exact ih hwaits

/-- Settles O14: the reader waits for ever, and while it waits BUSY is 1. -/
theorem readerWithoutBytesStaysBusy : Obligations.ReaderWithoutBytesStaysBusy := by
  intro s hf hq hturns k
  obtain ⟨t, ht, hwaits⟩ := State.WaitsForEver.of_run k ⟨hf, hq, hturns⟩
  exact ⟨t, ht, State.busy_of_inFlight hwaits.reader, hwaits.reader⟩

end Sys2Proof.Machine
end

section
/-! SUPPORT. The HOST's writes while BUSY = 1, and who clears HERR (70_reset_and_hazards.md R251). -/

namespace Sys2Proof.Machine

variable {s t : State}

/-! ## Writes while BUSY -/

theorem unlessBusy_busy (hb : s.status.busy = true) (written : State) : s.unlessBusy written = s.dropWrite := if_pos hb

theorem writeIn_busy (hb : s.status.busy = true) {i : Nat} (hi : i < s.cfg.inMax) (b : Byte) :
    s.writeIn i b = s.dropWrite :=
  (if_neg (Nat.not_le.2 hi)).trans (unlessBusy_busy hb _)

/-! ## Who clears HERR -/

/-- Accepting a word clears the other flags, never HERR (60_exceptions.md R210). -/
theorem startOp_herr (s : State) (w : Word) : (s.startOp w).status.herr = s.status.herr := by
  unfold State.startOp
  dsimp only
  split <;> rfl

theorem accept_herr (h : s.status.herr = true) (w : Word) : (s.accept w).status.herr = true := by
  unfold State.accept
  split
  · rfl
  · rw [startOp_herr, h]

/-- A write that is dropped sets HERR. -/
theorem unlessBusy_herr {written : State} (hw : written.status.herr = true) :
    (s.unlessBusy written).status.herr = true := by
  unfold State.unlessBusy
  split
  · rfl
  · exact hw

/-- Of the register writes only one to STATUS with bit 6 = 1 clears HERR. -/
theorem writeReg_herr (h : s.status.herr = true) (reg : Nat) (v : Word) :
    (s.writeReg reg v).status.herr = true ∨ reg = 1 ∧ v.getLsbD 6 = true := by
  unfold State.writeReg
  split_ifs with h0 h1 h6
  · exact .inl (accept_herr h v)
  · exact .inr ⟨h1, h6⟩
  · exact .inl h
  · exact .inl (unlessBusy_herr h)
  · exact .inl (unlessBusy_herr h)
  · exact .inl h

theorem writeIn_herr (h : s.status.herr = true) (i : Nat) (b : Byte) : (s.writeIn i b).status.herr = true := by
  unfold State.writeIn
  split
  · exact h
  · exact unlessBusy_herr h

theorem poll_herr (s : State) : s.poll.status.herr = s.status.herr := by
  unfold State.poll
  split <;> rfl

/-- Of the HOST's lines only that write clears HERR. -/
theorem runLine_herr {line : HostLine} (h : s.status.herr = true) (ht : runLine line s = .next t) :
    t.status.herr = true ∨ ∃ v : Word, line = .wr 1 v ∧ v.getLsbD 6 = true := by
  cases line with
  | wr reg v =>
    cases ht
    exact (writeReg_herr h reg v).imp_right fun ⟨hreg, h6⟩ => ⟨v, by rw [hreg], h6⟩
  | wrb i b => cases ht; exact .inl (writeIn_herr h i b)
  | poll => cases ht; exact .inl ((poll_herr s).trans h)
  | rd | rdbIn | rdbRx | load | sendCmd | sendRaw | recvf => cases ht; exact .inl h
  | wire unit =>
    simp only [runLine] at ht
    split at ht
    · next i hi =>
      obtain ⟨p, hp⟩ := decodeWire_ok hi
      obtain ⟨lines, hl⟩ := exec_wire hp s
      cases hl.symm.trans ht
      exact .inl h
    · cases ht; exact .inl h

/-- No ENGINE step touches HERR (10_state.md R42). -/
theorem engineTurn_herr (ht : engineTurn s = .next t) : t.status.herr = s.status.herr := by
  cases hf : s.inFlight with
  | none => cases (engineTurn_of_none hf).symm.trans ht; rfl
  | some i =>
    have hexec := (engineTurn_of_inFlight hf).symm.trans ht
    obtain ⟨⟨-, -, -, -, -, -, -, -, -, hherr⟩, -⟩ :=
      operationsWriteOnlyTheirItems s t i hexec (encode_word_of_inFlight hf)
    exact hherr

theorem timeout_herr (s : State) : s.timeout.status.herr = s.status.herr := by
  unfold State.timeout
  split <;> rfl

/-- A turn that clears HERR is a reset, or the HOST's write to STATUS with bit 6 = 1. -/
theorem takeTurn_herr {turn : Turn} (h : s.status.herr = true) (ht : takeTurn turn s = .next t) :
    t.status.herr = true ∨ turn = .reset ∨
      turn = .host ∧ ∃ v : Word, s.hostProg.head? = some (.wr 1 v) ∧ v.getLsbD 6 = true := by
  cases turn with
  | engine => exact .inl ((engineTurn_herr ht).trans h)
  | host =>
    cases hp : s.hostProg with
    | nil =>
      simp only [takeTurn, hostTurn, hp] at ht
      cases ht
      exact .inl h
    | cons line rest =>
      refine (runLine_herr (s := s.setProg rest) h ((hostTurn_cons hp).symm.trans ht)).imp_right ?_
      rintro ⟨v, rfl, h6⟩
      exact .inr ⟨rfl, v, rfl, h6⟩
  | channel b => cases ht; exact .inl h
  | timer => cases ht; exact .inl ((timeout_herr s).trans h)
  | reset => exact .inr (.inl rfl)

/-- A step that clears HERR is a turn that does, of the agent the agenda names or, where it names none, of the HOST. -/
theorem step_herr (h : s.status.herr = true) (ht : step s = .next t) :
    t.status.herr = true ∨ s.agenda.head? = some .reset ∨
      (s.agenda.head? = some .host ∨ s.agenda = []) ∧
        ∃ v : Word, s.hostProg.head? = some (.wr 1 v) ∧ v.getLsbD 6 = true := by
  cases ha : s.agenda with
  | cons turn rest =>
    refine (takeTurn_herr (s := s.setAgenda rest) h ((step_of_agenda ha).symm.trans ht)).imp_right ?_
    rintro (rfl | ⟨rfl, hwrite⟩)
    · exact .inl rfl
    · exact .inr ⟨.inl rfl, hwrite⟩
  | nil =>
    obtain ⟨turn, hturn, hwho⟩ := step_takes_turn s
    refine (takeTurn_herr (s := s.setAgenda s.agenda.tail) h (hturn.symm.trans ht)).imp_right ?_
    rintro (rfl | ⟨-, hwrite⟩)
    · simp [ha] at hwho
    · exact .inr ⟨.inr rfl, hwrite⟩

/-- Settles O18: a busy block drops the four writes and ignores or takes the others, and HERR by the agent whose turn
the step is. -/
theorem busyWritesAreDropped : Obligations.BusyWritesAreDropped := by
  refine ⟨fun s v i b hb => ?_, fun s t ht h hc => (step_herr h ht).resolve_left (by simp [hc])⟩
  exact ⟨writeReg_opword_busy hb v, unlessBusy_busy hb _, unlessBusy_busy hb _, fun hi => writeIn_busy hb hi b,
    fun reg hreg => writeReg_ignored hreg s v, fun h6 => if_pos h6⟩

end Sys2Proof.Machine
end

section
/-! SUPPORT. The wire commands that keep the host's duties (70_reset_and_hazards.md R253, 30_encoding.md R75 to R80) and
the Frame Reader on their frames (42_decode.md R174). -/

namespace Sys2Proof.Machine

variable {s : State} {i : Instr} {p rest : List Byte}

/-! ## Payloads without the end marker -/

theorem wellFormed_wireO_digits {kind : Byte} {unknown1 timestamp unknown2 name : List Byte}
    (h : (Instr.wireO kind unknown1 timestamp unknown2 name).wellFormed = true) :
    timestamp.all isAsciiDigit = true := by
  simp only [Instr.wellFormed, Bool.and_eq_true] at h
  obtain ⟨⟨-, hdigits⟩, -⟩ := h
  exact hdigits

/-- No digit of a timestamp is the end marker (00_scope.md R14, 30_encoding.md R77). -/
theorem endMarker_not_mem_digits {digits : List Byte} (h : digits.all isAsciiDigit = true) :
    ¬ (0x03 : Byte) ∈ digits :=
  fun hmem => absurd (List.all_eq_true.1 h 0x03 hmem) (by decide)

/-- R253's duty, row by row: the opcodes, the kind and the digits of an `O` command are not 0x03, and the other fields
hold none. -/
theorem endMarker_not_mem_of_conformant (hi : i.conformant) (he : encode i = .wire p)
    (hw : ∀ off d, i ≠ .wireW off d) : ¬ (0x03 : Byte) ∈ p := by
  obtain ⟨hwf, hduty⟩ := hi
  cases i with
  | cksCmd | cksCrc | encCmd | encRaw | encChunk | sigTx | rxFrame | verCmd | verCrc => cases he
  | wireW off d => exact absurd rfl (hw off d)
  | wireC | wireS | wireSigNak | wireSigAck => cases he; decide
  | wireM text =>
    cases he
    exact List.not_mem_cons_of_ne_of_not_mem (by decide) hduty.2
  | wireL name value =>
    cases he
    exact List.not_mem_cons_of_ne_of_not_mem (by decide) hduty
  | wireO kind unknown1 timestamp unknown2 name =>
    cases he
    obtain ⟨-, -, hfields⟩ := hduty
    have hk : (0x03 : Byte) ≠ kind := by
      obtain ⟨rfl | rfl, -⟩ := wellFormed_wireO hwf <;> decide
    have hts := endMarker_not_mem_digits (wellFormed_wireO_digits hwf)
    simp only [List.mem_append, not_or] at hfields
    obtain ⟨⟨h1, h2⟩, hname⟩ := hfields
    simp only [List.mem_cons, List.mem_append, not_or]
    exact ⟨by decide, hk, ⟨⟨h1, hts⟩, h2⟩, hname⟩

/-! ## The reader on such a frame -/

/-- A fresh reader fed the command frame of a payload without 0x03, and more behind it, returns that frame with its
checksum found right (42_decode.md R174, R177), and leaves the rest in RXQ. -/
theorem reader_receives_cmdFrame (hw : s.cfg.wf) (hf : s.inFlight = some .rxFrame) (hs : s.rxFresh)
    (hp : ¬ (0x03 : Byte) ∈ p) (hm : (cmdFrame p).length ≤ s.cfg.rxMax) (hq : s.rxq = cmdFrame p ++ rest) :
    ∃ t, engineTimes (cmdFrame p).length s = .next t ∧ t.status.kind = 2 ∧ t.status.ckOk = true ∧
      t.rxSpan 0 t.rxLen.toNat = cmdFrame p ∧ t.rxSpan 1 t.plen.toNat = p ∧ t.rxq = rest := by
  have ⟨_, _, hmax⟩ := hw
  have hlen := cmdFrame_length p
  have hrun := reader_completes (noise := []) (rest := rest) (hi := hiByte (cmdChecksum (p ++ [0x03])))
    (lo := loByte (cmdChecksum (p ++ [0x03]))) hw hf hs nofun hp (by omega) (by simp [hq, cmdFrame_eq])
  rw [List.length_nil, Nat.zero_add, ← hlen] at hrun
  obtain ⟨t, ht, hbuf, hrxLen, hplen, hkind, hok, hrest⟩ : ∃ t, engineTimes (cmdFrame p).length s = .next t ∧
      t.rxBuf = Memory.ofBytes (cmdFrame p) ∧ t.rxLen = BitVec.ofNat 16 (cmdFrame p).length ∧
      t.plen = BitVec.ofNat 16 p.length ∧ t.status.kind = 2 ∧ t.status.ckOk = true ∧ t.rxq = rest :=
    ⟨_, hrun, by simp [cmdFrame_eq], rfl, rfl, rfl, by simp, rfl⟩
  have hstored : t.HasStored (cmdFrame p) := ⟨hbuf, hrxLen, by omega⟩
  have hplen : t.plen.toNat = p.length := by
    rw [hplen, BitVec.toNat_ofNat]
    omega
  refine ⟨t, ht, hkind, hok, ?_, ?_, hrest⟩
  · rw [hstored.toNat, hstored.span 0 _ (Nat.le_of_eq (Nat.zero_add _)), List.drop_zero, List.take_length]
  · rw [hplen, hstored.span 1 p.length (by omega), cmdFrame_eq]
    simp

/-- Settles O53: the host's duties keep 0x03 out of the payload. -/
theorem conformantCommandIsReceivedExactly : Obligations.ConformantCommandIsReceivedExactly := by
  intro s i p rest hi he hchunk _ _ hw hf hs hq hm
  exact reader_receives_cmdFrame hw hf hs (endMarker_not_mem_of_conformant hi he hchunk) hm hq

end Sys2Proof.Machine
end
